-- ==== Sys2Proof/Word.lean ====
section
/-! DEFINITION. The kinds of PFRP-CORE's values and the shape of its sparse tables. -/

namespace Sys2Proof

/-- One byte: the content of a device register, 0 to 255 (R5, R17). -/
abbrev Byte := BitVec 8

/-- A register address: a number below `2^AW` (R4, R30), compared for equality only (R39). -/
abbrev Addr := Nat

/-- The address field of a command word, 8 bits (R51). -/
abbrev AddrField := BitVec 8

/-- A view handle, the 8-bit field `h` of a command word (R51). -/
abbrev Handle := BitVec 8

/-- A motor handle, the 4-bit field `m` of a command word (R51). -/
abbrev MotorId := BitVec 4

/-- A pin index of the watched input port, 0 to 7 (R51). -/
abbrev Pin := BitVec 3

/-- An owner tag: a number below `2^OWNW` (R4, R10), compared for equality only (R73). -/
abbrev OwnTag := Nat

/-- The owner field of a command word, 4 bits (R51). -/
abbrev OwnField := BitVec 4

/-- A callback tag: a number below `2^CBW` (R4, R16), carried back to the host and otherwise opaque. -/
abbrev CbTag := Nat

/-- The callback field of a command word, 16 bits (R51). -/
abbrev CbField := BitVec 16

/-- A command word (R50). -/
abbrev Word := BitVec 32

/-- A response word (R60). -/
abbrev RespWord := BitVec 16

/-- An event word (R61). -/
abbrev EventWord := BitVec 32

/-- Sparse data by number: the listed keys have an entry, every other key has none. In canonical form the keys rise
strictly (`Table.wf`). -/
abbrev Table (α : Type) := List (Nat × α)

end Sys2Proof
end

