-- ==== Sys2Proof/Syntax.lean ====
section
/-! DEFINITION. The fifteen commands of PFRP-CMD version 1 and the small sets of names their operands use. -/

namespace Sys2Proof

/-- The motor modes (R13). -/
inductive Mode where
  | brake
  | coast
  | forward
  | reverse
  deriving DecidableEq, Repr

/-- The two places a nibble view can have (R71): bits 3:0 or bits 7:4. -/
inductive NibblePos where
  | lower
  | upper
  deriving DecidableEq, Repr

/-- The edge types of a registration key (R16). -/
inductive Edge where
  | falling
  | rising
  | either
  deriving DecidableEq, Repr

/-- The commands, one constructor per row of the opcode map (R52). Operand widths are those of the formats (R51). -/
inductive Instr where
  /-- VBIT h, addr, bit, inv, own (R70). -/
  | vbit (h : Handle) (addr : AddrField) (bit : BitVec 3) (inv : Bool) (own : OwnField)
  /-- VNIB h, addr, pos, inv, own (R71). -/
  | vnib (h : Handle) (addr : AddrField) (pos : NibblePos) (inv : Bool) (own : OwnField)
  /-- MBIND m, h1, h2 (R90). -/
  | mbind (m : MotorId) (h1 h2 : Handle)
  /-- BGET h (R78). -/
  | bget (h : Handle)
  /-- BSET h, v (R79). -/
  | bset (h : Handle) (v : Byte)
  /-- NGET h (R80). -/
  | nget (h : Handle)
  /-- NSET h, v (R81). -/
  | nset (h : Handle) (v : Byte)
  /-- BRAKE m (R92). -/
  | brake (m : MotorId)
  /-- COAST m (R93). -/
  | coast (m : MotorId)
  /-- FORWARD m (R94). -/
  | forward (m : MotorId)
  /-- REVERSE m (R95). -/
  | reverse (m : MotorId)
  /-- MMODE m (R96). -/
  | mmode (m : MotorId)
  /-- LREG pin, edge, cb (R120); `edge` is the 2-bit field, of which the value 3 is illegal (R53). -/
  | lreg (pin : Pin) (edge : BitVec 2) (cb : CbField)
  /-- LACT (R121). -/
  | lact
  /-- LDEACT (R122). -/
  | ldeact
  deriving DecidableEq, Repr

end Sys2Proof
end

