-- ==== Sys2Proof/WellFormed.lean ====
section
/-! DEFINITION. Which terms of `Instr` are commands of the opcode map. -/

namespace Sys2Proof

/-- The operand widths are in the types; the one extra condition of the opcode map is that LREG's `edge` field is not 3
(R52, R53). Handles and values out of range are not ill-formed: they are legal words that complete with an error (R54). -/
def Instr.wellFormed : Instr → Bool
  | .vbit _ _ _ _ _ => true
  | .vnib _ _ _ _ _ => true
  | .mbind _ _ _ => true
  | .bget _ => true
  | .bset _ _ => true
  | .nget _ => true
  | .nset _ _ => true
  | .brake _ => true
  | .coast _ => true
  | .forward _ => true
  | .reverse _ => true
  | .mmode _ => true
  | .lreg _ edge _ => edge != 3
  | .lact => true
  | .ldeact => true

end Sys2Proof
end

