-- ==== Sys2Proof/Decode.lean ====
section
/-! DEFINITION. The opcode map and the decoder (R50 to R56), the encoder (R51), the assembler line of a command (R58) and the
pseudo-instruction MTRANS (R59). -/

namespace Sys2Proof

/-- The field of `len` bits whose least significant bit is bit `lo` of the word, as R51 numbers them. -/
def field (w : Word) (lo len : Nat) : BitVec len := w.extractLsb' lo len

/-- `inv` as a flag: 1 is true (R51). -/
def flagOf (b : BitVec 1) : Bool := b == 1#1

/-- `pos`: 0 is lower, 1 is upper (R51). -/
def NibblePos.ofCode (b : BitVec 1) : NibblePos := if b == 1#1 then .upper else .lower

def NibblePos.code : NibblePos → BitVec 1
  | .lower => 0#1
  | .upper => 1#1

/-- Edge types: falling 0, rising 1, either 2; 3 names none (R51, R53). -/
def Edge.ofCode (b : BitVec 2) : Option Edge :=
  if b == 0#2 then some .falling else if b == 1#2 then some .rising else if b == 2#2 then some .either else none

def Edge.code : Edge → BitVec 2
  | .falling => 0#2
  | .rising => 1#2
  | .either => 2#2

/-- The mode codes of R13: the `tgt` field of a transition command, and the value MMODE returns. -/
def Mode.code : Mode → BitVec 2
  | .brake => 0#2
  | .coast => 1#2
  | .forward => 2#2
  | .reverse => 3#2

/-- A row of the opcode map (R52): it selects the words that agree with `pattern` under `mask` and meet `legal`. -/
structure OpcodeRow where
  pattern : Word
  mask : Word
  legal : Word → Bool := fun _ => true
  read : Word → Instr

def OpcodeRow.selects (r : OpcodeRow) (w : Word) : Bool := w &&& r.mask == r.pattern && r.legal w

/-- Binding and access of views: rows VBIT to NSET of R52. -/
def viewRows : List OpcodeRow := [
  { pattern := 0x10000000, mask := 0xF0000708,
    read := fun w => .vbit (field w 20 8) (field w 12 8) (field w 0 3) (flagOf (field w 11 1)) (field w 4 4) },
  { pattern := 0x20000000, mask := 0xF000070E,
    read := fun w => .vnib (field w 20 8) (field w 12 8) (.ofCode (field w 0 1)) (flagOf (field w 11 1)) (field w 4 4) },
  { pattern := 0x30000000, mask := 0xF0FF0000, read := fun w => .mbind (field w 24 4) (field w 8 8) (field w 0 8) },
  { pattern := 0x40000000, mask := 0xF00FFFFF, read := fun w => .bget (field w 20 8) },
  { pattern := 0x50000000, mask := 0xF00FFF00, read := fun w => .bset (field w 20 8) (field w 0 8) },
  { pattern := 0x60000000, mask := 0xF00FFFFF, read := fun w => .nget (field w 20 8) },
  { pattern := 0x70000000, mask := 0xF00FFF00, read := fun w => .nset (field w 20 8) (field w 0 8) }]

/-- Motors and the listener: rows BRAKE to LDEACT of R52. -/
def motorRows : List OpcodeRow := [
  { pattern := 0x80000000, mask := 0xF0FFFFFF, read := fun w => .brake (field w 24 4) },
  { pattern := 0x80000001, mask := 0xF0FFFFFF, read := fun w => .coast (field w 24 4) },
  { pattern := 0x80000002, mask := 0xF0FFFFFF, read := fun w => .forward (field w 24 4) },
  { pattern := 0x80000003, mask := 0xF0FFFFFF, read := fun w => .reverse (field w 24 4) },
  { pattern := 0x90000000, mask := 0xF0FFFFFF, read := fun w => .mmode (field w 24 4) },
  { pattern := 0xA0000000, mask := 0xF8CF0000, legal := fun w => field w 20 2 != 3#2,
    read := fun w => .lreg (field w 24 3) (field w 20 2) (field w 0 16) },
  { pattern := 0xB0000000, mask := 0xFFFFFFFF, read := fun _ => .lact },
  { pattern := 0xC0000000, mask := 0xFFFFFFFF, read := fun _ => .ldeact }]

/-- The opcode map, in the order of R52. -/
def opcodeRows : List OpcodeRow := viewRows ++ motorRows

/-- Why a word is illegal, the three cases of R53. The host sees one status for all three (R137; log 21). -/
inductive Illegal where
  /-- `op` is 0x0, 0xD, 0xE or 0xF. -/
  | reservedOpcode
  /-- a must-be-zero bit of the format is 1. -/
  | mustBeZeroBit
  /-- an LREG whose only defect is `edge` = 3. -/
  | reservedEdge
  deriving DecidableEq, Repr

/-- The case of R53 an illegal word falls under. -/
def illegalReason (w : Word) : Illegal :=
  if field w 28 4 == 0x0#4 || (0xD#4).ule (field w 28 4) then .reservedOpcode
  else if w &&& 0xF8CF0000 == 0xA0000000 then .reservedEdge
  else .mustBeZeroBit

/-- R56, total on all words: the first row that selects the word reads its fields; no row, the word is illegal. -/
def decode (w : Word) : Except Illegal Instr :=
  match opcodeRows.find? (·.selects w) with
  | some r => .ok (r.read w)
  | none => .error (illegalReason w)

/-- The word of a well-formed command: opcode, fields and zero bits from bit 31 down, as the formats of R51 list them. -/
def encode : Instr → Word
  | .vbit h addr bit inv own => 0x1#4 ++ h ++ addr ++ BitVec.ofBool inv ++ 0#3 ++ own ++ 0#1 ++ bit
  | .vnib h addr pos inv own => 0x2#4 ++ h ++ addr ++ BitVec.ofBool inv ++ 0#3 ++ own ++ 0#3 ++ pos.code
  | .mbind m h1 h2 => 0x3#4 ++ m ++ 0#8 ++ h1 ++ h2
  | .bget h => 0x4#4 ++ h ++ 0#20
  | .bset h v => 0x5#4 ++ h ++ 0#12 ++ v
  | .nget h => 0x6#4 ++ h ++ 0#20
  | .nset h v => 0x7#4 ++ h ++ 0#12 ++ v
  | .brake m => 0x8#4 ++ m ++ 0#22 ++ Mode.brake.code
  | .coast m => 0x8#4 ++ m ++ 0#22 ++ Mode.coast.code
  | .forward m => 0x8#4 ++ m ++ 0#22 ++ Mode.forward.code
  | .reverse m => 0x8#4 ++ m ++ 0#22 ++ Mode.reverse.code
  | .mmode m => 0x9#4 ++ m ++ 0#24
  | .lreg pin edge cb => 0xA#4 ++ 0#1 ++ pin ++ 0#2 ++ edge ++ 0#4 ++ cb
  | .lact => 0xB#4 ++ 0#28
  | .ldeact => 0xC#4 ++ 0#28

/-- The instruction the decoder reads from a word whose `nbits` low bits are those of `w`. A command word is presented whole
(R37), so the table's numbering is the word's own. -/
def decodeTableWord (nbits w : Nat) : Option Instr :=
  (decode (BitVec.ofNat 32 (w % 2 ^ nbits))).toOption

/-- MTRANS m, tgt, the pseudo-instruction that assembles to one of the four transition commands (R59). -/
def Instr.mtrans (m : MotorId) : Mode → Instr
  | .brake => .brake m
  | .coast => .coast m
  | .forward => .forward m
  | .reverse => .reverse m

/-- A decimal operand of an assembler line (R58). -/
def asmNum {n : Nat} (b : BitVec n) : String := toString b.toNat

def asmFlag (b : Bool) : String := if b then "1" else "0"

def asmPos : NibblePos → String
  | .lower => "lower"
  | .upper => "upper"

def asmEdge (e : BitVec 2) : String :=
  match Edge.ofCode e with
  | some .falling => "falling"
  | some .rising => "rising"
  | some .either => "either"
  | none => asmNum e

/-- The assembler line of a command: mnemonic and comma-separated operands in the order of R58. -/
def Instr.asm : Instr → String
  | .vbit h addr bit inv own =>
    "VBIT " ++ String.intercalate ", " [asmNum h, asmNum addr, asmNum bit, asmFlag inv, asmNum own]
  | .vnib h addr pos inv own =>
    "VNIB " ++ String.intercalate ", " [asmNum h, asmNum addr, asmPos pos, asmFlag inv, asmNum own]
  | .mbind m h1 h2 => "MBIND " ++ String.intercalate ", " [asmNum m, asmNum h1, asmNum h2]
  | .bget h => "BGET " ++ asmNum h
  | .bset h v => "BSET " ++ String.intercalate ", " [asmNum h, asmNum v]
  | .nget h => "NGET " ++ asmNum h
  | .nset h v => "NSET " ++ String.intercalate ", " [asmNum h, asmNum v]
  | .brake m => "BRAKE " ++ asmNum m
  | .coast m => "COAST " ++ asmNum m
  | .forward m => "FORWARD " ++ asmNum m
  | .reverse m => "REVERSE " ++ asmNum m
  | .mmode m => "MMODE " ++ asmNum m
  | .lreg pin edge cb => "LREG " ++ String.intercalate ", " [asmNum pin, asmEdge edge, asmNum cb]
  | .lact => "LACT"
  | .ldeact => "LDEACT"

end Sys2Proof
end

