-- ==== Sys2Proof/Config.lean ====
section
/-! DEFINITION. What an implementation fixes (R4) and the values the spec leaves open.

`Config` is plain data and stands in State, so a statement about every state is a statement about every admitted
parameter value (log 4). The opaque constants have no body: no proof can see what they are. -/

namespace Sys2Proof

/-- The two admitted values of `PATTERN` (R14, C4): the printed table, or brake and coast exchanged. -/
inductive Pattern where
  | printed
  | swapped
  deriving DecidableEq, Repr

/-- The implementation parameters of R4. `WINDOW_TICKS` is computed from two of them, and `VOLATILE` from the last three. -/
structure Config where
  /-- `NVIEWS`, 1 to 256. -/
  nviews : Nat
  /-- `NMOTORS`, 1 to 16. -/
  nmotors : Nat
  /-- `AW`, the width of a register address in bits. -/
  aw : Nat
  /-- `WINDOW_MS`, an unaudited literal of the source. -/
  windowMs : Nat
  /-- `TICK_PER_MS`. -/
  tickPerMs : Nat
  /-- `TW`, the width of the TIME input and of THR.last in bits. -/
  tw : Nat
  /-- `PATTERN`. -/
  pattern : Pattern
  /-- `OVERLAP_CHECK`. -/
  overlapCheck : Bool
  /-- `OWNW`, the width of an owner tag in bits. -/
  ownw : Nat
  /-- `CBW`, the width of a callback tag in bits. -/
  cbw : Nat
  /-- `SOLE_MASTER`, the platform premise that no other agent writes a non-volatile register of the RegisterDevice (R42;
  log 12). -/
  soleMaster : Bool
  /-- `INTF_ADDR`, open (D17). -/
  intfAddr : Addr
  /-- `INTCAP_ADDR`, open (D17). -/
  intcapAddr : Addr
  /-- The input-port addresses the platform declares: `VOLATILE` is these and the two addresses above (D13). -/
  inputPorts : List Addr
  deriving DecidableEq, Repr

/-- `INTF_ADDR` of the machine right after reset: open, a model must not pick a number (D17; log 4). -/
opaque Config.openIntfAddr : AddrField

/-- `INTCAP_ADDR` of the machine right after reset: open (D17; log 4). -/
opaque Config.openIntcapAddr : AddrField

/-- The input ports of the machine right after reset: they depend on board wiring the spec does not describe (D13; log 4). -/
opaque Config.openInputPorts : List AddrField

/-- The byte register `a` holds from power-up until its first write: not given, the same on every read (R34, U8; log 6). -/
opaque Config.powerUpByte : Nat → Byte

/-- The byte drawn by the `n`-th read of a volatile register when the state lists no draw for it (R34, U7; log 7). -/
opaque Config.freeDraw : Nat → Byte

/-- R4's values, with the open parameters left open. -/
def Config.initial : Config where
  nviews := 32
  nmotors := 4
  aw := 8
  windowMs := 150
  tickPerMs := 1
  tw := 64
  pattern := .printed
  overlapCheck := true
  ownw := 4
  cbw := 16
  soleMaster := true
  intfAddr := Config.openIntfAddr.toNat
  intcapAddr := Config.openIntcapAddr.toNat
  inputPorts := Config.openInputPorts.map BitVec.toNat

end Sys2Proof
end

