-- ==== Sys2Proof/Machine/State.lean ====
section
/-! DEFINITION. The state of PFRP-CORE with the environment's inputs and the observable record, and the state after reset. -/

namespace Sys2Proof.Machine

/-- The kind of a view slot with its position (R10): a bit index, or a nibble half. -/
inductive ViewKind where
  | bit (sel : BitVec 3)
  | nibble (pos : NibblePos)
  deriving DecidableEq, Repr

/-- A bound view slot (R10). An unbound slot has no fields (U12; log 17). -/
structure View where
  kind : ViewKind
  addr : Addr
  inv : Bool
  own : OwnTag
  deriving DecidableEq, Repr

/-- A bound motor slot (R12): the handles of its two pins and its mode. -/
structure Motor where
  pin1 : Handle
  pin2 : Handle
  mode : Mode
  deriving DecidableEq, Repr

/-- The three registration keys of one pin (R16); `none` is `valid = 0`. -/
structure PinRegs where
  falling : Option CbTag
  rising : Option CbTag
  either : Option CbTag
  deriving DecidableEq, Repr

/-- The listener state LST (R16). -/
structure Listener where
  active : Bool
  reg : Vector PinRegs 8
  deriving DecidableEq, Repr

/-- One thing the outside sees (R22): a bus transaction (R31), a response (R60), an event (R61). -/
inductive Obs where
  | read (a : Addr) (b : Byte)
  | write (a : Addr) (b : Byte)
  | resp (w : RespWord)
  | event (w : EventWord)
  deriving DecidableEq, Repr

/-- One action of an agent outside the block (R21, R26). The list of them in State is in the order in which they reach the
block, which is the environment's choice (R146; log 1). -/
inductive Input where
  /-- the host presents a command word (R21). -/
  | command (w : Word)
  /-- the expander signals an input-pin interrupt (R140). -/
  | irq
  /-- the TIME input now reads `t`, of which it carries the low `TW` bits (R21, R111). -/
  | time (t : Nat)
  /-- an agent other than the block changes register `a` to `b` (the low `AW` bits of `a` name it): the environment, for a
  volatile address (R24); for any other address another master of the bus (R42; log 12). -/
  | foreignWrite (a : Addr) (b : Byte)
  /-- the host presents `w`, and an agent other than the block changes register `a` to `b` when `k` of its bus transactions have
  been issued (R24, R27, R33; log 12). -/
  | foreignWriteInCommand (w : Word) (k : Nat) (a : Addr) (b : Byte)
  /-- the expander signals an interrupt, and an agent other than the block changes register `a` to `b` when `k` of the
  dispatch's reads and events have been issued (R24; log 12). -/
  | foreignWriteInDispatch (k : Nat) (a : Addr) (b : Byte)
  /-- RESET between commands (R160). -/
  | reset
  /-- RESET while command `w` is in progress, when `k` of its bus transactions have been issued (R161; log 10). -/
  | resetInCommand (w : Word) (k : Nat)
  /-- RESET while a dispatch is in progress, when `k` of its reads and events have been issued (log 11). -/
  | resetInDispatch (k : Nat)
  deriving DecidableEq, Repr

/-- Why the machine stops. No rule of the spec stops it: errors are response statuses (R131). -/
inductive Fault where
  /-- Raised by an accepted transition whose motor holds a handle that is not a bound bit view (R91 presupposes it is; the
  invariant `State.Inv` says so). Safe: no run from reset reaches it (log 13). -/
  | motorPinNotBitView
  deriving DecidableEq, Repr

/-- What the model gives no meaning to. -/
inductive Refusal where
  /-- Raised by `exec` for a command that has no meaning in the model yet. Safe. No arm raises it now. -/
  | notModelled (mnemonic : String)
  /-- Raised by the foreign-write inputs at a non-volatile address while the platform promises SOLE_MASTER: the promise is broken
  and the spec gives the run no meaning (R24, R42, D33, U6). Safe (log 12). -/
  | soleMasterBroken
  /-- Raised by the same inputs at the same addresses on a platform that does not promise SOLE_MASTER: there the lost-update race
  of R33 exists, and the spec gives such a run no winner and no meaning (R42, D33, U6). No command raises it. Safe (log 12). -/
  | lostUpdateRace
  deriving DecidableEq, Repr

/-- The whole machine, plain data. -/
structure State where
  /-- the implementation parameters, fixed (R4; log 4). -/
  cfg : Config
  /-- VT, the bound view slots by handle (R10). -/
  vt : Table View
  /-- MT, the bound motor slots by handle (R12). -/
  mt : Table Motor
  /-- THR: `none` is the sentinel, `some last` is `valid = 1` with a time in ticks, below `2^TW` (R4, R15, R116). -/
  thr : Option Nat
  /-- LST (R16). -/
  lst : Listener
  /-- RD, the device registers whose content is known: given in the start state or written since (R17, R34; log 6). -/
  rd : List Host.Cell
  /-- the value on the TIME input in ticks, below `2^TW`, compared without wrap (R4, R6, R21, R112). -/
  time : Nat
  /-- the actions of host and environment still to come, first first (R26; log 1). -/
  inputs : List Input
  /-- the bytes the environment will answer the next volatile reads with, first first (R34, U7; log 7). -/
  draws : List Byte
  /-- the model's own count of volatile reads (log 7). -/
  drawn : Nat
  /-- everything the block has shown the outside, first first (R22, R36; log 9). -/
  trace : List Obs
  deriving DecidableEq, Repr

/-- A pin with no registration (R23). -/
def PinRegs.empty : PinRegs where
  falling := none
  rising := none
  either := none

/-- The listener right after reset: inactive, no registration (R23). -/
def Listener.initial : Listener where
  active := false
  reg := Vector.replicate 8 PinRegs.empty

/-- The machine right after reset (R23, R161): every slot unbound, the throttle at its sentinel, the listener inactive with
no registration, nothing pending. No register content is known (R34, N9). TIME 0, no input waiting, no draw listed and the
draw count 0 are the model's choices (DESIGN CHOICE; log 3, 7, 8). -/
def State.reset : State where
  cfg := Config.initial
  vt := []
  mt := []
  thr := none
  lst := Listener.initial
  rd := []
  time := 0
  inputs := []
  draws := []
  drawn := 0
  trace := []

end Sys2Proof.Machine
end

