-- ==== Sys2Proof/Machine/Flags.lean ====
section
/-! DEFINITION. What a command reports. PFRP-CORE has no status flags (R20): the result of a command is its response word, and
of an interrupt dispatch its event words. -/

namespace Sys2Proof.Machine

/-- The statuses of R130. Codes 4 and 7 are reserved for the platform and never raised by the block (R135, R138; log 22). -/
inductive Status where
  | ok
  | domainError
  | forbiddenTransition
  | tooSoon
  | noDeviceDetected
  | configError
  | illegalCommand
  | transportError
  deriving DecidableEq, Repr

/-- The numbers of R130. -/
def Status.code : Status → BitVec 4
  | .ok => 0
  | .domainError => 1
  | .forbiddenTransition => 2
  | .tooSoon => 3
  | .noDeviceDetected => 4
  | .configError => 5
  | .illegalCommand => 6
  | .transportError => 7

/-- R60: bits 15:12 zero, 11:8 status, 7:0 value. -/
def responseWord (e : Status) (value : Byte) : RespWord := 0#4 ++ e.code ++ value

/-- R61 (a callback tag is presented in 16 bits; log 5): 31:16 cb, 15:8 flag, 7 zero, 6:4 pin, 3:2 kedge, 1 dir, 0 cap. -/
def eventWord (cb : CbTag) (flag : Byte) (pin : Pin) (kedge : Edge) (dir cap : Bool) : EventWord :=
  BitVec.ofNat 16 cb ++ flag ++ 0#1 ++ pin ++ kedge.code ++ BitVec.ofBool dir ++ BitVec.ofBool cap

end Sys2Proof.Machine
end

