-- ==== Sys2Proof/Machine/Memory.lean ====
section
/-! DEFINITION. Sparse tables by number, and the device registers as one of them. -/

namespace Sys2Proof.Machine

/-- The entry of a key. -/
def Table.at? {α : Type} : Table α → Nat → Option α
  | [], _ => none
  | (k, x) :: t, a => if a = k then some x else Table.at? t a

/-- Give a key an entry, in the place that keeps the keys rising. -/
def Table.put {α : Type} : Table α → Nat → α → Table α
  | [], a, x => [(a, x)]
  | (k, y) :: t, a, x =>
    if a < k then (a, x) :: (k, y) :: t else if a = k then (a, x) :: t else (k, y) :: Table.put t a x

/-- The canonical form of a table with keys below `n`: the keys rise strictly. -/
def Table.wf {α : Type} (n : Nat) (t : Table α) : Bool :=
  decide (t.Pairwise fun c d => c.1 < d.1) && t.all fun c => decide (c.1 < n)

/-- The device registers whose content is known. -/
abbrev Memory := List Host.Cell

/-- The canonical form of memory: addresses of the 2^AW space (R30), strictly rising. An unlisted address has no known byte,
so no entry can equal what an unlisted address reads as (log 6). -/
def Memory.wf (aw : Nat) (m : Memory) : Bool := Table.wf (2 ^ aw) m

/-- The known byte of a register, if any: what the list says (R34). -/
def Memory.known (m : Memory) (a : Addr) : Option Byte := Table.at? m a

/-- The byte a register holds (R34): the one last written, else the one it has held since power-up, which the spec does not
give: a free value, the same until written (U8; log 6). -/
def Memory.byte (m : Memory) (a : Addr) : Byte := (m.known a).getD (Config.powerUpByte a)

/-- A whole-byte write (R17, R32). -/
def Memory.write (m : Memory) (a : Addr) (b : Byte) : Memory := Table.put m a b

end Sys2Proof.Machine
end

