-- ==== Sys2Proof/Machine/Operands.lean ====
section
/-! DEFINITION. The operand forms of the commands: handles and what they name, the byte arithmetic of a view, the pin
patterns, the registration keys, and the derived parameters. -/

namespace Sys2Proof.Machine

/-! Widths (R4) and derived parameters -/

/-- The low `w` bits of a number: what `w` wires or `w` stored bits hold of it. -/
def lowBits (w n : Nat) : Nat := n % 2 ^ w

/-- The address an address field names: its low `AW` bits, all of them when `AW` is R4's 8 (R51, R55; log 5). -/
def addrOf (c : Config) (f : AddrField) : Addr := lowBits c.aw f.toNat

/-- The owner tag of an owner field, in `OWNW` bits (R51, R55; log 5). -/
def ownOf (c : Config) (f : OwnField) : OwnTag := lowBits c.ownw f.toNat

/-- The callback tag of a callback field, in `CBW` bits (R51, R55; log 5). -/
def cbOf (c : Config) (f : CbField) : CbTag := lowBits c.cbw f.toNat

/-- `WINDOW_TICKS = WINDOW_MS * TICK_PER_MS` (R118). -/
def windowTicks (c : Config) : Nat := c.windowMs * c.tickPerMs

/-- `VOLATILE`: the two interrupt registers and the declared input ports (R4, D13). -/
def isVolatile (c : Config) (a : Addr) : Bool := a == c.intfAddr || a == c.intcapAddr || c.inputPorts.contains a

/-- Logical 0 or 1 as a byte (`b2n` of R6). -/
def bitByte (b : Bool) : Byte := if b then 1 else 0

/-- The pair of logical values (pin1, pin2) of a mode (R14); `swapped` exchanges brake and coast only. -/
def patternPins : Pattern → Mode → Bool × Bool
  | .printed, .brake => (false, false)
  | .printed, .coast => (true, true)
  | .swapped, .brake => (true, true)
  | .swapped, .coast => (false, false)
  | _, .forward => (true, false)
  | _, .reverse => (false, true)

/-! The byte arithmetic of a view -/

/-- The slot VBIT fills (R70). -/
def bitViewOf (c : Config) (addr : AddrField) (bit : BitVec 3) (inv : Bool) (own : OwnField) : View :=
  { kind := .bit bit, addr := addrOf c addr, inv := inv, own := ownOf c own }

/-- The slot VNIB fills (R71). -/
def nibbleViewOf (c : Config) (addr : AddrField) (pos : NibblePos) (inv : Bool) (own : OwnField) : View :=
  { kind := .nibble pos, addr := addrOf c addr, inv := inv, own := ownOf c own }

/-- The bits of a view's value, at offset 0: one bit or four. -/
def View.ones (v : View) : Byte :=
  match v.kind with
  | .bit _ => 0x01
  | .nibble _ => 0x0F

/-- `Off(h)` (R11). -/
def View.off (v : View) : Nat :=
  match v.kind with
  | .bit sel => sel.toNat
  | .nibble .lower => 0
  | .nibble .upper => 4

/-- `Mask(h)` (R11). -/
def View.mask (v : View) : Byte := v.ones <<< v.off

/-- What a value is XORed with: 1 or 0xF if the view inverts, else 0 (R74 to R77). -/
def View.flip (v : View) : Byte := if v.inv then v.ones else 0

/-- The logical value of the view in a register byte (R74, R76). -/
def View.extract (v : View) (b : Byte) : Byte := ((b >>> v.off) &&& v.ones) ^^^ v.flip

/-- The register byte with the view's bits set to a logical value (R75, R77): clear the mask, OR in the value. -/
def View.merge (v : View) (old value : Byte) : Byte := (old &&& ~~~v.mask) ||| ((value ^^^ v.flip) <<< v.off)

def View.isBit (v : View) : Bool :=
  match v.kind with
  | .bit _ => true
  | .nibble _ => false

def View.isNibble (v : View) : Bool := !v.isBit

/-! Handles -/

/-- The view slot of a handle, if it is bound: `VT[h]` (R10). -/
def State.view? (s : State) (h : Handle) : Option View := Table.at? s.vt h.toNat

/-- The motor slot of a handle, if it is bound: `MT[m]` (R12). -/
def State.motor? (s : State) (m : MotorId) : Option Motor := Table.at? s.mt m.toNat

/-- `h >= NVIEWS` fails (R72, R136). -/
def State.viewInRange (s : State) (h : Handle) : Bool := decide (h.toNat < s.cfg.nviews)

/-- `m >= NMOTORS` fails (R91, R136). -/
def State.motorInRange (s : State) (m : MotorId) : Bool := decide (m.toNat < s.cfg.nmotors)

/-- `CheckView(h, bit)` (R72): the bound bit view, or nothing. -/
def checkBitView (s : State) (h : Handle) : Option View :=
  if s.viewInRange h then (s.view? h).filter View.isBit else none

/-- `CheckView(h, nibble)` (R72). -/
def checkNibbleView (s : State) (h : Handle) : Option View :=
  if s.viewInRange h then (s.view? h).filter View.isNibble else none

/-- The bound motor of a handle, or nothing (R91, R96). -/
def checkMotor (s : State) (m : MotorId) : Option Motor :=
  if s.motorInRange m then s.motor? m else none

/-- Two views share a physical bit and have different owners (R73). -/
def View.clashes (v g : View) : Bool := g.addr == v.addr && (g.mask &&& v.mask) != 0 && g.own != v.own

/-- `Overlaps(addr, mask, own)` for the view to be bound (R73): some bound slot clashes with it. -/
def overlaps (s : State) (v : View) : Bool :=
  (List.range s.cfg.nviews).any fun g => (Table.at? s.vt g).any v.clashes

/-- A bind of slot `h` is refused (R70, R71): out of range, already bound, or overlapping while `OVERLAP_CHECK` is on. -/
def bindRefused (s : State) (h : Handle) (v : View) : Bool :=
  !s.viewInRange h || (s.view? h).isSome || (s.cfg.overlapCheck && overlaps s v)

/-- Two bit views address the same physical bit (R90). -/
def View.sameBit (v g : View) : Bool := v.addr == g.addr && v.kind == g.kind

/-- Some bound motor holds the handle as a pin (R90). -/
def handleHeld (s : State) (h : Handle) : Bool :=
  (List.range s.cfg.nmotors).any fun k => (Table.at? s.mt k).any fun mot => mot.pin1 == h || mot.pin2 == h

/-- The two pin views of a motor to be built, or nothing if MBIND must answer ConfigError (R90). -/
def checkPins (s : State) (m : MotorId) (h1 h2 : Handle) : Option (View × View) :=
  if s.motorInRange m && (s.motor? m).isNone && h1 != h2 && !handleHeld s h1 && !handleHeld s h2 then
    match checkBitView s h1, checkBitView s h2 with
    | some v1, some v2 => if v1.sameBit v2 then none else some (v1, v2)
    | _, _ => none
  else none

/-! Registration keys -/

/-- `REG[p][e]` (R16). -/
def PinRegs.cb (r : PinRegs) : Edge → Option CbTag
  | .falling => r.falling
  | .rising => r.rising
  | .either => r.either

def PinRegs.set (r : PinRegs) (e : Edge) (tag : CbTag) : PinRegs :=
  match e with
  | .falling => { r with falling := some tag }
  | .rising => { r with rising := some tag }
  | .either => { r with either := some tag }

/-- The callback registered for a pin and an edge type (R16). -/
def Listener.cb (l : Listener) (pin : Pin) (e : Edge) : Option CbTag := (l.reg[pin.toNat]'pin.isLt).cb e

/-- Register a callback, replacing the earlier one of the same key (R16, R120). -/
def Listener.register (l : Listener) (pin : Pin) (e : Edge) (tag : CbTag) : Listener :=
  { l with reg := l.reg.set pin.toNat ((l.reg[pin.toNat]'pin.isLt).set e tag) pin.isLt }

end Sys2Proof.Machine
end

