-- ==== Sys2Proof/Machine/Ops.lean ====
section
/-! DEFINITION. The shared operations: the updates of State, the bus primitives, the response and `raise`, the view
operations, the throttle. -/

namespace Sys2Proof.Machine

/-- The outcome of a command or of a step. -/
abbrev Result := Host.Outcome State Fault Refusal

/-! Updates of State -/

def State.emit (s : State) (o : Obs) : State := { s with trace := s.trace ++ [o] }

def State.emitAll (s : State) (os : List Obs) : State := { s with trace := s.trace ++ os }

def State.withView (s : State) (h : Handle) (v : View) : State := { s with vt := Table.put s.vt h.toNat v }

def State.withMotor (s : State) (m : MotorId) (mot : Motor) : State := { s with mt := Table.put s.mt m.toNat mot }

def State.withThr (s : State) (t : Nat) : State := { s with thr := some t }

def State.withActive (s : State) (b : Bool) : State := { s with lst := { s.lst with active := b } }

def State.withReg (s : State) (pin : Pin) (e : Edge) (tag : CbTag) : State :=
  { s with lst := s.lst.register pin e tag }

def State.withByte (s : State) (a : Addr) (b : Byte) : State := { s with rd := Memory.write s.rd a b }

def State.withRd (s : State) (m : Memory) : State := { s with rd := m }

def State.withTime (s : State) (t : Nat) : State := { s with time := t }

def State.withInputs (s : State) (is : List Input) : State := { s with inputs := is }

/-- `n` volatile reads have been answered. -/
def State.drop (s : State) (n : Nat) : State := { s with draws := s.draws.drop n, drawn := s.drawn + n }

/-! The bus -/

/-- The byte the next volatile read is answered with: the environment's, or a free value if none is listed (R34; log 7). -/
def State.nextDraw (s : State) : Byte := s.draws.head?.getD (Config.freeDraw s.drawn)

/-- The byte register `a` holds (R17). -/
def State.byte (s : State) (a : Addr) : Byte := Memory.byte s.rd a

/-- The byte a read of `a` returns now (R34). -/
def State.busByte (s : State) (a : Addr) : Byte := if isVolatile s.cfg a then s.nextDraw else s.byte a

/-- The state after a read of `a`: the transaction is on the bus, and a volatile read has used up its draw (R31, R34). -/
def State.afterRead (s : State) (a : Addr) : State :=
  (if isVolatile s.cfg a then s.drop 1 else s).emit (.read a (s.busByte a))

/-- `MemRead(a, 1)` (R31): the byte, and the state after it. -/
def memRead (s : State) (a : Addr) : Byte × State := (s.busByte a, s.afterRead a)

/-- `MemWrite(a, 1, b)` (R31): the whole byte at once (R32); always on the bus, also if it changes nothing (R44). -/
def memWrite (s : State) (a : Addr) (b : Byte) : State := (s.withByte a b).emit (.write a b)

/-! Responses -/

/-- `Respond(status, value)` (R7, R60). -/
def respond (e : Status) (value : Byte) (s : State) : Result := .next (s.emit (.resp (responseWord e value)))

/-- `raise E` (R7, R131): the command ends with `Respond(E, 0)` and nothing else happens. This is the block's only form of
taking an exception: nothing is saved, no mode changes, control goes nowhere, and there is no return (R147, R148). -/
def raise (e : Status) (s : State) : Result := respond e 0 s

/-! Views -/

/-- `BitGet` and `NibGet` of a view (R74, R76): one read, no write. -/
def viewGet (s : State) (v : View) : Byte × State :=
  (v.extract (memRead s v.addr).1, (memRead s v.addr).2)

/-- `BitSet` and `NibSet` of a view (R75, R77): exactly one read, then exactly one write (R45). -/
def viewSet (s : State) (v : View) (value : Byte) : State :=
  memWrite (memRead s v.addr).2 v.addr (v.merge (memRead s v.addr).1 value)

/-- Two sets, pin1 first (R90, R91, D35), to the pattern of a mode (R14). -/
def setPins (s : State) (v1 v2 : View) (mode : Mode) : State :=
  viewSet (viewSet s v1 (bitByte (patternPins s.cfg.pattern mode).1)) v2 (bitByte (patternPins s.cfg.pattern mode).2)

/-! The throttle -/

/-- `SampleTime()` (R111). -/
def sampleTime (s : State) : Nat := s.time

/-- The comparison of R110 in unbounded naturals (R112); the sentinel is never too soon (R116). -/
def windowOpen (window : Nat) (thr : Option Nat) (now : Nat) : Bool :=
  match thr with
  | none => true
  | some last => decide (last + window ≤ now)

/-- `ThrottleCheckAndRecord(now)` (R110): the state with `now` recorded, or nothing if it is too soon. -/
def throttleCheckAndRecord (s : State) (now : Nat) : Option State :=
  if windowOpen (windowTicks s.cfg) s.thr now then some (s.withThr now) else none

end Sys2Proof.Machine
end

