-- ==== Sys2Proof/Machine/Listener.lean ====
section
/-! DEFINITION. The listener commands LREG, LACT, LDEACT (spec/43_listener.md) and the interrupt dispatch
(spec/60_exceptions.md section 3). -/

namespace Sys2Proof.Machine

/-- LREG (R120). The decoder gives no LREG with edge = 3; as a term it answers what its word would (R53; log 15). -/
def execLreg (pin : Pin) (edge : BitVec 2) (cb : CbField) (s : State) : Result :=
  match Edge.ofCode edge with
  | none => raise .illegalCommand s
  | some e => respond .ok 0 (s.withReg pin e (cbOf s.cfg cb))

/-- LACT (R121). -/
def execLact (s : State) : Result := respond .ok 0 (s.withActive true)

/-- LDEACT (R122): registrations are kept. -/
def execLdeact (s : State) : Result := respond .ok 0 (s.withActive false)

/-- The edge of a pin whose captured bit is `c` (R142). -/
def edgeOf (c : Bool) : Edge := if c then .rising else .falling

/-- The event of one registration key, if a callback is registered for it (R141). -/
def keyEvent (l : Listener) (flag : Byte) (pin : Pin) (kedge : Edge) (c : Bool) : List Obs :=
  match l.cb pin kedge with
  | none => []
  | some cb => [.event (eventWord cb flag pin kedge c c)]

/-- The events of one pin (R141): none unless its flag bit is 1; the specific edge before `either`. -/
def pinEvents (l : Listener) (flag cap : Byte) (pin : Pin) : List Obs :=
  if flag.getLsbD pin.toNat then
    keyEvent l flag pin (edgeOf (cap.getLsbD pin.toNat)) (cap.getLsbD pin.toNat)
      ++ keyEvent l flag pin .either (cap.getLsbD pin.toNat)
  else []

/-- The pins in the order of R141. -/
def allPins : List Pin := [0, 1, 2, 3, 4, 5, 6, 7]

/-- All events of one dispatch, pins ascending (R141). -/
def dispatchEvents (l : Listener) (flag cap : Byte) : List Obs := allPins.flatMap (pinEvents l flag cap)

/-- The IRQ event (R141, R145): ignored while inactive; else the flag register is read, then the captured-value register,
and every matching event is emitted. No error can arise in it (R138, R148) and no callback outcome reaches it (R149). -/
def dispatchIrq (s : State) : State :=
  if s.lst.active then
    let s1 := (memRead s s.cfg.intfAddr).2
    let s2 := (memRead s1 s.cfg.intcapAddr).2
    s2.emitAll (dispatchEvents s.lst (memRead s s.cfg.intfAddr).1 (memRead s1 s.cfg.intcapAddr).1)
  else s

end Sys2Proof.Machine
end

