-- ==== Sys2Proof/Machine/Motors.lean ====
section
/-! DEFINITION. The motor commands MBIND, BRAKE, COAST, FORWARD, REVERSE, MMODE (spec/41_motor.md). -/

namespace Sys2Proof.Machine

/-- MBIND (R90): both pins driven to the brake pattern, without guard or throttle; every ConfigError comes before the first
bus transaction. -/
def execMbind (m : MotorId) (h1 h2 : Handle) (s : State) : Result :=
  match checkPins s m h1 h2 with
  | none => raise .configError s
  | some (v1, v2) =>
    respond .ok 0 ((setPins s v1 v2 .brake).withMotor m { pin1 := h1, pin2 := h2, mode := .brake })

/-- The two forbidden pairs of R97: forward to reverse and reverse to forward. -/
def forbidden : Mode → Mode → Bool
  | .reverse, .forward => true
  | .forward, .reverse => true
  | _, _ => false

/-- Step 3 of R91: drive the pins to the target's pattern, record the mode. The pins of a bound motor are bound bit views
(an invariant); where they are not the machine stops (log 13). -/
def drivePins (m : MotorId) (mot : Motor) (target : Mode) (s : State) : Result :=
  match checkBitView s mot.pin1, checkBitView s mot.pin2 with
  | some v1, some v2 => respond .ok 0 ((setPins s v1 v2 target).withMotor m { mot with mode := target })
  | _, _ => .fault .motorPinNotBitView

/-- `Transition(m, target)` (R91): the motor must exist, the pair must be allowed (whatever the time), the window must be
open; only then is the time recorded and are the pins driven. -/
def transition (m : MotorId) (target : Mode) (s : State) : Result :=
  match checkMotor s m with
  | none => raise .configError s
  | some mot =>
    if forbidden mot.mode target then raise .forbiddenTransition s
    else
      match throttleCheckAndRecord s (sampleTime s) with
      | none => raise .tooSoon s
      | some s1 => drivePins m mot target s1

/-- BRAKE (R92). -/
def execBrake (m : MotorId) (s : State) : Result := transition m .brake s

/-- COAST (R93). -/
def execCoast (m : MotorId) (s : State) : Result := transition m .coast s

/-- FORWARD (R94). -/
def execForward (m : MotorId) (s : State) : Result := transition m .forward s

/-- REVERSE (R95). -/
def execReverse (m : MotorId) (s : State) : Result := transition m .reverse s

/-- MMODE (R96). -/
def execMmode (m : MotorId) (s : State) : Result :=
  match checkMotor s m with
  | none => raise .configError s
  | some mot => respond .ok (mot.mode.code.setWidth 8) s

end Sys2Proof.Machine
end

