-- ==== Sys2Proof/Machine/Views.lean ====
section
/-! DEFINITION. The view commands VBIT, VNIB, BGET, BSET, NGET, NSET (spec/40_views.md). -/

namespace Sys2Proof.Machine

/-- Bind a slot, or ConfigError (R70, R71). No bus transaction. -/
def bindView (h : Handle) (v : View) (s : State) : Result :=
  if bindRefused s h v then raise .configError s else respond .ok 0 (s.withView h v)

/-- VBIT (R70). -/
def execVbit (h : Handle) (addr : AddrField) (bit : BitVec 3) (inv : Bool) (own : OwnField) (s : State) : Result :=
  bindView h (bitViewOf s.cfg addr bit inv own) s

/-- VNIB (R71). -/
def execVnib (h : Handle) (addr : AddrField) (pos : NibblePos) (inv : Bool) (own : OwnField) (s : State) : Result :=
  bindView h (nibbleViewOf s.cfg addr pos inv own) s

/-- Answer the logical value of a checked view, or ConfigError (R78, R80). -/
def getThrough (checked : Option View) (s : State) : Result :=
  match checked with
  | none => raise .configError s
  | some v => respond .ok (viewGet s v).1 (viewGet s v).2

/-- Set a checked view to a value of at most `top`, or ConfigError, or DomainError, in that order (R57, R79, R81). -/
def setThrough (checked : Option View) (top value : Byte) (s : State) : Result :=
  match checked with
  | none => raise .configError s
  | some v => if top.ult value then raise .domainError s else respond .ok 0 (viewSet s v value)

/-- BGET (R78). -/
def execBget (h : Handle) (s : State) : Result := getThrough (checkBitView s h) s

/-- BSET (R79): the value must be 0 or 1. -/
def execBset (h : Handle) (v : Byte) (s : State) : Result := setThrough (checkBitView s h) 1 v s

/-- NGET (R80). -/
def execNget (h : Handle) (s : State) : Result := getThrough (checkNibbleView s h) s

/-- NSET (R81): the value must be 0 to 15. -/
def execNset (h : Handle) (v : Byte) (s : State) : Result := setThrough (checkNibbleView s h) 15 v s

end Sys2Proof.Machine
end

