-- ==== Sys2Proof/Machine/Dispatch.lean ====
section
/-! DEFINITION. One arm per command. -/

namespace Sys2Proof.Machine

def exec (i : Instr) (s : State) : Host.Outcome State Fault Refusal :=
  match i with
  -- views
  | .vbit h addr bit inv own => Sys2Proof.Machine.execVbit h addr bit inv own s
  | .vnib h addr pos inv own => Sys2Proof.Machine.execVnib h addr pos inv own s
  | .mbind m h1 h2 => Sys2Proof.Machine.execMbind m h1 h2 s
  | .bget h => Sys2Proof.Machine.execBget h s
  | .bset h v => Sys2Proof.Machine.execBset h v s
  | .nget h => Sys2Proof.Machine.execNget h s
  | .nset h v => Sys2Proof.Machine.execNset h v s
  -- motors
  | .brake m => Sys2Proof.Machine.execBrake m s
  | .coast m => Sys2Proof.Machine.execCoast m s
  | .forward m => Sys2Proof.Machine.execForward m s
  | .reverse m => Sys2Proof.Machine.execReverse m s
  | .mmode m => Sys2Proof.Machine.execMmode m s
  -- listener
  | .lreg pin edge cb => Sys2Proof.Machine.execLreg pin edge cb s
  | .lact => Sys2Proof.Machine.execLact s
  | .ldeact => Sys2Proof.Machine.execLdeact s

end Sys2Proof.Machine
end

