-- ==== Sys2Proof/Machine/Inputs.lean ====
section
/-! DEFINITION. What each action of the host and the environment does to the machine. -/

namespace Sys2Proof.Machine

/-- The host's command word: decoded and run, or IllegalCommand (R53, R56, R137). -/
def runCommand (w : Word) (s : State) : Result :=
  match decode w with
  | .ok i => exec i s
  | .error _ => raise .illegalCommand s

/-- RESET (R161, R162): the block's own state takes its reset values; RD, the parameters, the environment's side and the
record of what was shown stay. -/
def resetBlock (s : State) : State := { s with vt := [], mt := [], thr := none, lst := Listener.initial }

def Obs.isResp : Obs → Bool
  | .resp _ => true
  | _ => false

/-- The registers after one more bus transaction. -/
def Obs.applyTo (m : Memory) : Obs → Memory
  | .write a b => Memory.write m a b
  | _ => m

/-- Whether an observation is a volatile read, which uses up a draw. -/
def Obs.isDraw (c : Config) : Obs → Bool
  | .read a _ => isVolatile c a
  | _ => false

/-- What a command or dispatch that goes from `s` to `full` shows before its response: its bus transactions, or its reads and
events (R36, R141). -/
def shownBy (s full : State) : List Obs := (full.trace.drop s.trace.length).filter fun o => !o.isResp

/-- RESET in the middle of a command or dispatch that would have gone from `s` to `full`, when the first `k` of what it shows
have been issued (R161): the rest is not issued, there is no response, and the block's state takes its reset values. -/
def abandonAt (k : Nat) (s full : State) : State :=
  let issued := (shownBy s full).take k
  resetBlock (((s.withRd (issued.foldl Obs.applyTo s.rd)).drop (issued.countP (Obs.isDraw s.cfg))).emitAll issued)

/-- RESET in the middle of a command (R161; log 10). -/
def resetInCommand (w : Word) (k : Nat) (s : State) : Result :=
  match runCommand w s with
  | .next full => .next (abandonAt k s full)
  | other => other

/-- RESET in the middle of a dispatch (log 11). -/
def resetInDispatch (k : Nat) (s : State) : State := abandonAt k s (dispatchIrq s)

/-! Writes by another agent. A volatile register is the environment's to change, between any two bus transactions (R24). A write
to another one is another master's. -/

/-- Another master's write: it breaks the promise SOLE_MASTER where the platform makes it, and is part of the race of R33 where
it does not. The spec gives neither run a meaning and asks for a refusal, not for a winner (R42, D33, U6; log 12). -/
def otherMaster (s : State) : Result := .refused (if s.cfg.soleMaster then .soleMasterBroken else .lostUpdateRace)

/-- Between commands. -/
def foreignWrite (a : Addr) (b : Byte) (s : State) : Result :=
  if isVolatile s.cfg a then .next (s.withByte a b) else otherMaster s

/-- The end `full` of a command or dispatch from `s` during which volatile register `a` changed to `b` when the first `k` of what
it shows had been issued (R24). Its reads of `a` are draws in any case (R34), so the change shows in the registers alone: a later
write of the command to `a` stands. -/
def changedAmid (k : Nat) (a : Addr) (b : Byte) (s full : State) : State :=
  full.withRd (((shownBy s full).drop k).foldl Obs.applyTo
    (Memory.write (((shownBy s full).take k).foldl Obs.applyTo s.rd) a b))

/-- Inside a command. -/
def foreignWriteInCommand (w : Word) (k : Nat) (a : Addr) (b : Byte) (s : State) : Result :=
  if isVolatile s.cfg a then
    match runCommand w s with
    | .next full => .next (changedAmid k a b s full)
    | other => other
  else otherMaster s

/-- Inside a dispatch. -/
def foreignWriteInDispatch (k : Nat) (a : Addr) (b : Byte) (s : State) : Result :=
  if isVolatile s.cfg a then .next (changedAmid k a b s (dispatchIrq s)) else otherMaster s

/-- One action of the host or the environment (R21, R26). -/
def acceptInput (i : Input) (s : State) : Result :=
  match i with
  | .command w => runCommand w s
  | .irq => .next (dispatchIrq s)
  | .time t => .next (s.withTime (lowBits s.cfg.tw t))
  | .foreignWrite a b => foreignWrite (lowBits s.cfg.aw a) b s
  | .foreignWriteInCommand w k a b => foreignWriteInCommand w k (lowBits s.cfg.aw a) b s
  | .foreignWriteInDispatch k a b => foreignWriteInDispatch k (lowBits s.cfg.aw a) b s
  | .reset => .next (resetBlock s)
  | .resetInCommand w k => resetInCommand w k s
  | .resetInDispatch k => .next (resetInDispatch k s)

/-- The first waiting input, one whole command or dispatch at a time (R8, R146). With none waiting the block waits and nothing
changes (log 2). -/
def runFirstInput (s : State) : Result :=
  match s.inputs with
  | [] => .next s
  | i :: rest => acceptInput i (s.withInputs rest)

/-- The state with a command word as the very next input. -/
def presentFirst (s : State) (w : Word) : State := s.withInputs (.command w :: s.inputs)

end Sys2Proof.Machine
end

