-- ==== Sys2Proof/Machine/Step.lean ====
section
/-! DEFINITION. The step, and how the host's next command is placed. -/

namespace Sys2Proof.Machine

/-- One step: the first waiting input is taken and answered to completion. -/
def step (s : State) : Host.Outcome State Fault Refusal := runFirstInput s

/-- `s` with a command presented next. There is no program in the machine: the host presents the words (R18; log 3). -/
def State.withFetchWord (s : State) (nbits w : Nat) : State := presentFirst s (BitVec.ofNat 32 (w % 2 ^ nbits))

end Sys2Proof.Machine
end

