-- ==== Sys2Proof/Safety.lean ====
section
/-! DEFINITION. The vocabulary of the claims: the invariant of the machine, the platform's premises, and the spec's own words
for bits, bytes and transactions, written apart from the machine's operations. -/

namespace Sys2Proof.Machine

/-! The spec's words -/

/-- The view covers bit `k` of its register (R10, R11): a bit view its bit, a nibble view bits 3:0 or 7:4. -/
def View.covers (v : View) (k : Nat) : Prop :=
  match v.kind with
  | .bit sel => k = sel.toNat
  | .nibble .lower => k < 4
  | .nibble .upper => 4 ≤ k ∧ k < 8

/-- Two views share a physical bit (R73, R84). -/
def View.sharesBit (v w : View) : Prop := v.addr = w.addr ∧ ∃ k, v.covers k ∧ w.covers k

/-- `h` names a bound bit view `v` at bit `sel` (R72). -/
def State.hasBitView (s : State) (h : Handle) (v : View) (sel : BitVec 3) : Prop :=
  h.toNat < s.cfg.nviews ∧ s.view? h = some v ∧ v.kind = .bit sel

/-- `h` names a bound nibble view `v` at half `pos` (R72). -/
def State.hasNibbleView (s : State) (h : Handle) (v : View) (pos : NibblePos) : Prop :=
  h.toNat < s.cfg.nviews ∧ s.view? h = some v ∧ v.kind = .nibble pos

/-- `m` names the bound motor `mot` (R91). -/
def State.hasMotor (s : State) (m : MotorId) (mot : Motor) : Prop :=
  m.toNat < s.cfg.nmotors ∧ s.motor? m = some mot

/-- The `n`-th volatile read from now, counted from 0, returns this byte: the environment's draw, or a free value (R34). -/
def State.draw (s : State) (n : Nat) : Byte := (s.draws.drop n).head?.getD (Config.freeDraw (s.drawn + n))

/-- 1 for a volatile address, 0 for another: how many draws a read of it uses up. -/
def State.drawsAt (s : State) (a : Addr) : Nat := if isVolatile s.cfg a then 1 else 0

/-- The byte the first read of a command returns (R34). -/
def State.firstRead (s : State) (a : Addr) : Byte := if isVolatile s.cfg a then s.draw 0 else s.byte a

/-- The byte the second read of a command returns, after the read of `a1` and the write of `w1` to it (R34, R35): a draw, or
the byte the first write stored if the address is the same, or the register's byte. -/
def State.secondRead (s : State) (a1 : Addr) (w1 : Byte) (a2 : Addr) : Byte :=
  if isVolatile s.cfg a2 then s.draw (s.drawsAt a1) else if a2 = a1 then w1 else s.byte a2

/-- `new` is `old` with bit `sel` set to the physical form of the logical bit `x`, every other bit preserved (R75). -/
def bitReplaced (old new : Byte) (sel : BitVec 3) (inv x : Bool) : Prop :=
  ∀ k, k < 8 → new.getLsbD k = if k = sel.toNat then x != inv else old.getLsbD k

/-- `new` is `old` with the half at `pos` set to the physical form of the logical nibble `x`, the other half preserved
(R77). -/
def nibbleReplaced (old new : Byte) (pos : NibblePos) (inv : Bool) (x : Byte) : Prop :=
  ∀ k, k < 4 →
    match pos with
    | .lower => new.getLsbD k = (x.getLsbD k != inv) ∧ new.getLsbD (k + 4) = old.getLsbD (k + 4)
    | .upper => new.getLsbD (k + 4) = (x.getLsbD k != inv) ∧ new.getLsbD k = old.getLsbD k

/-- The response word of a completed command has this status code in bits 11:8 (R60). -/
def statusOf (r : RespWord) : BitVec 4 := r.extractLsb' 8 4

/-- The value in bits 7:0 of a response word (R60). -/
def valueOf (r : RespWord) : Byte := r.extractLsb' 0 8

/-- The command has answered `r` and nothing else happened: no state change, no bus transaction (R131). -/
def State.answersOnly (s : State) (r : RespWord) : State := { s with trace := s.trace ++ [.resp r] }

/-- An observation on the bus, not a response or an event (R22). -/
def Obs.onBus : Obs → Prop
  | .read _ _ => True
  | .write _ _ => True
  | _ => False

/-- The block's own state is as before: VT, MT, THR, LST (R131). -/
def State.sameBlock (s t : State) : Prop := t.vt = s.vt ∧ t.mt = s.mt ∧ t.thr = s.thr ∧ t.lst = s.lst

/-- What no command changes: the parameters, the TIME input, the inputs still to come. -/
def State.sameOutside (s t : State) : Prop := t.cfg = s.cfg ∧ t.time = s.time ∧ t.inputs = s.inputs

/-- The draws of `n` volatile reads have been used up. -/
def State.usedDraws (s t : State) (n : Nat) : Prop := t.draws = s.draws.drop n ∧ t.drawn = s.drawn + n

/-- The acceptance condition of the throttle (R110, R112, R116): the sentinel, or a whole window since the last. -/
def State.windowElapsed (s : State) : Prop :=
  ∀ last, s.thr = some last → last + s.cfg.windowMs * s.cfg.tickPerMs ≤ s.time

/-- The two forbidden pairs of the table of R97. -/
def forbiddenPair (cur target : Mode) : Prop :=
  (cur = .forward ∧ target = .reverse) ∨ (cur = .reverse ∧ target = .forward)

/-- The logical pair (pin1, pin2) of a mode under each admitted `PATTERN` (R14). -/
def pinPair (p : Pattern) : Mode → Bool × Bool
  | .brake => (p == .swapped, p == .swapped)
  | .coast => (p == .printed, p == .printed)
  | .forward => (true, false)
  | .reverse => (false, true)

/-! The bus as a history of the device's registers -/

/-- The registers after a history of transactions (R24). -/
def registersAfter (f : Addr → Byte) : List Obs → Addr → Byte
  | [] => f
  | .write a b :: os => registersAfter (fun x => if x = a then b else f x) os
  | _ :: os => registersAfter f os

/-- Every read of a non-volatile address in the history returns the latest write to it, or what was there before (R34,
R36). -/
def readsLatestWrite (c : Config) (f : Addr → Byte) : List Obs → Prop
  | [] => True
  | .read a b :: os => (isVolatile c a = false → b = f a) ∧ readsLatestWrite c f os
  | .write a b :: os => readsLatestWrite c (fun x => if x = a then b else f x) os
  | _ :: os => readsLatestWrite c f os

/-! Premises of the platform -/

/-- The slot counts are in their ranges (R4). -/
def admitted (c : Config) : Prop := 1 ≤ c.nviews ∧ c.nviews ≤ 256 ∧ 1 ≤ c.nmotors ∧ c.nmotors ≤ 16

/-- The values the TIME input, of `tw` bits, will take. -/
def timesIn (tw : Nat) : List Input → List Nat
  | [] => []
  | .time t :: is => t % 2 ^ tw :: timesIn tw is
  | _ :: is => timesIn tw is

/-- TIME never runs backwards (R115), a premise and no part of the step (log 20). -/
def State.timeMonotone (s : State) : Prop :=
  (s.time :: timesIn s.cfg.tw s.inputs).Pairwise (fun t u => t ≤ u) ∧ ∀ last, s.thr = some last → last ≤ s.time

/-- The inputs that reset the block (R160, R161). -/
def Input.resets : Input → Bool
  | .reset => true
  | .resetInCommand _ _ => true
  | .resetInDispatch _ => true
  | .command _ => false
  | .irq => false
  | .time _ => false
  | .foreignWrite _ _ => false
  | .foreignWriteInCommand _ _ _ _ => false
  | .foreignWriteInDispatch _ _ _ => false

/-- The command word an input presents to be run to completion (R8, R21). -/
def Input.word? : Input → Option Word
  | .command w => some w
  | .foreignWriteInCommand w _ _ _ => some w
  | .irq => none
  | .time _ => none
  | .foreignWrite _ _ => none
  | .foreignWriteInDispatch _ _ _ => none
  | .reset => none
  | .resetInCommand _ _ => none
  | .resetInDispatch _ => none

/-- The next input presents `w` to be run to completion; `rest` waits behind it. -/
def State.runsNext (s : State) (w : Word) (rest : List Input) : Prop := ∃ i, s.inputs = i :: rest ∧ i.word? = some w

/-- The register an input changes on behalf of an agent other than the block. -/
def Input.foreignAddr? : Input → Option Addr
  | .foreignWrite a _ => some a
  | .foreignWriteInCommand _ _ a _ => some a
  | .foreignWriteInDispatch _ a _ => some a
  | .command _ => none
  | .irq => none
  | .time _ => none
  | .reset => none
  | .resetInCommand _ _ => none
  | .resetInDispatch _ => none

/-- The next input does not touch what SOLE_MASTER protects (R42): no other agent writes a non-volatile register in it. -/
def State.soleMasterNext (s : State) : Prop :=
  ∀ i rest a, s.inputs = i :: rest → i.foreignAddr? = some a → isVolatile s.cfg (a % 2 ^ s.cfg.aw) = true

/-! Invariants -/

/-- What holds of the machine between steps. -/
structure State.Inv (s : State) : Prop where
  /-- memory is in canonical form, within the address space (R30). -/
  rdWf : Memory.wf s.cfg.aw s.rd = true
  /-- VT has slots 0 to NVIEWS - 1 only (R10). -/
  vtWf : Table.wf s.cfg.nviews s.vt = true
  /-- MT has slots 0 to NMOTORS - 1 only (R12). -/
  mtWf : Table.wf s.cfg.nmotors s.mt = true
  /-- a bound motor holds two bound bit views at different physical bits (R90). -/
  pins : ∀ m mot, s.motor? m = some mot →
    ∃ v1 v2 b1 b2, s.hasBitView mot.pin1 v1 b1 ∧ s.hasBitView mot.pin2 v2 b2 ∧ ¬ v1.sharesBit v2
  /-- no view handle is a pin of two motors (R90). -/
  pinsApart : ∀ m n mot other, s.motor? m = some mot → s.motor? n = some other → m ≠ n →
    mot.pin1 ≠ other.pin1 ∧ mot.pin1 ≠ other.pin2 ∧ mot.pin2 ≠ other.pin1 ∧ mot.pin2 ≠ other.pin2
  /-- with OVERLAP_CHECK on, bound views that share a physical bit have one owner (R73). -/
  oneOwner : s.cfg.overlapCheck = true → ∀ g h v w, s.view? g = some v → s.view? h = some w →
    v.sharesBit w → v.own = w.own
  /-- addresses and owner tags of bound views are numbers of AW and OWNW bits (R10). -/
  viewsFit : ∀ h v, s.view? h = some v → v.addr < 2 ^ s.cfg.aw ∧ v.own < 2 ^ s.cfg.ownw
  /-- TIME is a number of TW bits (R21). -/
  timeFits : s.time < 2 ^ s.cfg.tw
  /-- so is THR.last (R15). -/
  thrFits : ∀ last, s.thr = some last → last < 2 ^ s.cfg.tw
  /-- a registered callback tag is a number of CBW bits (R16). -/
  tagsFit : ∀ p e tag, s.lst.cb p e = some tag → tag < 2 ^ s.cfg.cbw

/-- The pins of motor `m` show the pattern of its mode (R25). -/
def State.coherent (s : State) (m : MotorId) : Prop :=
  ∃ mot v1 v2 b1 b2, s.hasMotor m mot ∧ s.hasBitView mot.pin1 v1 b1 ∧ s.hasBitView mot.pin2 v2 b2 ∧
    (s.byte v1.addr).getLsbD b1.toNat = ((pinPair s.cfg.pattern mot.mode).1 != v1.inv) ∧
    (s.byte v2.addr).getLsbD b2.toNat = ((pinPair s.cfg.pattern mot.mode).2 != v2.inv)

/-- The pins of motor `m` are at non-volatile addresses (R25). -/
def State.pinsSteady (s : State) (m : MotorId) : Prop :=
  ∀ mot h v, s.motor? m = some mot → h = mot.pin1 ∨ h = mot.pin2 → s.view? h = some v → isVolatile s.cfg v.addr = false

/-- The handles a command writes a register through. -/
def State.writtenHandles (s : State) : Instr → List Handle
  | .bset h _ => [h]
  | .nset h _ => [h]
  | .mbind _ h1 h2 => [h1, h2]
  | .brake m => ((s.motor? m).map fun mot => [mot.pin1, mot.pin2]).getD []
  | .coast m => ((s.motor? m).map fun mot => [mot.pin1, mot.pin2]).getD []
  | .forward m => ((s.motor? m).map fun mot => [mot.pin1, mot.pin2]).getD []
  | .reverse m => ((s.motor? m).map fun mot => [mot.pin1, mot.pin2]).getD []
  | .vbit _ _ _ _ _ => []
  | .vnib _ _ _ _ _ => []
  | .bget _ => []
  | .nget _ => []
  | .mmode _ => []
  | .lreg _ _ _ => []
  | .lact => []
  | .ldeact => []

/-- The command writes through no view that covers a pin bit of motor `m`, unless it is a transition of `m` itself. -/
def State.sparesPins (s : State) (m : MotorId) (i : Instr) : Prop :=
  (∃ tgt, i = Instr.mtrans m tgt) ∨
    ∀ h v mot p w, h ∈ s.writtenHandles i → s.view? h = some v → s.motor? m = some mot →
      p = mot.pin1 ∨ p = mot.pin2 → s.view? p = some w → ¬ v.sharesBit w

end Sys2Proof.Machine
end

