-- ==== Sys2Proof/Certificates/Slice0/Obligations.lean ====
section
/-! DEFINITION. The statements about PFRP-CORE, from the numbered rules of spec/. -/

open Sys2Proof Sys2Proof.Machine

/-! ## Encoding -/

/-- The worked encodings of spec/30_encoding.md section 8, one word of each format and its instruction. -/
def Obligations.WorkedEncodingsDecode : Prop :=
  decode 0x10212013 = .ok (.vbit 2 0x12 3 false 1) ∧
  decode 0x20513871 = .ok (.vnib 5 0x13 .upper true 7) ∧
  decode 0x30000203 = .ok (.mbind 0 2 3) ∧
  decode 0x40200000 = .ok (.bget 2) ∧
  decode 0x50200001 = .ok (.bset 2 1) ∧
  decode 0x60500000 = .ok (.nget 5) ∧
  decode 0x7050000C = .ok (.nset 5 0xC) ∧
  decode 0x81000002 = .ok (.forward 1) ∧
  decode 0x90000000 = .ok (.mmode 0) ∧
  decode 0xA310BEEF = .ok (.lreg 3 1 0xBEEF) ∧
  decode 0xB0000000 = .ok .lact ∧
  decode 0xC0000000 = .ok .ldeact

/-- Decoding the word of a well-formed command gives the command back, every operand at every value (R51, R52, R56). -/
def Obligations.DecodeOfEncode : Prop :=
  ∀ i : Instr, i.wellFormed = true → decode (encode i) = .ok i

/-- Every word that decodes is the word of its command, which is well-formed: no two words for one command (R51, R53). -/
def Obligations.EncodeOfDecode : Prop :=
  ∀ (w : Word) (i : Instr), decode w = .ok i → i.wellFormed = true ∧ encode i = w

/-- R53: which words are illegal, and that such a word completes with IllegalCommand, changes no state and issues no bus
transaction (R137). -/
def Obligations.IllegalWordsAnswerIllegalCommand : Prop :=
  ∀ w : Word,
    ((∃ e, decode w = .error e) ↔
      (w.extractLsb' 28 4 = 0x0#4 ∨ w.extractLsb' 28 4 = 0xD#4 ∨ w.extractLsb' 28 4 = 0xE#4 ∨ w.extractLsb' 28 4 = 0xF#4) ∨
      (w.extractLsb' 28 4 = 0x1#4 ∧ (w.extractLsb' 8 3 ≠ 0 ∨ w.extractLsb' 3 1 ≠ 0)) ∨
      (w.extractLsb' 28 4 = 0x2#4 ∧ (w.extractLsb' 8 3 ≠ 0 ∨ w.extractLsb' 1 3 ≠ 0)) ∨
      (w.extractLsb' 28 4 = 0x3#4 ∧ w.extractLsb' 16 8 ≠ 0) ∨
      ((w.extractLsb' 28 4 = 0x4#4 ∨ w.extractLsb' 28 4 = 0x6#4) ∧ w.extractLsb' 0 20 ≠ 0) ∨
      ((w.extractLsb' 28 4 = 0x5#4 ∨ w.extractLsb' 28 4 = 0x7#4) ∧ w.extractLsb' 8 12 ≠ 0) ∨
      (w.extractLsb' 28 4 = 0x8#4 ∧ w.extractLsb' 2 22 ≠ 0) ∨
      (w.extractLsb' 28 4 = 0x9#4 ∧ w.extractLsb' 0 24 ≠ 0) ∨
      (w.extractLsb' 28 4 = 0xA#4 ∧ (w.extractLsb' 27 1 ≠ 0 ∨ w.extractLsb' 22 2 ≠ 0 ∨ w.extractLsb' 16 4 ≠ 0 ∨
        w.extractLsb' 20 2 = 3#2)) ∨
      ((w.extractLsb' 28 4 = 0xB#4 ∨ w.extractLsb' 28 4 = 0xC#4) ∧ w.extractLsb' 0 28 ≠ 0)) ∧
    ((∃ e, decode w = .error e) → ∀ (s : State) (rest : List Input), s.inputs = .command w :: rest →
      step s = .next { s with inputs := rest, trace := s.trace ++ [.resp 0x0600] })

/-- A step runs the decoded command: the word is taken from the waiting inputs and `exec` does the rest; the same for a word
placed by `withFetchWord` (R8, R18, R56). -/
def Obligations.StepRunsDecodedCommand : Prop :=
  ∀ (s : State) (w : Word) (i : Instr), decode w = .ok i →
    (∀ rest, s.inputs = .command w :: rest → step s = exec i { s with inputs := rest }) ∧
    step (s.withFetchWord 32 w.toNat) = exec i s

/-! ## Responses and errors -/

/-- Every command word, legal or not, is answered by exactly one response, after all its bus transactions; bits 15:12 are
zero; the value is 0 unless the command is BGET (0 or 1), NGET (0 to 15) or MMODE (0 to 3) and completes with OK (R60, R36). -/
def Obligations.EveryWordIsAnsweredOnce : Prop :=
  ∀ (s t : State) (w : Word) (rest : List Input), s.runsNext w rest → step s = .next t →
    ∃ (os : List Obs) (r : RespWord), (∀ o ∈ os, o.onBus) ∧ t.trace = s.trace ++ os ++ [.resp r] ∧
      r.extractLsb' 12 4 = 0 ∧ (statusOf r ≠ 0 → valueOf r = 0) ∧
      (valueOf r ≠ 0 →
        (∃ h, decode w = .ok (.bget h) ∧ (valueOf r).toNat ≤ 1) ∨
        (∃ h, decode w = .ok (.nget h) ∧ (valueOf r).toNat ≤ 15) ∨
        (∃ m, decode w = .ok (.mmode m) ∧ (valueOf r).toNat ≤ 3))

/-- R131: a command that ends with an error status has changed nothing and issued no bus transaction, and its value is 0. -/
def Obligations.ErrorsChangeNothing : Prop :=
  ∀ (i : Instr) (s t : State) (os : List Obs) (r : RespWord), exec i s = .next t →
    t.trace = s.trace ++ os ++ [.resp r] → statusOf r ≠ 0 → t = s.answersOnly r ∧ valueOf r = 0

/-- Which command can end with which status (R130): codes 4 and 7 to 15 never; DomainError BSET and NSET only;
ForbiddenTransitionError FORWARD and REVERSE only; TooSoonError the four transitions only; ConfigError no listener command;
IllegalCommand exactly the LREG term whose edge field is 3 (that last clause is the model's, log 15). -/
def Obligations.StatusesByCommand : Prop :=
  ∀ (i : Instr) (s t : State) (os : List Obs) (r : RespWord), exec i s = .next t →
    t.trace = s.trace ++ os ++ [.resp r] →
      ((statusOf r).toNat ≤ 6 ∧ statusOf r ≠ 4) ∧
      (statusOf r = 1 → ∃ h v, i = .bset h v ∨ i = .nset h v) ∧
      (statusOf r = 2 → ∃ m, i = .forward m ∨ i = .reverse m) ∧
      (statusOf r = 3 → ∃ m tgt, i = Instr.mtrans m tgt) ∧
      (statusOf r = 5 → i ≠ .lact ∧ i ≠ .ldeact ∧ ∀ p e c, i ≠ .lreg p e c) ∧
      (statusOf r = 6 ↔ ∃ p c, i = .lreg p 3 c)

/-! ## Views -/

/-- R11: mask and offset of a bound slot. -/
def Obligations.MaskAndOffsetOfSlot : Prop :=
  ∀ v : View,
    (∀ sel, v.kind = .bit sel → v.mask = 1 <<< sel.toNat ∧ v.off = sel.toNat) ∧
    (v.kind = .nibble .lower → v.mask = 0x0F ∧ v.off = 0) ∧
    (v.kind = .nibble .upper → v.mask = 0xF0 ∧ v.off = 4)

/-- VBIT on an unbound slot in range, with no clash of owners, binds it and changes nothing else (R70, R73). The slot keeps as
many bits of the address and owner fields as AW and OWNW give it, all of them at R4's widths (the model's reading of R4, log 5). -/
def Obligations.VbitBindsSlot : Prop :=
  ∀ (s : State) (h : Handle) (addr : AddrField) (bit : BitVec 3) (inv : Bool) (own : OwnField), admitted s.cfg →
    h.toNat < s.cfg.nviews → s.view? h = none →
    (s.cfg.overlapCheck = true → ∀ g w, g.toNat < s.cfg.nviews → s.view? g = some w → w.addr = addr.toNat % 2 ^ s.cfg.aw →
      w.covers bit.toNat → w.own = own.toNat % 2 ^ s.cfg.ownw) →
    ∃ t, exec (.vbit h addr bit inv own) s = .next t ∧
      (∀ g, t.view? g = if g = h
        then some { kind := .bit bit, addr := addr.toNat % 2 ^ s.cfg.aw, inv := inv, own := own.toNat % 2 ^ s.cfg.ownw }
        else s.view? g) ∧
      t.mt = s.mt ∧ t.thr = s.thr ∧ t.lst = s.lst ∧ t.rd = s.rd ∧ t.trace = s.trace ++ [.resp 0x0000] ∧
      s.sameOutside t ∧ s.usedDraws t 0

/-- VNIB on an unbound slot in range, with no clash of owners, binds it and changes nothing else (R71, R73). The slot keeps as
many bits of the address and owner fields as AW and OWNW give it, all of them at R4's widths (the model's reading of R4, log 5). -/
def Obligations.VnibBindsSlot : Prop :=
  ∀ (s : State) (h : Handle) (addr : AddrField) (pos : NibblePos) (inv : Bool) (own : OwnField), admitted s.cfg →
    h.toNat < s.cfg.nviews → s.view? h = none →
    (s.cfg.overlapCheck = true → ∀ g w, g.toNat < s.cfg.nviews → s.view? g = some w → w.addr = addr.toNat % 2 ^ s.cfg.aw →
      (∃ k, w.covers k ∧ if pos = .lower then k < 4 else 4 ≤ k ∧ k < 8) → w.own = own.toNat % 2 ^ s.cfg.ownw) →
    ∃ t, exec (.vnib h addr pos inv own) s = .next t ∧
      (∀ g, t.view? g = if g = h
        then some { kind := .nibble pos, addr := addr.toNat % 2 ^ s.cfg.aw, inv := inv, own := own.toNat % 2 ^ s.cfg.ownw }
        else s.view? g) ∧
      t.mt = s.mt ∧ t.thr = s.thr ∧ t.lst = s.lst ∧ t.rd = s.rd ∧ t.trace = s.trace ++ [.resp 0x0000] ∧
      s.sameOutside t ∧ s.usedDraws t 0

/-- VBIT and VNIB answer ConfigError, and do nothing else, exactly if the handle is out of range, the slot is bound, or
OVERLAP_CHECK is on and a bound view of another owner covers one of the bits (R70, R71, R73, R136). Addresses and owners are
compared in as many bits of the address and owner fields as AW and OWNW give them, all of them at R4's widths (the model's reading
of R4, log 5). -/
def Obligations.BindRefusedExactly : Prop :=
  ∀ (s : State) (h : Handle) (addr : AddrField) (inv : Bool) (own : OwnField), admitted s.cfg →
    (∀ bit, exec (.vbit h addr bit inv own) s = .next (s.answersOnly 0x0500) ↔
      s.cfg.nviews ≤ h.toNat ∨ s.view? h ≠ none ∨ (s.cfg.overlapCheck = true ∧
        ∃ g w, g.toNat < s.cfg.nviews ∧ s.view? g = some w ∧ w.addr = addr.toNat % 2 ^ s.cfg.aw ∧ w.covers bit.toNat ∧
          w.own ≠ own.toNat % 2 ^ s.cfg.ownw)) ∧
    (∀ pos, exec (.vnib h addr pos inv own) s = .next (s.answersOnly 0x0500) ↔
      s.cfg.nviews ≤ h.toNat ∨ s.view? h ≠ none ∨ (s.cfg.overlapCheck = true ∧
        ∃ g w k, g.toNat < s.cfg.nviews ∧ s.view? g = some w ∧ w.addr = addr.toNat % 2 ^ s.cfg.aw ∧ w.covers k ∧
          (if pos = .lower then k < 4 else 4 ≤ k ∧ k < 8) ∧ w.own ≠ own.toNat % 2 ^ s.cfg.ownw))

/-- BGET: one read; the answer is the bit of the byte read, complemented if the view inverts; nothing else changes (R74,
R78). -/
def Obligations.BgetAnswersLogicalBit : Prop :=
  ∀ (s : State) (h : Handle) (v : View) (sel : BitVec 3), s.hasBitView h v sel →
    exec (.bget h) s = .next { s with
      draws := s.draws.drop (s.drawsAt v.addr)
      drawn := s.drawn + s.drawsAt v.addr
      trace := s.trace ++ [.read v.addr (s.firstRead v.addr),
        .resp (if (s.firstRead v.addr).getLsbD sel.toNat != v.inv then 0x0001 else 0x0000)] }

/-- NGET: one read; the answer's low four bits are the half of the byte read, complemented if the view inverts; nothing else
changes (R76, R80). -/
def Obligations.NgetAnswersLogicalNibble : Prop :=
  ∀ (s : State) (h : Handle) (v : View) (pos : NibblePos), s.hasNibbleView h v pos →
    ∃ r : RespWord,
      (∀ k, k < 16 → r.getLsbD k =
        (decide (k < 4) && ((s.firstRead v.addr).getLsbD ((if pos = .lower then 0 else 4) + k) != v.inv))) ∧
      exec (.nget h) s = .next { s with
        draws := s.draws.drop (s.drawsAt v.addr)
        drawn := s.drawn + s.drawsAt v.addr
        trace := s.trace ++ [.read v.addr (s.firstRead v.addr), .resp r] }

/-- BSET with 0 or 1: exactly one read and one write; the written byte is the byte read with the view's bit replaced; no other
register, no table and no other state changes (R75, R79, R45). -/
def Obligations.BsetReplacesTheBit : Prop :=
  ∀ (s : State) (h : Handle) (v : View) (sel : BitVec 3) (x : Byte), s.hasBitView h v sel → x.toNat ≤ 1 →
    ∃ t new, exec (.bset h x) s = .next t ∧ bitReplaced (s.firstRead v.addr) new sel v.inv (decide (x = 1)) ∧
      t.trace = s.trace ++ [.read v.addr (s.firstRead v.addr), .write v.addr new, .resp 0x0000] ∧
      (∀ y, t.byte y = if y = v.addr then new else s.byte y) ∧
      s.sameBlock t ∧ s.sameOutside t ∧ s.usedDraws t (s.drawsAt v.addr)

/-- NSET with 0 to 15: exactly one read and one write; the written byte is the byte read with the view's half replaced; no
other register, no table and no other state changes (R77, R81, R45). -/
def Obligations.NsetReplacesTheNibble : Prop :=
  ∀ (s : State) (h : Handle) (v : View) (pos : NibblePos) (x : Byte), s.hasNibbleView h v pos → x.toNat ≤ 15 →
    ∃ t new, exec (.nset h x) s = .next t ∧ nibbleReplaced (s.firstRead v.addr) new pos v.inv x ∧
      t.trace = s.trace ++ [.read v.addr (s.firstRead v.addr), .write v.addr new, .resp 0x0000] ∧
      (∀ y, t.byte y = if y = v.addr then new else s.byte y) ∧
      s.sameBlock t ∧ s.sameOutside t ∧ s.usedDraws t (s.drawsAt v.addr)

/-- R72: an access answers ConfigError, and does nothing else, exactly if its handle is out of range, unbound or of the other
kind, whatever the value (ConfigError before DomainError, R139). -/
def Obligations.WrongHandleIsConfigError : Prop :=
  ∀ (s : State) (h : Handle) (x : Byte),
    (exec (.bget h) s = .next (s.answersOnly 0x0500) ↔ ¬ ∃ v sel, s.hasBitView h v sel) ∧
    (exec (.bset h x) s = .next (s.answersOnly 0x0500) ↔ ¬ ∃ v sel, s.hasBitView h v sel) ∧
    (exec (.nget h) s = .next (s.answersOnly 0x0500) ↔ ¬ ∃ v pos, s.hasNibbleView h v pos) ∧
    (exec (.nset h x) s = .next (s.answersOnly 0x0500) ↔ ¬ ∃ v pos, s.hasNibbleView h v pos)

/-- R132: BSET of more than 1 and NSET of more than 15, on a good handle, answer DomainError and do nothing else. -/
def Obligations.OutOfRangeValueIsDomainError : Prop :=
  ∀ (s : State) (h : Handle) (x : Byte),
    (∀ v sel, s.hasBitView h v sel →
      (exec (.bset h x) s = .next (s.answersOnly 0x0100) ↔ 1 < x.toNat)) ∧
    (∀ v pos, s.hasNibbleView h v pos →
      (exec (.nset h x) s = .next (s.answersOnly 0x0100) ↔ 15 < x.toNat))

/-- R82: on a non-volatile address a set followed by a get of the same view returns the value set. -/
def Obligations.SetThenGetRoundTrips : Prop :=
  (∀ (s : State) (h : Handle) (v : View) (sel : BitVec 3) (x : Byte), s.hasBitView h v sel →
    isVolatile s.cfg v.addr = false → x.toNat ≤ 1 →
    ∃ t u b, exec (.bset h x) s = .next t ∧ exec (.bget h) t = .next u ∧
      u.trace = t.trace ++ [.read v.addr b, .resp (x.setWidth 16)]) ∧
  (∀ (s : State) (h : Handle) (v : View) (pos : NibblePos) (x : Byte), s.hasNibbleView h v pos →
    isVolatile s.cfg v.addr = false → x.toNat ≤ 15 →
    ∃ t u b, exec (.nset h x) s = .next t ∧ exec (.nget h) t = .next u ∧
      u.trace = t.trace ++ [.read v.addr b, .resp (x.setWidth 16)])

/-- R83: a set that completes changes no bit outside the view's mask and no other register. -/
def Obligations.SetPreservesOtherBits : Prop :=
  ∀ (s t : State) (h : Handle) (v : View) (x : Byte) (i : Instr) (os : List Obs), i = .bset h x ∨ i = .nset h x →
    s.view? h = some v → exec i s = .next t → t.trace = s.trace ++ os ++ [.resp 0x0000] →
    (∀ y, y ≠ v.addr → t.byte y = s.byte y) ∧
    ∃ old new, os = [.read v.addr old, .write v.addr new] ∧ t.byte v.addr = new ∧
      new &&& ~~~v.mask = old &&& ~~~v.mask

/-- R84: two bound views of one non-volatile register, of any kinds and positions. After a set through the one, a get through the
other returns, for each bit it covers, the physical bit seen through its own polarity: the bit just set if the first view covers
it too, else the bit that was there. So two bit views of one bit return the value set, or its complement if exactly one
inverts. -/
def Obligations.ViewsOfOneBitAgree : Prop :=
  (∀ (s : State) (h1 h2 : Handle) (v1 v2 : View) (sel : BitVec 3) (x : Byte), s.hasBitView h1 v1 sel →
    s.hasBitView h2 v2 sel → v2.addr = v1.addr → isVolatile s.cfg v1.addr = false → x.toNat ≤ 1 →
    ∃ t u b, exec (.bset h1 x) s = .next t ∧ exec (.bget h2) t = .next u ∧
      u.trace = t.trace ++ [.read v1.addr b,
        .resp (if decide (x = 1) != (v1.inv != v2.inv) then 0x0001 else 0x0000)]) ∧
  ∀ (s : State) (h1 h2 : Handle) (v1 v2 : View) (x : Byte) (set get : Instr),
    ((∃ sel, s.hasBitView h1 v1 sel ∧ x.toNat ≤ 1 ∧ set = .bset h1 x) ∨
      ∃ pos, s.hasNibbleView h1 v1 pos ∧ x.toNat ≤ 15 ∧ set = .nset h1 x) →
    ((∃ sel, s.hasBitView h2 v2 sel ∧ get = .bget h2) ∨ ∃ pos, s.hasNibbleView h2 v2 pos ∧ get = .nget h2) →
    v2.addr = v1.addr → isVolatile s.cfg v1.addr = false →
    ∃ t u b r, exec set s = .next t ∧ exec get t = .next u ∧ u.trace = t.trace ++ [.read v1.addr b, .resp r] ∧
      (∀ k, v2.covers k → v1.covers k → r.getLsbD (k - v2.off) = ((x.getLsbD (k - v1.off) != v1.inv) != v2.inv)) ∧
      (∀ k, v2.covers k → ¬ v1.covers k → r.getLsbD (k - v2.off) = ((s.byte v1.addr).getLsbD k != v2.inv)) ∧
      ∀ k, r.getLsbD k = true → v2.covers (k + v2.off)

/-! ## Motors and the throttle -/

/-- MBIND of an unbound motor to two bound bit views, at different bits and held by no motor: reads and writes pin1's register,
then pin2's, with the brake pattern; the motor is bound in brake; the throttle, the views, the listener, the other motors and
every other bit are as before (R90, R165). -/
def Obligations.MbindBuildsMotorInBrake : Prop :=
  ∀ (s : State) (m : MotorId) (h1 h2 : Handle) (v1 v2 : View) (b1 b2 : BitVec 3), admitted s.cfg →
    m.toNat < s.cfg.nmotors → s.motor? m = none → s.hasBitView h1 v1 b1 → s.hasBitView h2 v2 b2 → h1 ≠ h2 →
    ¬ v1.sharesBit v2 →
    (∀ k mot, s.hasMotor k mot → mot.pin1 ≠ h1 ∧ mot.pin1 ≠ h2 ∧ mot.pin2 ≠ h1 ∧ mot.pin2 ≠ h2) →
    ∃ t w1 w2, exec (.mbind m h1 h2) s = .next t ∧
      bitReplaced (s.firstRead v1.addr) w1 b1 v1.inv (pinPair s.cfg.pattern .brake).1 ∧
      bitReplaced (s.secondRead v1.addr w1 v2.addr) w2 b2 v2.inv (pinPair s.cfg.pattern .brake).2 ∧
      t.trace = s.trace ++ [.read v1.addr (s.firstRead v1.addr), .write v1.addr w1,
        .read v2.addr (s.secondRead v1.addr w1 v2.addr), .write v2.addr w2, .resp 0x0000] ∧
      (∀ y, t.byte y = if y = v2.addr then w2 else if y = v1.addr then w1 else s.byte y) ∧
      (∀ k, t.motor? k = if k = m then some { pin1 := h1, pin2 := h2, mode := .brake } else s.motor? k) ∧
      t.vt = s.vt ∧ t.thr = s.thr ∧ t.lst = s.lst ∧ s.sameOutside t ∧
      s.usedDraws t (s.drawsAt v1.addr + s.drawsAt v2.addr)

/-- MBIND answers ConfigError, and does nothing else, exactly in the cases of R90 and R136. -/
def Obligations.MbindRefusedExactly : Prop :=
  ∀ (s : State) (m : MotorId) (h1 h2 : Handle), admitted s.cfg →
    (exec (.mbind m h1 h2) s = .next (s.answersOnly 0x0500) ↔
      s.cfg.nmotors ≤ m.toNat ∨ s.motor? m ≠ none ∨ (¬ ∃ v b, s.hasBitView h1 v b) ∨ (¬ ∃ v b, s.hasBitView h2 v b) ∨
      h1 = h2 ∨ (∃ v1 v2 b1 b2, s.hasBitView h1 v1 b1 ∧ s.hasBitView h2 v2 b2 ∧ v1.addr = v2.addr ∧ b1 = b2) ∨
      ∃ k mot, s.hasMotor k mot ∧ (mot.pin1 = h1 ∨ mot.pin1 = h2 ∨ mot.pin2 = h1 ∨ mot.pin2 = h2))

/-- BRAKE, COAST, FORWARD and REVERSE of a bound motor, when the pair is allowed and the window has elapsed: the time is
recorded; pin1's register is read and written, then pin2's, with the target's pattern; the mode is the target; the views, the
listener, the other motors and every other bit are as before (R91 to R95). The motor's handles name bound bit views, which
`StepKeepsInvariant` keeps. -/
def Obligations.AcceptedTransitionDrivesPins : Prop :=
  ∀ (s : State) (m : MotorId) (tgt : Mode) (mot : Motor) (v1 v2 : View) (b1 b2 : BitVec 3), s.hasMotor m mot →
    s.hasBitView mot.pin1 v1 b1 → s.hasBitView mot.pin2 v2 b2 → ¬ forbiddenPair mot.mode tgt → s.windowElapsed →
    ∃ t w1 w2, exec (Instr.mtrans m tgt) s = .next t ∧
      bitReplaced (s.firstRead v1.addr) w1 b1 v1.inv (pinPair s.cfg.pattern tgt).1 ∧
      bitReplaced (s.secondRead v1.addr w1 v2.addr) w2 b2 v2.inv (pinPair s.cfg.pattern tgt).2 ∧
      t.trace = s.trace ++ [.read v1.addr (s.firstRead v1.addr), .write v1.addr w1,
        .read v2.addr (s.secondRead v1.addr w1 v2.addr), .write v2.addr w2, .resp 0x0000] ∧
      (∀ y, t.byte y = if y = v2.addr then w2 else if y = v1.addr then w1 else s.byte y) ∧
      (∀ k, t.motor? k = if k = m then some { pin1 := mot.pin1, pin2 := mot.pin2, mode := tgt } else s.motor? k) ∧
      t.vt = s.vt ∧ t.thr = some s.time ∧ t.lst = s.lst ∧ s.sameOutside t ∧
      s.usedDraws t (s.drawsAt v1.addr + s.drawsAt v2.addr)

/-- A transition of a bound motor answers ForbiddenTransitionError, and does nothing else, exactly for forward to reverse and
reverse to forward, whatever the time and the throttle (R97, R133). -/
def Obligations.ForbiddenExactlyForwardReverse : Prop :=
  ∀ (s : State) (m : MotorId) (tgt : Mode) (mot : Motor), s.hasMotor m mot →
    (exec (Instr.mtrans m tgt) s = .next (s.answersOnly 0x0200) ↔
      (mot.mode = .forward ∧ tgt = .reverse) ∨ (mot.mode = .reverse ∧ tgt = .forward))

/-- An allowed transition of a bound motor answers TooSoonError, and does nothing else, exactly if an accepted transition was
less than a window ago (R134, R110). -/
def Obligations.TooSoonExactlyInsideWindow : Prop :=
  ∀ (s : State) (m : MotorId) (tgt : Mode) (mot : Motor), s.hasMotor m mot → ¬ forbiddenPair mot.mode tgt →
    (exec (Instr.mtrans m tgt) s = .next (s.answersOnly 0x0300) ↔
      ∃ last, s.thr = some last ∧ s.time < last + s.cfg.windowMs * s.cfg.tickPerMs)

/-- A transition or MMODE answers ConfigError, and does nothing else, exactly if the motor handle is out of range or unbound
(R91, R96). -/
def Obligations.UnboundMotorIsConfigError : Prop :=
  ∀ (s : State) (m : MotorId),
    (∀ tgt, exec (Instr.mtrans m tgt) s = .next (s.answersOnly 0x0500) ↔ ¬ ∃ mot, s.hasMotor m mot) ∧
    (exec (.mmode m) s = .next (s.answersOnly 0x0500) ↔ ¬ ∃ mot, s.hasMotor m mot)

/-- R96: MMODE answers the code of the mode (0 brake, 1 coast, 2 forward, 3 reverse) and changes nothing; on a handle out of
range or unbound it answers ConfigError and does nothing else. -/
def Obligations.MmodeAnswersMode : Prop :=
  ∀ (s : State) (m : MotorId),
    (∀ mot, s.hasMotor m mot → exec (.mmode m) s = .next (s.answersOnly
      (match mot.mode with
       | .brake => 0x0000
       | .coast => 0x0001
       | .forward => 0x0002
       | .reverse => 0x0003))) ∧
    ((s.cfg.nmotors ≤ m.toNat ∨ s.motor? m = none) → exec (.mmode m) s = .next (s.answersOnly 0x0500))

/-- R110: the throttle compares in unbounded naturals, boundary included, records on success and mutates nothing on failure. -/
def Obligations.ThrottleComparesAndRecords : Prop :=
  ∀ (s : State) (now : Nat),
    ((s.thr = none ∨ ∃ last, s.thr = some last ∧ last + s.cfg.windowMs * s.cfg.tickPerMs ≤ now) →
      throttleCheckAndRecord s now = some { s with thr := some now }) ∧
    (∀ last, s.thr = some last → now < last + s.cfg.windowMs * s.cfg.tickPerMs →
      throttleCheckAndRecord s now = none)

/-- R113: one window for all motors. After an accepted transition of any motor, an allowed transition of any bound motor
answers TooSoonError until a window has passed, and is accepted from then on. -/
def Obligations.WindowSpansAllMotors : Prop :=
  ∀ (s t : State) (m n : MotorId) (tgt tgt' : Mode) (os : List Obs) (mot : Motor) (now : Nat), s.Inv →
    exec (Instr.mtrans m tgt) s = .next t → t.trace = s.trace ++ os ++ [.resp 0x0000] → t.hasMotor n mot →
    ¬ forbiddenPair mot.mode tgt' →
    (now < s.time + s.cfg.windowMs * s.cfg.tickPerMs →
      exec (Instr.mtrans n tgt') { t with time := now } = .next ({ t with time := now }.answersOnly 0x0300)) ∧
    (s.time + s.cfg.windowMs * s.cfg.tickPerMs ≤ now →
      ∃ u os', exec (Instr.mtrans n tgt') { t with time := now } = .next u ∧ u.trace = t.trace ++ os' ++ [.resp 0x0000])

/-- R114: what records. A step leaves THR as it was, or is an accepted transition and records the time, which is a whole window
after the recorded one, or is a reset and clears it. Every reset, between commands or inside a command or a dispatch, leaves THR at the
sentinel (R161; inside a dispatch the model's reading, log 11). -/
def Obligations.OnlyAcceptedTransitionsRecord : Prop :=
  ∀ s t : State, step s = .next t →
    (t.thr = s.thr ∨
      (∃ i rest, s.inputs = i :: rest ∧ i.resets = true ∧ t.thr = none) ∨
      (∃ w rest m tgt os, s.runsNext w rest ∧ decode w = .ok (Instr.mtrans m tgt) ∧
        t.trace = s.trace ++ os ++ [.resp 0x0000] ∧ s.windowElapsed ∧ t.thr = some s.time)) ∧
    ∀ i rest, s.inputs = i :: rest → i.resets = true → t.thr = none

/-- Over any run without a reset, from any state: the recorded time is the one at the start or a whole window after it
(R110, R114, R176). -/
def Obligations.AcceptedTransitionsAreAWindowApart : Prop :=
  ∀ (n : Nat) (s t : State) (last : Nat), (∀ i ∈ s.inputs, i.resets = false) → s.thr = some last →
    Host.Core.run Sys2Proof.core n s = .next t →
    t.thr = some last ∨ ∃ now, t.thr = some now ∧ last + s.cfg.windowMs * s.cfg.tickPerMs ≤ now

/-- R100: the mode changes only by an accepted transition of that motor, to its target; the pins of a bound motor never change
(R12). Resets apart. -/
def Obligations.ModeChangesOnlyByTransition : Prop :=
  ∀ (s t : State) (k : MotorId) (mot mot' : Motor), step s = .next t → s.motor? k = some mot → t.motor? k = some mot' →
    mot'.pin1 = mot.pin1 ∧ mot'.pin2 = mot.pin2 ∧
    (mot'.mode ≠ mot.mode → ∃ w rest os, s.runsNext w rest ∧ decode w = .ok (Instr.mtrans k mot'.mode) ∧
      t.trace = s.trace ++ os ++ [.resp 0x0000])

/-- R10, R12: between resets a bound slot stays bound and a bound view slot never changes; a slot becomes bound only by the
command that names it. -/
def Obligations.SlotsAreWrittenOnce : Prop :=
  ∀ s t : State, step s = .next t → (∀ i rest, s.inputs = i :: rest → i.resets = false) →
    (∀ h v, s.view? h = some v → t.view? h = some v) ∧
    (∀ m, s.motor? m ≠ none → t.motor? m ≠ none) ∧
    (∀ h, t.view? h ≠ s.view? h → ∃ w rest, s.runsNext w rest ∧
      ((∃ addr bit inv own, decode w = .ok (.vbit h addr bit inv own)) ∨
       (∃ addr pos inv own, decode w = .ok (.vnib h addr pos inv own)))) ∧
    (∀ m, s.motor? m = none → t.motor? m ≠ none → ∃ w rest h1 h2, s.runsNext w rest ∧
      decode w = .ok (.mbind m h1 h2))

/-- R99: an accepted self-transition of a motor whose pins show its mode writes back the bytes it read, leaves every register
and every mode as it was, and moves the timestamp. -/
def Obligations.SelfTransitionIsIdempotent : Prop :=
  ∀ (s : State) (m : MotorId) (mot : Motor), s.Inv → s.hasMotor m mot → s.coherent m → s.pinsSteady m →
    s.windowElapsed →
    ∃ t a1 c1 a2 c2, exec (Instr.mtrans m mot.mode) s = .next t ∧
      t.trace = s.trace ++ [.read a1 c1, .write a1 c1, .read a2 c2, .write a2 c2, .resp 0x0000] ∧
      (∀ y, t.byte y = s.byte y) ∧ (∀ k, t.motor? k = s.motor? k) ∧ t.thr = some s.time

/-- R98: between the two writes of an accepted transition the pins show the new pin1 and the old pin2; under the printed
PATTERN brake to coast shows the forward pattern there, and coast to brake the reverse pattern. -/
def Obligations.PinsBetweenTheTwoWrites : Prop :=
  ∀ (s t : State) (m : MotorId) (tgt : Mode) (mot : Motor) (v1 v2 : View) (b1 b2 : BitVec 3) (os : List Obs), s.Inv →
    s.hasMotor m mot → s.hasBitView mot.pin1 v1 b1 → s.hasBitView mot.pin2 v2 b2 → s.coherent m → s.pinsSteady m →
    exec (Instr.mtrans m tgt) s = .next t → t.trace = s.trace ++ os ++ [.resp 0x0000] →
    (registersAfter s.byte (os.take 2) v1.addr).getLsbD b1.toNat = ((pinPair s.cfg.pattern tgt).1 != v1.inv) ∧
    (registersAfter s.byte (os.take 2) v2.addr).getLsbD b2.toNat = ((pinPair s.cfg.pattern mot.mode).2 != v2.inv) ∧
    (s.cfg.pattern = .printed → mot.mode = .brake → tgt = .coast →
      ((pinPair s.cfg.pattern tgt).1, (pinPair s.cfg.pattern mot.mode).2) = pinPair s.cfg.pattern .forward) ∧
    (s.cfg.pattern = .printed → mot.mode = .coast → tgt = .brake →
      ((pinPair s.cfg.pattern tgt).1, (pinPair s.cfg.pattern mot.mode).2) = pinPair s.cfg.pattern .reverse)

/-! ## The listener and the interrupt -/

/-- LREG registers the tag under its key, replacing an earlier one, and changes nothing else; a second time it changes
nothing in LST (R120). The key keeps as many bits of the tag as CBW gives it, all of them at R4's width (the model's reading of
R4, log 5). -/
def Obligations.LregRegistersTag : Prop :=
  ∀ (s : State) (pin : Pin) (e : Edge) (tag : CbField),
    ∃ t u, exec (.lreg pin e.code tag) s = .next t ∧
      (∀ p k, t.lst.cb p k = if p = pin ∧ k = e then some (tag.toNat % 2 ^ s.cfg.cbw) else s.lst.cb p k) ∧ t.lst.active = s.lst.active ∧
      t.vt = s.vt ∧ t.mt = s.mt ∧ t.thr = s.thr ∧ t.rd = s.rd ∧ t.trace = s.trace ++ [.resp 0x0000] ∧
      s.sameOutside t ∧ s.usedDraws t 0 ∧
      exec (.lreg pin e.code tag) t = .next u ∧ u.lst = t.lst

/-- LACT and LDEACT set and clear LST.active, whatever it was, keep every registration and change nothing else (R121, R122). -/
def Obligations.LactAndLdeactSetActive : Prop :=
  ∀ s : State,
    exec .lact s = .next { s with lst := { s.lst with active := true }, trace := s.trace ++ [.resp 0x0000] } ∧
    exec .ldeact s = .next { s with lst := { s.lst with active := false }, trace := s.trace ++ [.resp 0x0000] }

/-- R145: while the listener is inactive an IRQ event does nothing at all and is not remembered. -/
def Obligations.IrqIgnoredWhileInactive : Prop :=
  ∀ (s : State) (rest : List Input), s.inputs = .irq :: rest → s.lst.active = false →
    step s = .next { s with inputs := rest }

/-- R141, R142, R61: an IRQ event does nothing while the listener is inactive; while it is active it reads the flag and the
captured-value register, in that order, and emits one event word for each registration that matches, pins ascending and the
specific edge before `either`; it changes nothing else. -/
def Obligations.IrqEmitsMatchingEvents : Prop :=
  ∀ (s : State) (rest : List Input), s.inputs = .irq :: rest →
    (s.lst.active = false → step s = .next { s with inputs := rest }) ∧
    (s.lst.active = true → ∃ evs : List EventWord,
      step s = .next { s with
        inputs := rest
        draws := s.draws.drop 2
        drawn := s.drawn + 2
        trace := s.trace ++ [.read s.cfg.intfAddr (s.draw 0), .read s.cfg.intcapAddr (s.draw 1)] ++ evs.map .event } ∧
      evs.Pairwise (fun e f => (e.extractLsb' 2 5).toNat < (f.extractLsb' 2 5).toNat) ∧
      ∀ e, e ∈ evs ↔ ∃ (pin : Pin) (k : Edge) (tag : CbTag), (s.draw 0).getLsbD pin.toNat = true ∧
        s.lst.cb pin k = some tag ∧ (k = .either ∨ k = if (s.draw 1).getLsbD pin.toNat then .rising else .falling) ∧
        e.extractLsb' 16 16 = BitVec.ofNat 16 tag ∧ e.extractLsb' 8 8 = s.draw 0 ∧ e.extractLsb' 7 1 = 0#1 ∧ e.extractLsb' 4 3 = pin ∧
        e.extractLsb' 2 2 = k.code ∧ e.extractLsb' 1 1 = BitVec.ofBool ((s.draw 1).getLsbD pin.toNat) ∧
        e.extractLsb' 0 1 = BitVec.ofBool ((s.draw 1).getLsbD pin.toNat))

/-- R144: the worked dispatch, with flag 0x09 and with flag 0x08. -/
def Obligations.WorkedDispatch : Prop :=
  ∀ (s : State) (ds : List Byte),
    s.lst = { ((((Listener.initial.register 3 .rising 0xBEEF).register 3 .either 0x0007).register 0 .falling 0x1111).register
      0 .either 0x2222).register 5 .rising 0x5555 with active := true } →
    s.inputs = [.irq] →
    (s.draws = 0x09 :: 0x08 :: ds → ∃ t, step s = .next t ∧ t.trace = s.trace ++
      [.read s.cfg.intfAddr 0x09, .read s.cfg.intcapAddr 0x08, .event 0x11110900, .event 0x22220908, .event 0xBEEF0937,
       .event 0x0007093B]) ∧
    (s.draws = 0x08 :: 0x08 :: ds → ∃ t, step s = .next t ∧ t.trace = s.trace ++
      [.read s.cfg.intfAddr 0x08, .read s.cfg.intcapAddr 0x08, .event 0xBEEF0837, .event 0x0007083B])

/-- 90_conflicts.md C7: nothing outside the listener reads LST. A command that is no listener command does the same whatever LST
holds, and leaves it alone. -/
def Obligations.OtherCommandsDoNotReadListener : Prop :=
  ∀ (i : Instr) (s t : State) (l : Listener), (∀ p e c, i ≠ .lreg p e c) → i ≠ .lact → i ≠ .ldeact →
    exec i s = .next t → exec i { s with lst := l } = .next { t with lst := l } ∧ t.lst = s.lst

/-! ## Reset and the outside -/

/-- R161, R162, R23: the machine right after reset, and what a RESET between commands does: the block's state takes the reset
values; no bus transaction, no response; RD is untouched. -/
def Obligations.ResetClearsBlock : Prop :=
  ((∀ h, State.reset.view? h = none) ∧ (∀ m, State.reset.motor? m = none) ∧ State.reset.thr = none ∧
    State.reset.lst.active = false ∧ (∀ p e, State.reset.lst.cb p e = none) ∧ State.reset.trace = []) ∧
  ∀ (s : State) (rest : List Input), s.inputs = .reset :: rest →
    ∃ t, step s = .next t ∧ (∀ h, t.view? h = none) ∧ (∀ m, t.motor? m = none) ∧ t.thr = none ∧ t.lst.active = false ∧
      (∀ p e, t.lst.cb p e = none) ∧ t.rd = s.rd ∧ t.trace = s.trace ∧ t.cfg = s.cfg ∧ t.time = s.time ∧
      t.inputs = rest ∧ s.usedDraws t 0

/-- R161: RESET in the middle of a command. For whichever `k` the environment picks (log 10), the first `k` of the command's bus
transactions are issued and no more; there is no response; the block's state takes the reset values; a set cut before its write
leaves every register as it was. -/
def Obligations.ResetAbandonsCommand : Prop :=
  ∀ (s full : State) (w : Word) (k : Nat) (rest : List Input), s.inputs = .resetInCommand w k :: rest →
    runCommand w { s with inputs := rest } = .next full →
    ∃ t os r, step s = .next t ∧ full.trace = s.trace ++ os ++ [.resp r] ∧ (∀ o ∈ os, o.onBus) ∧
      t.trace = s.trace ++ os.take k ∧ (∀ a, t.byte a = registersAfter s.byte (os.take k) a) ∧
      (∀ h, t.view? h = none) ∧ (∀ m, t.motor? m = none) ∧ t.thr = none ∧ t.lst = Listener.initial ∧
      t.cfg = s.cfg ∧ t.time = s.time ∧ t.inputs = rest ∧
      ((∃ h x, decode w = .ok (.bset h x) ∨ decode w = .ok (.nset h x)) → k ≤ 1 → ∀ a, t.byte a = s.byte a)

/-- R174, R116: after a reset no transition is too soon. -/
def Obligations.ResetForgetsThrottle : Prop :=
  ∀ (s : State) (i : Input) (rest : List Input), s.inputs = i :: rest → i.resets = true →
    ∀ t, step s = .next t → ∀ (u : State) (m : MotorId) (tgt : Mode), u.thr = t.thr →
      exec (Instr.mtrans m tgt) u ≠ .next (u.answersOnly 0x0300)

/-- The other inputs. TIME moves and nothing else does (R111). A write by another agent: to a volatile register, between
commands, it changes that register alone (R24); to any other register, between commands or inside a command or a dispatch, it is
refused, by the name `soleMasterBroken` where the platform promises SOLE_MASTER and `lostUpdateRace` where it does not (R33, R42).
That TIME and the address are taken in TW and AW bits is the model's choice (log 5), and so is that nothing changes with no input
waiting (log 2). -/
def Obligations.OutsideInputsAct : Prop :=
  ∀ (s : State) (rest : List Input),
    (∀ u, s.inputs = .time u :: rest → step s = .next { s with inputs := rest, time := u % 2 ^ s.cfg.tw }) ∧
    (∀ a b, s.inputs = .foreignWrite a b :: rest → isVolatile s.cfg (a % 2 ^ s.cfg.aw) = true →
      ∃ t, step s = .next t ∧ (∀ y, t.byte y = if y = a % 2 ^ s.cfg.aw then b else s.byte y) ∧ s.sameBlock t ∧
        t.cfg = s.cfg ∧ t.time = s.time ∧ t.inputs = rest ∧ t.trace = s.trace ∧ s.usedDraws t 0) ∧
    (∀ i a, s.inputs = i :: rest → i.foreignAddr? = some a → isVolatile s.cfg (a % 2 ^ s.cfg.aw) = false →
      step s = .refused (if s.cfg.soleMaster then .soleMasterBroken else .lostUpdateRace)) ∧
    (s.inputs = [] → step s = .next s)

/-! ## The bus -/

/-- One transaction: a write stores the whole byte at its address and nowhere else; a read of a non-volatile address returns
the byte the register holds, of a volatile address the environment's draw (R31, R32, R34). -/
def Obligations.ReadsAndWritesOfRegisters : Prop :=
  ∀ (s : State) (a : Addr) (b : Byte),
    (∀ y, (memWrite s a b).byte y = if y = a then b else s.byte y) ∧
    (memWrite s a b).trace = s.trace ++ [.write a b] ∧
    (isVolatile s.cfg a = false → memRead s a = (s.byte a, { s with trace := s.trace ++ [.read a (s.byte a)] })) ∧
    (∀ d ds, isVolatile s.cfg a = true → s.draws = d :: ds →
      memRead s a = (d, { s with draws := ds, drawn := s.drawn + 1, trace := s.trace ++ [.read a d] }))

/-- R24, R34, R36: over every step, each read of a non-volatile register returns the latest write to it, and the device's
non-volatile registers are what the transactions of the step make of them: nothing else changes them, unless the next input is
another master's write (R42). -/
def Obligations.RegistersFollowTheBus : Prop :=
  ∀ s t : State, s.soleMasterNext → step s = .next t →
    ∃ os, t.trace = s.trace ++ os ∧ readsLatestWrite s.cfg s.byte os ∧
      ∀ a, isVolatile s.cfg a = false → t.byte a = registersAfter s.byte os a

/-! ## Invariants -/

/-- The machine right after reset meets the invariant. -/
def Obligations.ResetMeetsInvariant : Prop := State.reset.Inv

/-- Every step from every state that meets the invariant keeps it: memory and the tables stay in canonical form and in range,
motors hold two bound bit views at different bits, no two motors share a handle, with OVERLAP_CHECK on no two owners share
a bit, and every stored address, tag and time is a number of its parameter's width (R4, R10, R12, R73, R90). -/
def Obligations.StepKeepsInvariant : Prop :=
  ∀ s t : State, s.Inv → step s = .next t → t.Inv ∧ t.cfg = s.cfg

/-- Nothing stops the machine: from every state that meets the invariant every step answers a next state, unless the next input
is a write by another master (R131, R138, R42). -/
def Obligations.MachineNeverStops : Prop :=
  ∀ s : State, s.Inv → s.soleMasterNext → ∃ t, step s = .next t

/-- A completed MBIND makes a motor whose non-volatile pins show its mode (R25, R90). -/
def Obligations.MbindMakesCoherentMotor : Prop :=
  ∀ (s t : State) (m : MotorId) (h1 h2 : Handle) (os : List Obs), exec (.mbind m h1 h2) s = .next t →
    t.trace = s.trace ++ os ++ [.resp 0x0000] → t.pinsSteady m → t.coherent m

/-- R25, with the clause its vector M4j adds (log 16): the pins of a motor show its mode after every command that writes through
no view covering a pin bit, the motor's own transitions apart. -/
def Obligations.CommandsKeepMotorCoherent : Prop :=
  ∀ (s t : State) (w : Word) (rest : List Input) (i : Instr) (m : MotorId), s.Inv → s.runsNext w rest →
    decode w = .ok i → s.coherent m → s.pinsSteady m → s.sparesPins m i → step s = .next t → t.coherent m

/-- The vector M4j of spec/95_test_vectors.md: an MBIND of another motor through an alias of a pin, a view that shares the
pin's bit, breaks coherence, though it is neither BSET nor NSET (log 16). -/
def Obligations.AliasedMbindBreaksCoherence : Prop :=
  ∃ (s t : State) (m n : MotorId) (h1 h2 : Handle) (mot : Motor) (v w : View), s.Inv ∧ s.coherent m ∧ s.pinsSteady m ∧
    s.hasMotor m mot ∧ s.view? h1 = some v ∧ s.view? mot.pin1 = some w ∧ h1 ≠ mot.pin1 ∧ v.sharesBit w ∧ n ≠ m ∧
    exec (.mbind n h1 h2) s = .next t ∧ ¬ t.coherent m

/-! ## Reset inside a dispatch -/

/-- RESET in the middle of a dispatch (the model's reading of R141, R161 and R162, log 11). The dispatch shows a prefix of the
reads and events it would have shown, of the length the environment picks; the block's state takes the reset values; no
register changes. -/
def Obligations.ResetAbandonsDispatch : Prop :=
  ∀ (s : State) (k : Nat) (rest : List Input), s.inputs = .resetInDispatch k :: rest →
    ∃ t full os, step s = .next t ∧ step { s with inputs := .irq :: rest } = .next full ∧ full.trace = s.trace ++ os ∧
      t.trace = s.trace ++ os.take k ∧ (∀ a, t.byte a = s.byte a) ∧
      (∀ h, t.view? h = none) ∧ (∀ m, t.motor? m = none) ∧ t.thr = none ∧ t.lst = Listener.initial ∧
      t.cfg = s.cfg ∧ t.time = s.time ∧ t.inputs = rest ∧ s.usedDraws t (if s.lst.active then min k 2 else 0)

/-! ## The environment inside a command or dispatch -/

/-- R24: a volatile register changed by the environment between two bus transactions of a command, or of a dispatch, after
whichever `k` of them the environment picks. The command or dispatch does what it does without the change, down to each byte it
reads, writes and answers, since its reads of the register are draws (R34). The register holds the new byte, or what a later
transaction of the command writes to it; every other register is as without the change. The address is taken in AW bits (the
model's choice, log 5). -/
def Obligations.VolatileRegisterChangesAmidTransactions : Prop :=
  (∀ (s full : State) (w : Word) (k : Nat) (a : Addr) (b : Byte) (rest : List Input),
    s.inputs = .foreignWriteInCommand w k a b :: rest → isVolatile s.cfg (a % 2 ^ s.cfg.aw) = true →
    runCommand w { s with inputs := rest } = .next full →
    ∃ t os r, step s = .next t ∧ full.trace = s.trace ++ os ++ [.resp r] ∧ (∀ o ∈ os, o.onBus) ∧
      t = { full with rd := t.rd } ∧
      (∀ y, y ≠ a % 2 ^ s.cfg.aw → t.byte y = full.byte y) ∧
      t.byte (a % 2 ^ s.cfg.aw) = registersAfter (fun _ => b) (os.drop k) (a % 2 ^ s.cfg.aw)) ∧
  ∀ (s : State) (k : Nat) (a : Addr) (b : Byte) (rest : List Input),
    s.inputs = .foreignWriteInDispatch k a b :: rest → isVolatile s.cfg (a % 2 ^ s.cfg.aw) = true →
    ∃ t full, step s = .next t ∧ step { s with inputs := .irq :: rest } = .next full ∧ t = { full with rd := t.rd } ∧
      ∀ y, t.byte y = if y = a % 2 ^ s.cfg.aw then b else s.byte y
end

