-- ==== Sys2Proof/Laws/Bits.lean ====
section
/-! SUPPORT. The byte arithmetic of a view, bit by bit (R11, R74 to R77). -/

namespace Sys2Proof.Machine

theorem bitByte_getLsbD (x : Bool) (k : Nat) : (bitByte x).getLsbD k = (decide (k = 0) && x) := by
  rcases k with _ | k <;> cases x <;> simp [bitByte]

theorem View.ones_getLsbD_bit {v : View} {sel : BitVec 3} (h : v.kind = .bit sel) (k : Nat) :
    v.ones.getLsbD k = decide (k = 0) := by
  rcases k with _ | k <;> simp [View.ones, h]

theorem nibbleOnes_getLsbD (k : Nat) : (0x0F#8).getLsbD k = decide (k < 4) := by
  by_cases h : k < 8
  · interval_cases k <;> rfl
  · rw [BitVec.getLsbD_of_ge _ _ (by omega)]; simp; omega

theorem View.ones_getLsbD_nibble {v : View} {pos : NibblePos} (h : v.kind = .nibble pos) (k : Nat) :
    v.ones.getLsbD k = decide (k < 4) := by
  simp only [View.ones, h]; exact nibbleOnes_getLsbD k

theorem View.flip_getLsbD (v : View) (k : Nat) : v.flip.getLsbD k = (v.inv && v.ones.getLsbD k) := by
  cases h : v.inv <;> simp [View.flip, h]

/-- The mask covers the view's bits and no other (R11). -/
theorem View.mask_getLsbD (v : View) {k : Nat} (hk : k < 8) : v.mask.getLsbD k = true ↔ v.covers k := by
  rcases hv : v.kind with sel | pos
  · have hs := sel.isLt
    simp only [View.mask, View.off, hv, View.covers, BitVec.getLsbD_shiftLeft, View.ones_getLsbD_bit hv]
    simp; omega
  · simp only [View.mask, View.off, hv, View.covers, BitVec.getLsbD_shiftLeft, View.ones_getLsbD_nibble hv]
    cases pos <;> simp <;> omega

/-- The byte written, bit by bit: the view's bits from the value, every other bit from the byte read. -/
theorem View.merge_getLsbD (v : View) (old x : Byte) {k : Nat} (hk : k < 8) :
    (v.merge old x).getLsbD k =
      (old.getLsbD k && !v.mask.getLsbD k ||
        (decide (v.off ≤ k) && (x.getLsbD (k - v.off) != (v.inv && v.ones.getLsbD (k - v.off))))) := by
  simp only [View.merge, BitVec.getLsbD_or, BitVec.getLsbD_and, BitVec.getLsbD_not, BitVec.getLsbD_shiftLeft,
    BitVec.getLsbD_xor, View.flip_getLsbD, hk, decide_true, Bool.true_and]
  by_cases h : v.off ≤ k
  · have : ¬ k < v.off := by omega
    simp [h, this]
  · have : k < v.off := by omega
    simp [h, this]

theorem View.extract_getLsbD (v : View) (b : Byte) (k : Nat) :
    (v.extract b).getLsbD k = ((b.getLsbD (v.off + k) && v.ones.getLsbD k) != (v.inv && v.ones.getLsbD k)) := by
  simp [View.extract, View.flip_getLsbD]

/-- A value that BSET accepts is a logical bit. -/
theorem eq_bitByte_of_le_one {v : Byte} (h : v.toNat ≤ 1) : v = bitByte (decide (v = 1)) := by
  have : v = 0 ∨ v = 1 := by
    rcases Nat.le_one_iff_eq_zero_or_eq_one.1 h with h | h
    · exact .inl (BitVec.eq_of_toNat_eq (by simpa using h))
    · exact .inr (BitVec.eq_of_toNat_eq (by simpa using h))
  rcases this with rfl | rfl <;> rfl

/-- `BitSet` (R75). -/
theorem View.merge_bit {v : View} {sel : BitVec 3} (h : v.kind = .bit sel) (old : Byte) (x : Bool) :
    bitReplaced old (v.merge old (bitByte x)) sel v.inv x := by
  intro k hk
  have hs := sel.isLt
  have hm : v.mask.getLsbD k = decide (k = sel.toNat) := by
    have := v.mask_getLsbD hk
    simp only [View.covers, h] at this
    rw [Bool.eq_iff_iff]; simpa using this
  have ho : v.off = sel.toNat := by simp [View.off, h]
  rw [v.merge_getLsbD _ _ hk, hm, ho, View.ones_getLsbD_bit h, bitByte_getLsbD]
  by_cases he : k = sel.toNat
  · subst he; simp
  · by_cases hle : sel.toNat ≤ k
    · have : k - sel.toNat ≠ 0 := by omega
      simp [he, this]
    · simp [he, hle]

/-- `BitGet` (R74). -/
theorem View.extract_bit {v : View} {sel : BitVec 3} (h : v.kind = .bit sel) (b : Byte) :
    v.extract b = bitByte (b.getLsbD sel.toNat != v.inv) := by
  apply BitVec.eq_of_getLsbD_eq
  intro k _
  have ho : v.off = sel.toNat := by simp [View.off, h]
  rw [v.extract_getLsbD, ho, View.ones_getLsbD_bit h, bitByte_getLsbD]
  rcases k with _ | k <;> simp

theorem View.mask_lower {v : View} (h : v.kind = .nibble .lower) {k : Nat} (hk : k < 8) :
    v.mask.getLsbD k = decide (k < 4) := by
  have := v.mask_getLsbD hk
  simp only [View.covers, h] at this
  rw [Bool.eq_iff_iff]; simpa using this

theorem View.mask_upper {v : View} (h : v.kind = .nibble .upper) {k : Nat} (hk : k < 8) :
    v.mask.getLsbD k = decide (4 ≤ k) := by
  have := v.mask_getLsbD hk
  simp only [View.covers, h, hk, and_true] at this
  rw [Bool.eq_iff_iff]; simpa using this

theorem getLsbD_of_le_fifteen {x : Byte} (hx : x.toNat ≤ 15) {k : Nat} (hk : 4 ≤ k) : x.getLsbD k = false := by
  rw [← BitVec.testBit_toNat]
  exact Nat.testBit_lt_two_pow (lt_of_lt_of_le (by omega : x.toNat < 2 ^ 4) (Nat.pow_le_pow_right (by omega) hk))

/-- `NibSet` (R77). -/
theorem View.merge_nibble {v : View} {pos : NibblePos} (h : v.kind = .nibble pos) (old x : Byte) (hx : x.toNat ≤ 15) :
    nibbleReplaced old (v.merge old x) pos v.inv x := by
  intro k hk
  have hk8 : k < 8 := by omega
  have hk4 : k + 4 < 8 := by omega
  cases pos with
  | lower =>
    have ho : v.off = 0 := by simp [View.off, h]
    constructor
    · simp [v.merge_getLsbD _ _ hk8, View.mask_lower h hk8, ho, View.ones_getLsbD_nibble h, hk]
    · simp [v.merge_getLsbD _ _ hk4, View.mask_lower h hk4, ho, View.ones_getLsbD_nibble h, getLsbD_of_le_fifteen hx]
  | upper =>
    have ho : v.off = 4 := by simp [View.off, h]
    have : ¬ 4 ≤ k := by omega
    constructor
    · simp [v.merge_getLsbD _ _ hk4, View.mask_upper h hk4, ho, View.ones_getLsbD_nibble h, hk]
    · simp [v.merge_getLsbD _ _ hk8, View.mask_upper h hk8, ho, this]

/-- What a set preserves (R83): no bit outside the mask changes, for a value the view can hold. -/
theorem View.merge_outside (v : View) (old x : Byte) (hx : x.toNat ≤ v.ones.toNat) {k : Nat} (hk : k < 8)
    (hc : ¬ v.covers k) : (v.merge old x).getLsbD k = old.getLsbD k := by
  rcases hv : v.kind with sel | pos
  · have h1 : x.toNat ≤ 1 := by simpa [View.ones, hv] using hx
    rw [eq_bitByte_of_le_one h1, View.merge_bit hv old _ k hk]
    simp [View.covers, hv] at hc
    simp [hc]
  · have h15 : x.toNat ≤ 15 := by simpa [View.ones, hv] using hx
    have hn := View.merge_nibble hv old x h15
    cases pos with
    | lower =>
      simp only [View.covers, hv] at hc
      have := (hn (k - 4) (by omega)).2
      rwa [Nat.sub_add_cancel (by omega)] at this
    | upper =>
      simp only [View.covers, hv] at hc
      exact (hn k (by omega)).2

/-- `NibGet` (R76). -/
theorem View.extract_nibble {v : View} {pos : NibblePos} (h : v.kind = .nibble pos) (b : Byte) (k : Nat) :
    (v.extract b).getLsbD k = (decide (k < 4) && (b.getLsbD ((if pos = .lower then 0 else 4) + k) != v.inv)) := by
  have ho : v.off = if pos = .lower then 0 else 4 := by cases pos <;> simp [View.off, h]
  rw [v.extract_getLsbD, ho, View.ones_getLsbD_nibble h]
  by_cases hk : k < 4 <;> simp [hk]

end Sys2Proof.Machine
end

