-- ==== Sys2Proof/Laws/Decode.lean ====
section
/-! SUPPORT. The opcode map has no two rows for one word, and the fields of an encoded word read back bit by bit. -/

namespace Sys2Proof

/-- The rows differ somewhere both masks look: no word agrees with both (R52). -/
def OpcodeRow.apart (r r' : OpcodeRow) : Bool := r.mask &&& r'.mask &&& (r.pattern ^^^ r'.pattern) != 0

theorem opcodeRows_apart : opcodeRows.Pairwise fun r r' => r.apart r' = true := by decide

theorem OpcodeRow.not_both {r r' : OpcodeRow} (h : r.apart r' = true) {w : Word} (hr : r.selects w = true) :
    r'.selects w = false := by
  simp only [OpcodeRow.selects, Bool.and_eq_true, beq_iff_eq] at hr
  rw [← Bool.not_eq_true]
  intro hr'
  simp only [OpcodeRow.selects, Bool.and_eq_true, beq_iff_eq] at hr'
  simp only [OpcodeRow.apart, bne_iff_ne] at h
  apply h
  rw [← hr.1, ← hr'.1]
  apply BitVec.eq_of_getLsbD_eq
  intro i _
  simp only [BitVec.getLsbD_and, BitVec.getLsbD_xor]
  cases r.mask.getLsbD i <;> cases r'.mask.getLsbD i <;> cases w.getLsbD i <;> simp

/-- The row that selects a word is the row the decoder reads it by. -/
theorem decode_of_row {n : Nat} {r : OpcodeRow} (hn : opcodeRows[n]? = some r) {w : Word} (hr : r.selects w = true) :
    decode w = .ok (r.read w) := by
  have hf : opcodeRows.find? (·.selects w) = some r := by
    obtain ⟨hlt, hget⟩ := List.getElem?_eq_some_iff.1 hn
    rw [List.find?_eq_some_iff_getElem]
    refine ⟨hr, n, hlt, hget, fun j hj => ?_⟩
    have := List.pairwise_iff_getElem.1 opcodeRows_apart j n (by omega) hlt hj
    rw [hget] at this
    by_contra hs
    simp only [Bool.not_eq_true', Bool.not_eq_false] at hs
    have h2 := OpcodeRow.not_both this hs
    rw [hr] at h2
    cases h2
  simp [decode, hf]

/-- What the decoder reads it reads by some row. -/
theorem row_of_decode {w : Word} {i : Instr} (h : decode w = .ok i) :
    ∃ r ∈ opcodeRows, r.selects w = true ∧ i = r.read w := by
  unfold decode at h
  split at h
  case h_1 r hf => exact ⟨r, List.mem_of_find?_eq_some hf, by simpa using List.find?_some hf, (Except.ok.inj h).symm⟩
  case h_2 => cases h

/-- A word is refused exactly if no row selects it (R53). -/
theorem decode_error_iff (w : Word) : (∃ e, decode w = .error e) ↔ ∀ r ∈ opcodeRows, r.selects w = false := by
  unfold decode
  split
  case h_1 r hf =>
    constructor
    · rintro ⟨e, he⟩; cases he
    · intro h
      have hs : r.selects w = true := by simpa using List.find?_some hf
      rw [h r (List.mem_of_find?_eq_some hf)] at hs
      cases hs
  case h_2 hf => simpa using List.find?_eq_none.1 hf

end Sys2Proof
end

