-- ==== Sys2Proof/Laws/Memory.lean ====
section
/-! SUPPORT. Tables and memory: an entry put is the entry found, no other entry changes, the canonical form is kept. -/

namespace Sys2Proof.Machine

variable {α : Type}

@[simp] theorem Table.at?_nil (a : Nat) : Table.at? ([] : Table α) a = none := rfl

theorem Table.at?_put (t : Table α) (a b : Nat) (x : α) :
    Table.at? (Table.put t a x) b = if b = a then some x else Table.at? t b := by
  induction t with
  | nil => simp [Table.put, Table.at?]
  | cons c t ih =>
    obtain ⟨k, y⟩ := c
    by_cases hlt : a < k
    · simp [Table.put, hlt, Table.at?]
    · by_cases heq : a = k
      · subst heq
        by_cases hb : b = a <;> simp [Table.put, Table.at?, hb]
      · by_cases hb : b = k
        · subst hb
          have : b ≠ a := fun h => heq h.symm
          simp [Table.put, hlt, heq, Table.at?, this]
        · simp [Table.put, hlt, heq, Table.at?, hb, ih]

@[simp] theorem Table.at?_put_same (t : Table α) (a : Nat) (x : α) : Table.at? (Table.put t a x) a = some x := by
  simp [Table.at?_put]

theorem Table.at?_put_other (t : Table α) {a b : Nat} (h : b ≠ a) (x : α) :
    Table.at? (Table.put t a x) b = Table.at? t b := by
  simp [Table.at?_put, h]

/-- The canonical form as a proposition. -/
theorem Table.wf_iff (n : Nat) (t : Table α) :
    Table.wf n t = true ↔ (t.Pairwise fun c d => c.1 < d.1) ∧ ∀ c ∈ t, c.1 < n := by
  simp [Table.wf]

@[simp] theorem Table.wf_nil (n : Nat) : Table.wf n ([] : Table α) = true := rfl

/-- The keys of a table after a put: the old ones and the new one. -/
theorem Table.mem_put {t : Table α} {a : Nat} {x : α} {c : Nat × α} (h : c ∈ Table.put t a x) : c = (a, x) ∨ c ∈ t := by
  induction t with
  | nil => simpa [Table.put] using h
  | cons d t ih =>
    obtain ⟨k, y⟩ := d
    unfold Table.put at h
    split at h
    · simpa using h
    · split at h
      · rcases List.mem_cons.1 h with h | h
        · exact .inl h
        · exact .inr (List.mem_cons_of_mem _ h)
      · rcases List.mem_cons.1 h with h | h
        · exact .inr (by simp [h])
        · exact (ih h).imp id (List.mem_cons_of_mem _)

/-- A put with a key in range keeps the canonical form. -/
theorem Table.wf_put {n : Nat} {t : Table α} (h : Table.wf n t = true) {a : Nat} (ha : a < n) (x : α) :
    Table.wf n (Table.put t a x) = true := by
  rw [Table.wf_iff] at h ⊢
  refine ⟨?_, fun c hc => ?_⟩
  · obtain ⟨hp, -⟩ := h
    induction t with
    | nil => simp [Table.put]
    | cons d t ih =>
      obtain ⟨k, y⟩ := d
      obtain ⟨hd, ht⟩ := List.pairwise_cons.1 hp
      unfold Table.put
      split
      case isTrue hlt =>
        refine List.pairwise_cons.2 ⟨fun c hc => ?_, hp⟩
        rcases List.mem_cons.1 hc with rfl | hc
        · exact hlt
        · exact hlt.trans (hd c hc)
      case isFalse hlt =>
        split
        case isTrue heq => subst heq; exact List.pairwise_cons.2 ⟨hd, ht⟩
        case isFalse hne =>
          refine List.pairwise_cons.2 ⟨fun c hc => ?_, ih ht⟩
          rcases Table.mem_put hc with rfl | hc
          · show k < a; omega
          · exact hd c hc
  · rcases Table.mem_put hc with rfl | hc
    · exact ha
    · exact h.2 c hc

/-- In canonical form a listed key is below the bound. -/
theorem Table.lt_of_at? {n : Nat} {t : Table α} (h : Table.wf n t = true) {a : Nat} {x : α}
    (hx : Table.at? t a = some x) : a < n := by
  have hb := ((Table.wf_iff n t).1 h).2
  clear h
  induction t with
  | nil => simp at hx
  | cons d t ih =>
    obtain ⟨k, y⟩ := d
    unfold Table.at? at hx
    split at hx
    case isTrue heq => subst heq; exact hb _ List.mem_cons_self
    case isFalse => exact ih hx fun c hc => hb c (List.mem_cons_of_mem _ hc)

/-! Memory -/

theorem Memory.byte_write (m : Memory) (a x : Addr) (b : Byte) :
    Memory.byte (Memory.write m a b) x = if x = a then b else Memory.byte m x := by
  by_cases h : x = a
  · simp [Memory.byte, Memory.known, Memory.write, h]
  · simp [Memory.byte, Memory.known, Memory.write, h, Table.at?_put_other _ h]

/-- A write at an address of the space keeps the canonical form. -/
theorem Memory.wf_write {aw : Nat} {m : Memory} (h : Memory.wf aw m = true) {a : Addr} (ha : a < 2 ^ aw) (b : Byte) :
    Memory.wf aw (Memory.write m a b) = true := Table.wf_put h ha b

@[simp] theorem Memory.wf_nil (aw : Nat) : Memory.wf aw [] = true := rfl

end Sys2Proof.Machine
end

