-- ==== Sys2Proof/Laws/State.lean ====
section
/-! SUPPORT. What each update of State does to each field, so that no later proof unfolds a record update. -/

namespace Sys2Proof.Machine

variable (s : State)

/-! `emit` -/

@[simp] theorem State.emit_cfg (o : Obs) : (s.emit o).cfg = s.cfg := rfl
@[simp] theorem State.emit_vt (o : Obs) : (s.emit o).vt = s.vt := rfl
@[simp] theorem State.emit_mt (o : Obs) : (s.emit o).mt = s.mt := rfl
@[simp] theorem State.emit_thr (o : Obs) : (s.emit o).thr = s.thr := rfl
@[simp] theorem State.emit_lst (o : Obs) : (s.emit o).lst = s.lst := rfl
@[simp] theorem State.emit_rd (o : Obs) : (s.emit o).rd = s.rd := rfl
@[simp] theorem State.emit_time (o : Obs) : (s.emit o).time = s.time := rfl
@[simp] theorem State.emit_inputs (o : Obs) : (s.emit o).inputs = s.inputs := rfl
@[simp] theorem State.emit_draws (o : Obs) : (s.emit o).draws = s.draws := rfl
@[simp] theorem State.emit_drawn (o : Obs) : (s.emit o).drawn = s.drawn := rfl
@[simp] theorem State.emit_trace (o : Obs) : (s.emit o).trace = s.trace ++ [o] := rfl

/-! `emitAll` -/

@[simp] theorem State.emitAll_cfg (os : List Obs) : (s.emitAll os).cfg = s.cfg := rfl
@[simp] theorem State.emitAll_vt (os : List Obs) : (s.emitAll os).vt = s.vt := rfl
@[simp] theorem State.emitAll_mt (os : List Obs) : (s.emitAll os).mt = s.mt := rfl
@[simp] theorem State.emitAll_thr (os : List Obs) : (s.emitAll os).thr = s.thr := rfl
@[simp] theorem State.emitAll_lst (os : List Obs) : (s.emitAll os).lst = s.lst := rfl
@[simp] theorem State.emitAll_rd (os : List Obs) : (s.emitAll os).rd = s.rd := rfl
@[simp] theorem State.emitAll_time (os : List Obs) : (s.emitAll os).time = s.time := rfl
@[simp] theorem State.emitAll_inputs (os : List Obs) : (s.emitAll os).inputs = s.inputs := rfl
@[simp] theorem State.emitAll_draws (os : List Obs) : (s.emitAll os).draws = s.draws := rfl
@[simp] theorem State.emitAll_drawn (os : List Obs) : (s.emitAll os).drawn = s.drawn := rfl
@[simp] theorem State.emitAll_trace (os : List Obs) : (s.emitAll os).trace = s.trace ++ os := rfl

/-! `withView` -/

@[simp] theorem State.withView_cfg (h : Handle) (v : View) : (s.withView h v).cfg = s.cfg := rfl
@[simp] theorem State.withView_vt (h : Handle) (v : View) : (s.withView h v).vt = Table.put s.vt h.toNat v := rfl
@[simp] theorem State.withView_mt (h : Handle) (v : View) : (s.withView h v).mt = s.mt := rfl
@[simp] theorem State.withView_thr (h : Handle) (v : View) : (s.withView h v).thr = s.thr := rfl
@[simp] theorem State.withView_lst (h : Handle) (v : View) : (s.withView h v).lst = s.lst := rfl
@[simp] theorem State.withView_rd (h : Handle) (v : View) : (s.withView h v).rd = s.rd := rfl
@[simp] theorem State.withView_time (h : Handle) (v : View) : (s.withView h v).time = s.time := rfl
@[simp] theorem State.withView_inputs (h : Handle) (v : View) : (s.withView h v).inputs = s.inputs := rfl
@[simp] theorem State.withView_draws (h : Handle) (v : View) : (s.withView h v).draws = s.draws := rfl
@[simp] theorem State.withView_drawn (h : Handle) (v : View) : (s.withView h v).drawn = s.drawn := rfl
@[simp] theorem State.withView_trace (h : Handle) (v : View) : (s.withView h v).trace = s.trace := rfl

/-! `withMotor` -/

@[simp] theorem State.withMotor_cfg (m : MotorId) (mot : Motor) : (s.withMotor m mot).cfg = s.cfg := rfl
@[simp] theorem State.withMotor_vt (m : MotorId) (mot : Motor) : (s.withMotor m mot).vt = s.vt := rfl
@[simp] theorem State.withMotor_mt (m : MotorId) (mot : Motor) : (s.withMotor m mot).mt = Table.put s.mt m.toNat mot := rfl
@[simp] theorem State.withMotor_thr (m : MotorId) (mot : Motor) : (s.withMotor m mot).thr = s.thr := rfl
@[simp] theorem State.withMotor_lst (m : MotorId) (mot : Motor) : (s.withMotor m mot).lst = s.lst := rfl
@[simp] theorem State.withMotor_rd (m : MotorId) (mot : Motor) : (s.withMotor m mot).rd = s.rd := rfl
@[simp] theorem State.withMotor_time (m : MotorId) (mot : Motor) : (s.withMotor m mot).time = s.time := rfl
@[simp] theorem State.withMotor_inputs (m : MotorId) (mot : Motor) : (s.withMotor m mot).inputs = s.inputs := rfl
@[simp] theorem State.withMotor_draws (m : MotorId) (mot : Motor) : (s.withMotor m mot).draws = s.draws := rfl
@[simp] theorem State.withMotor_drawn (m : MotorId) (mot : Motor) : (s.withMotor m mot).drawn = s.drawn := rfl
@[simp] theorem State.withMotor_trace (m : MotorId) (mot : Motor) : (s.withMotor m mot).trace = s.trace := rfl

/-! `withThr` -/

@[simp] theorem State.withThr_cfg (t : Nat) : (s.withThr t).cfg = s.cfg := rfl
@[simp] theorem State.withThr_vt (t : Nat) : (s.withThr t).vt = s.vt := rfl
@[simp] theorem State.withThr_mt (t : Nat) : (s.withThr t).mt = s.mt := rfl
@[simp] theorem State.withThr_thr (t : Nat) : (s.withThr t).thr = some t := rfl
@[simp] theorem State.withThr_lst (t : Nat) : (s.withThr t).lst = s.lst := rfl
@[simp] theorem State.withThr_rd (t : Nat) : (s.withThr t).rd = s.rd := rfl
@[simp] theorem State.withThr_time (t : Nat) : (s.withThr t).time = s.time := rfl
@[simp] theorem State.withThr_inputs (t : Nat) : (s.withThr t).inputs = s.inputs := rfl
@[simp] theorem State.withThr_draws (t : Nat) : (s.withThr t).draws = s.draws := rfl
@[simp] theorem State.withThr_drawn (t : Nat) : (s.withThr t).drawn = s.drawn := rfl
@[simp] theorem State.withThr_trace (t : Nat) : (s.withThr t).trace = s.trace := rfl

/-! `withActive` -/

@[simp] theorem State.withActive_cfg (b : Bool) : (s.withActive b).cfg = s.cfg := rfl
@[simp] theorem State.withActive_vt (b : Bool) : (s.withActive b).vt = s.vt := rfl
@[simp] theorem State.withActive_mt (b : Bool) : (s.withActive b).mt = s.mt := rfl
@[simp] theorem State.withActive_thr (b : Bool) : (s.withActive b).thr = s.thr := rfl
@[simp] theorem State.withActive_lst (b : Bool) : (s.withActive b).lst = { s.lst with active := b } := rfl
@[simp] theorem State.withActive_rd (b : Bool) : (s.withActive b).rd = s.rd := rfl
@[simp] theorem State.withActive_time (b : Bool) : (s.withActive b).time = s.time := rfl
@[simp] theorem State.withActive_inputs (b : Bool) : (s.withActive b).inputs = s.inputs := rfl
@[simp] theorem State.withActive_draws (b : Bool) : (s.withActive b).draws = s.draws := rfl
@[simp] theorem State.withActive_drawn (b : Bool) : (s.withActive b).drawn = s.drawn := rfl
@[simp] theorem State.withActive_trace (b : Bool) : (s.withActive b).trace = s.trace := rfl

/-! `withReg` -/

@[simp] theorem State.withReg_cfg (p : Pin) (e : Edge) (c : CbTag) : (s.withReg p e c).cfg = s.cfg := rfl
@[simp] theorem State.withReg_vt (p : Pin) (e : Edge) (c : CbTag) : (s.withReg p e c).vt = s.vt := rfl
@[simp] theorem State.withReg_mt (p : Pin) (e : Edge) (c : CbTag) : (s.withReg p e c).mt = s.mt := rfl
@[simp] theorem State.withReg_thr (p : Pin) (e : Edge) (c : CbTag) : (s.withReg p e c).thr = s.thr := rfl
@[simp] theorem State.withReg_lst (p : Pin) (e : Edge) (c : CbTag) : (s.withReg p e c).lst = s.lst.register p e c := rfl
@[simp] theorem State.withReg_rd (p : Pin) (e : Edge) (c : CbTag) : (s.withReg p e c).rd = s.rd := rfl
@[simp] theorem State.withReg_time (p : Pin) (e : Edge) (c : CbTag) : (s.withReg p e c).time = s.time := rfl
@[simp] theorem State.withReg_inputs (p : Pin) (e : Edge) (c : CbTag) : (s.withReg p e c).inputs = s.inputs := rfl
@[simp] theorem State.withReg_draws (p : Pin) (e : Edge) (c : CbTag) : (s.withReg p e c).draws = s.draws := rfl
@[simp] theorem State.withReg_drawn (p : Pin) (e : Edge) (c : CbTag) : (s.withReg p e c).drawn = s.drawn := rfl
@[simp] theorem State.withReg_trace (p : Pin) (e : Edge) (c : CbTag) : (s.withReg p e c).trace = s.trace := rfl

/-! `withByte` -/

@[simp] theorem State.withByte_cfg (a : Addr) (b : Byte) : (s.withByte a b).cfg = s.cfg := rfl
@[simp] theorem State.withByte_vt (a : Addr) (b : Byte) : (s.withByte a b).vt = s.vt := rfl
@[simp] theorem State.withByte_mt (a : Addr) (b : Byte) : (s.withByte a b).mt = s.mt := rfl
@[simp] theorem State.withByte_thr (a : Addr) (b : Byte) : (s.withByte a b).thr = s.thr := rfl
@[simp] theorem State.withByte_lst (a : Addr) (b : Byte) : (s.withByte a b).lst = s.lst := rfl
@[simp] theorem State.withByte_rd (a : Addr) (b : Byte) : (s.withByte a b).rd = Memory.write s.rd a b := rfl
@[simp] theorem State.withByte_time (a : Addr) (b : Byte) : (s.withByte a b).time = s.time := rfl
@[simp] theorem State.withByte_inputs (a : Addr) (b : Byte) : (s.withByte a b).inputs = s.inputs := rfl
@[simp] theorem State.withByte_draws (a : Addr) (b : Byte) : (s.withByte a b).draws = s.draws := rfl
@[simp] theorem State.withByte_drawn (a : Addr) (b : Byte) : (s.withByte a b).drawn = s.drawn := rfl
@[simp] theorem State.withByte_trace (a : Addr) (b : Byte) : (s.withByte a b).trace = s.trace := rfl

/-! `withRd` -/

@[simp] theorem State.withRd_cfg (m : Memory) : (s.withRd m).cfg = s.cfg := rfl
@[simp] theorem State.withRd_vt (m : Memory) : (s.withRd m).vt = s.vt := rfl
@[simp] theorem State.withRd_mt (m : Memory) : (s.withRd m).mt = s.mt := rfl
@[simp] theorem State.withRd_thr (m : Memory) : (s.withRd m).thr = s.thr := rfl
@[simp] theorem State.withRd_lst (m : Memory) : (s.withRd m).lst = s.lst := rfl
@[simp] theorem State.withRd_rd (m : Memory) : (s.withRd m).rd = m := rfl
@[simp] theorem State.withRd_time (m : Memory) : (s.withRd m).time = s.time := rfl
@[simp] theorem State.withRd_inputs (m : Memory) : (s.withRd m).inputs = s.inputs := rfl
@[simp] theorem State.withRd_draws (m : Memory) : (s.withRd m).draws = s.draws := rfl
@[simp] theorem State.withRd_drawn (m : Memory) : (s.withRd m).drawn = s.drawn := rfl
@[simp] theorem State.withRd_trace (m : Memory) : (s.withRd m).trace = s.trace := rfl

/-! `withTime` -/

@[simp] theorem State.withTime_cfg (t : Nat) : (s.withTime t).cfg = s.cfg := rfl
@[simp] theorem State.withTime_vt (t : Nat) : (s.withTime t).vt = s.vt := rfl
@[simp] theorem State.withTime_mt (t : Nat) : (s.withTime t).mt = s.mt := rfl
@[simp] theorem State.withTime_thr (t : Nat) : (s.withTime t).thr = s.thr := rfl
@[simp] theorem State.withTime_lst (t : Nat) : (s.withTime t).lst = s.lst := rfl
@[simp] theorem State.withTime_rd (t : Nat) : (s.withTime t).rd = s.rd := rfl
@[simp] theorem State.withTime_time (t : Nat) : (s.withTime t).time = t := rfl
@[simp] theorem State.withTime_inputs (t : Nat) : (s.withTime t).inputs = s.inputs := rfl
@[simp] theorem State.withTime_draws (t : Nat) : (s.withTime t).draws = s.draws := rfl
@[simp] theorem State.withTime_drawn (t : Nat) : (s.withTime t).drawn = s.drawn := rfl
@[simp] theorem State.withTime_trace (t : Nat) : (s.withTime t).trace = s.trace := rfl

/-! `withInputs` -/

@[simp] theorem State.withInputs_cfg (is : List Input) : (s.withInputs is).cfg = s.cfg := rfl
@[simp] theorem State.withInputs_vt (is : List Input) : (s.withInputs is).vt = s.vt := rfl
@[simp] theorem State.withInputs_mt (is : List Input) : (s.withInputs is).mt = s.mt := rfl
@[simp] theorem State.withInputs_thr (is : List Input) : (s.withInputs is).thr = s.thr := rfl
@[simp] theorem State.withInputs_lst (is : List Input) : (s.withInputs is).lst = s.lst := rfl
@[simp] theorem State.withInputs_rd (is : List Input) : (s.withInputs is).rd = s.rd := rfl
@[simp] theorem State.withInputs_time (is : List Input) : (s.withInputs is).time = s.time := rfl
@[simp] theorem State.withInputs_inputs (is : List Input) : (s.withInputs is).inputs = is := rfl
@[simp] theorem State.withInputs_draws (is : List Input) : (s.withInputs is).draws = s.draws := rfl
@[simp] theorem State.withInputs_drawn (is : List Input) : (s.withInputs is).drawn = s.drawn := rfl
@[simp] theorem State.withInputs_trace (is : List Input) : (s.withInputs is).trace = s.trace := rfl

/-! `drop` -/

@[simp] theorem State.drop_cfg (n : Nat) : (s.drop n).cfg = s.cfg := rfl
@[simp] theorem State.drop_vt (n : Nat) : (s.drop n).vt = s.vt := rfl
@[simp] theorem State.drop_mt (n : Nat) : (s.drop n).mt = s.mt := rfl
@[simp] theorem State.drop_thr (n : Nat) : (s.drop n).thr = s.thr := rfl
@[simp] theorem State.drop_lst (n : Nat) : (s.drop n).lst = s.lst := rfl
@[simp] theorem State.drop_rd (n : Nat) : (s.drop n).rd = s.rd := rfl
@[simp] theorem State.drop_time (n : Nat) : (s.drop n).time = s.time := rfl
@[simp] theorem State.drop_inputs (n : Nat) : (s.drop n).inputs = s.inputs := rfl
@[simp] theorem State.drop_draws (n : Nat) : (s.drop n).draws = s.draws.drop n := rfl
@[simp] theorem State.drop_drawn (n : Nat) : (s.drop n).drawn = s.drawn + n := rfl
@[simp] theorem State.drop_trace (n : Nat) : (s.drop n).trace = s.trace := rfl

/-! A write by another agent inside a command or dispatch -/

section ChangedAmid
variable (k : Nat) (a : Addr) (b : Byte) (full : State)

@[simp] theorem changedAmid_cfg : (changedAmid k a b s full).cfg = full.cfg := rfl
@[simp] theorem changedAmid_vt : (changedAmid k a b s full).vt = full.vt := rfl
@[simp] theorem changedAmid_mt : (changedAmid k a b s full).mt = full.mt := rfl
@[simp] theorem changedAmid_thr : (changedAmid k a b s full).thr = full.thr := rfl
@[simp] theorem changedAmid_lst : (changedAmid k a b s full).lst = full.lst := rfl
@[simp] theorem changedAmid_time : (changedAmid k a b s full).time = full.time := rfl
@[simp] theorem changedAmid_inputs : (changedAmid k a b s full).inputs = full.inputs := rfl
@[simp] theorem changedAmid_draws : (changedAmid k a b s full).draws = full.draws := rfl
@[simp] theorem changedAmid_drawn : (changedAmid k a b s full).drawn = full.drawn := rfl
@[simp] theorem changedAmid_trace : (changedAmid k a b s full).trace = full.trace := rfl

end ChangedAmid

/-! RESET -/

@[simp] theorem resetBlock_cfg : (resetBlock s).cfg = s.cfg := rfl
@[simp] theorem resetBlock_vt : (resetBlock s).vt = [] := rfl
@[simp] theorem resetBlock_mt : (resetBlock s).mt = [] := rfl
@[simp] theorem resetBlock_thr : (resetBlock s).thr = none := rfl
@[simp] theorem resetBlock_lst : (resetBlock s).lst = Listener.initial := rfl
@[simp] theorem resetBlock_rd : (resetBlock s).rd = s.rd := rfl
@[simp] theorem resetBlock_time : (resetBlock s).time = s.time := rfl
@[simp] theorem resetBlock_inputs : (resetBlock s).inputs = s.inputs := rfl
@[simp] theorem resetBlock_draws : (resetBlock s).draws = s.draws := rfl
@[simp] theorem resetBlock_drawn : (resetBlock s).drawn = s.drawn := rfl
@[simp] theorem resetBlock_trace : (resetBlock s).trace = s.trace := rfl

/-! Record updates of the inputs and of the trace, spelled with the named updates -/

theorem State.withInputs_eq (is : List Input) : s.withInputs is = { s with inputs := is } := rfl

theorem State.answers_eq (o : Obs) : s.emit o = { s with trace := s.trace ++ [o] } := rfl

@[simp] theorem State.emitAll_nil : s.emitAll [] = s := by simp [State.emitAll]

theorem State.emit_eq_emitAll (o : Obs) : s.emit o = s.emitAll [o] := rfl

@[simp] theorem State.emitAll_emitAll (os ps : List Obs) : (s.emitAll os).emitAll ps = s.emitAll (os ++ ps) := by
  simp [State.emitAll]

end Sys2Proof.Machine
end

