-- ==== Sys2Proof/Laws/Ops.lean ====
section
/-! SUPPORT. One lemma for each shared operation: the bus primitives, a get, a set, the two pin sets, the throttle. -/

namespace Sys2Proof.Machine

variable (s : State)

/-! What the lookups see after an update -/

@[simp] theorem State.emit_view? (o : Obs) (g : Handle) : (s.emit o).view? g = s.view? g := rfl
@[simp] theorem State.emit_motor? (o : Obs) (k : MotorId) : (s.emit o).motor? k = s.motor? k := rfl
@[simp] theorem State.emit_byte (o : Obs) (x : Addr) : (s.emit o).byte x = s.byte x := rfl
@[simp] theorem State.emitAll_view? (os : List Obs) (g : Handle) : (s.emitAll os).view? g = s.view? g := rfl
@[simp] theorem State.emitAll_motor? (os : List Obs) (k : MotorId) : (s.emitAll os).motor? k = s.motor? k := rfl
@[simp] theorem State.emitAll_byte (os : List Obs) (x : Addr) : (s.emitAll os).byte x = s.byte x := rfl
@[simp] theorem State.withView_motor? (h : Handle) (v : View) (k : MotorId) : (s.withView h v).motor? k = s.motor? k := rfl
@[simp] theorem State.withView_byte (h : Handle) (v : View) (x : Addr) : (s.withView h v).byte x = s.byte x := rfl
@[simp] theorem State.withMotor_view? (m : MotorId) (mot : Motor) (g : Handle) : (s.withMotor m mot).view? g = s.view? g := rfl
@[simp] theorem State.withMotor_byte (m : MotorId) (mot : Motor) (x : Addr) : (s.withMotor m mot).byte x = s.byte x := rfl
@[simp] theorem State.withThr_view? (t : Nat) (g : Handle) : (s.withThr t).view? g = s.view? g := rfl
@[simp] theorem State.withThr_motor? (t : Nat) (k : MotorId) : (s.withThr t).motor? k = s.motor? k := rfl
@[simp] theorem State.withThr_byte (t : Nat) (x : Addr) : (s.withThr t).byte x = s.byte x := rfl
@[simp] theorem State.withActive_view? (b : Bool) (g : Handle) : (s.withActive b).view? g = s.view? g := rfl
@[simp] theorem State.withActive_motor? (b : Bool) (k : MotorId) : (s.withActive b).motor? k = s.motor? k := rfl
@[simp] theorem State.withActive_byte (b : Bool) (x : Addr) : (s.withActive b).byte x = s.byte x := rfl
@[simp] theorem State.withReg_view? (p : Pin) (e : Edge) (c : CbTag) (g : Handle) : (s.withReg p e c).view? g = s.view? g := rfl
@[simp] theorem State.withReg_motor? (p : Pin) (e : Edge) (c : CbTag) (k : MotorId) : (s.withReg p e c).motor? k = s.motor? k := rfl
@[simp] theorem State.withReg_byte (p : Pin) (e : Edge) (c : CbTag) (x : Addr) : (s.withReg p e c).byte x = s.byte x := rfl
@[simp] theorem State.withByte_view? (a : Addr) (b : Byte) (g : Handle) : (s.withByte a b).view? g = s.view? g := rfl
@[simp] theorem State.withByte_motor? (a : Addr) (b : Byte) (k : MotorId) : (s.withByte a b).motor? k = s.motor? k := rfl
@[simp] theorem State.withTime_view? (t : Nat) (g : Handle) : (s.withTime t).view? g = s.view? g := rfl
@[simp] theorem State.withTime_motor? (t : Nat) (k : MotorId) : (s.withTime t).motor? k = s.motor? k := rfl
@[simp] theorem State.withTime_byte (t : Nat) (x : Addr) : (s.withTime t).byte x = s.byte x := rfl
@[simp] theorem State.withInputs_view? (is : List Input) (g : Handle) : (s.withInputs is).view? g = s.view? g := rfl
@[simp] theorem State.withInputs_motor? (is : List Input) (k : MotorId) : (s.withInputs is).motor? k = s.motor? k := rfl
@[simp] theorem State.withInputs_byte (is : List Input) (x : Addr) : (s.withInputs is).byte x = s.byte x := rfl
@[simp] theorem State.drop_view? (n : Nat) (g : Handle) : (s.drop n).view? g = s.view? g := rfl
@[simp] theorem State.drop_motor? (n : Nat) (k : MotorId) : (s.drop n).motor? k = s.motor? k := rfl
@[simp] theorem State.drop_byte (n : Nat) (x : Addr) : (s.drop n).byte x = s.byte x := rfl

theorem State.withView_view? (h g : Handle) (v : View) :
    (s.withView h v).view? g = if g = h then some v else s.view? g := by
  by_cases e : g = h
  · simp [State.view?, e]
  · have : g.toNat ≠ h.toNat := fun x => e (BitVec.eq_of_toNat_eq x)
    simp [State.view?, e, Table.at?_put_other _ this]

theorem State.withMotor_motor? (m k : MotorId) (mot : Motor) :
    (s.withMotor m mot).motor? k = if k = m then some mot else s.motor? k := by
  by_cases e : k = m
  · simp [State.motor?, e]
  · have : k.toNat ≠ m.toNat := fun x => e (BitVec.eq_of_toNat_eq x)
    simp [State.motor?, e, Table.at?_put_other _ this]

theorem State.withByte_byte (a x : Addr) (b : Byte) :
    (s.withByte a b).byte x = if x = a then b else s.byte x := Memory.byte_write _ _ _ _

/-! Widths (R4) -/

theorem lowBits_lt (w n : Nat) : lowBits w n < 2 ^ w := Nat.mod_lt _ (Nat.two_pow_pos w)

/-- A number that fits is kept whole: with R4's widths every operand field does. -/
theorem lowBits_of_lt {w n : Nat} (h : n < 2 ^ w) : lowBits w n = n := Nat.mod_eq_of_lt h

theorem addrOf_lt (c : Config) (f : AddrField) : addrOf c f < 2 ^ c.aw := lowBits_lt _ _

theorem ownOf_lt (c : Config) (f : OwnField) : ownOf c f < 2 ^ c.ownw := lowBits_lt _ _

theorem cbOf_lt (c : Config) (f : CbField) : cbOf c f < 2 ^ c.cbw := lowBits_lt _ _

/-! The registrations (R16, R23) -/

@[simp] theorem Listener.initial_cb (p : Pin) (e : Edge) : Listener.initial.cb p e = none := by
  cases e <;> simp [Listener.cb, Listener.initial, PinRegs.cb, PinRegs.empty]

/-- A registration gives its own key a tag and leaves every other key alone (R120). -/
theorem Listener.register_cb (l : Listener) (pin p : Pin) (e k : Edge) (tag : CbTag) :
    (l.register pin e tag).cb p k = if p = pin ∧ k = e then some tag else l.cb p k := by
  unfold Listener.cb Listener.register
  by_cases hp : p = pin
  · subst hp
    simp only [Vector.getElem_set_self]
    cases e <;> cases k <;> simp [PinRegs.set, PinRegs.cb]
  · have : pin.toNat ≠ p.toNat := fun x => hp (BitVec.eq_of_toNat_eq x.symm)
    simp [Vector.getElem_set_ne _ _ this, hp]

/-! A read -/

theorem State.nextDraw_eq : s.nextDraw = s.draw 0 := rfl

theorem State.busByte_eq (a : Addr) : s.busByte a = s.firstRead a := rfl

theorem State.afterRead_eq (a : Addr) :
    s.afterRead a = (s.drop (s.drawsAt a)).emit (.read a (s.firstRead a)) := by
  unfold State.afterRead State.drawsAt
  rw [State.busByte_eq]
  split <;> simp [State.drop]

@[simp] theorem State.afterRead_cfg (a : Addr) : (s.afterRead a).cfg = s.cfg := by simp [State.afterRead_eq]
@[simp] theorem State.afterRead_vt (a : Addr) : (s.afterRead a).vt = s.vt := by simp [State.afterRead_eq]
@[simp] theorem State.afterRead_mt (a : Addr) : (s.afterRead a).mt = s.mt := by simp [State.afterRead_eq]
@[simp] theorem State.afterRead_thr (a : Addr) : (s.afterRead a).thr = s.thr := by simp [State.afterRead_eq]
@[simp] theorem State.afterRead_lst (a : Addr) : (s.afterRead a).lst = s.lst := by simp [State.afterRead_eq]
@[simp] theorem State.afterRead_time (a : Addr) : (s.afterRead a).time = s.time := by simp [State.afterRead_eq]
@[simp] theorem State.afterRead_inputs (a : Addr) : (s.afterRead a).inputs = s.inputs := by simp [State.afterRead_eq]
@[simp] theorem State.afterRead_rd (a : Addr) : (s.afterRead a).rd = s.rd := by simp [State.afterRead_eq]

@[simp] theorem State.afterRead_draws (a : Addr) : (s.afterRead a).draws = s.draws.drop (s.drawsAt a) := by
  simp [State.afterRead_eq]

@[simp] theorem State.afterRead_drawn (a : Addr) : (s.afterRead a).drawn = s.drawn + s.drawsAt a := by
  simp [State.afterRead_eq]

@[simp] theorem State.afterRead_trace (a : Addr) :
    (s.afterRead a).trace = s.trace ++ [.read a (s.firstRead a)] := by simp [State.afterRead_eq]

/-! A get (R74, R76) -/

theorem viewGet_eq (v : View) : viewGet s v = (v.extract (s.firstRead v.addr), s.afterRead v.addr) := rfl

/-! A set (R75, R77, R45) -/

/-- The byte a set writes. -/
def setByte (v : View) (x : Byte) : Byte := v.merge (s.firstRead v.addr) x

theorem viewSet_eq (v : View) (x : Byte) :
    viewSet s v x = ((s.afterRead v.addr).withByte v.addr (setByte s v x)).emit (.write v.addr (setByte s v x)) := rfl

section ViewSet
variable (v : View) (x : Byte)

@[simp] theorem viewSet_cfg : (viewSet s v x).cfg = s.cfg := by simp [viewSet_eq]
@[simp] theorem viewSet_vt : (viewSet s v x).vt = s.vt := by simp [viewSet_eq]
@[simp] theorem viewSet_mt : (viewSet s v x).mt = s.mt := by simp [viewSet_eq]
@[simp] theorem viewSet_thr : (viewSet s v x).thr = s.thr := by simp [viewSet_eq]
@[simp] theorem viewSet_lst : (viewSet s v x).lst = s.lst := by simp [viewSet_eq]
@[simp] theorem viewSet_time : (viewSet s v x).time = s.time := by simp [viewSet_eq]
@[simp] theorem viewSet_inputs : (viewSet s v x).inputs = s.inputs := by simp [viewSet_eq]

@[simp] theorem viewSet_rd : (viewSet s v x).rd = Memory.write s.rd v.addr (setByte s v x) := by simp [viewSet_eq]

@[simp] theorem viewSet_draws : (viewSet s v x).draws = s.draws.drop (s.drawsAt v.addr) := by simp [viewSet_eq]

@[simp] theorem viewSet_drawn : (viewSet s v x).drawn = s.drawn + s.drawsAt v.addr := by simp [viewSet_eq]

@[simp] theorem viewSet_trace : (viewSet s v x).trace =
    s.trace ++ [.read v.addr (s.firstRead v.addr), .write v.addr (setByte s v x)] := by simp [viewSet_eq]

@[simp] theorem viewSet_view? (g : Handle) : (viewSet s v x).view? g = s.view? g := by simp [State.view?]

@[simp] theorem viewSet_motor? (k : MotorId) : (viewSet s v x).motor? k = s.motor? k := by simp [State.motor?]

theorem viewSet_byte (y : Addr) :
    (viewSet s v x).byte y = if y = v.addr then setByte s v x else s.byte y := by
  simp only [State.byte, viewSet_rd, Memory.byte_write]

end ViewSet

theorem State.drawsAt_of_cfg {s t : State} (h : t.cfg = s.cfg) (a : Addr) : t.drawsAt a = s.drawsAt a := by
  simp [State.drawsAt, h]

/-- A read after a set (R34): the second read of a command. -/
theorem viewSet_firstRead (v : View) (x : Byte) (a : Addr) :
    (viewSet s v x).firstRead a = s.secondRead v.addr (setByte s v x) a := by
  unfold State.firstRead State.secondRead
  simp only [viewSet_cfg, viewSet_byte]
  split
  · simp [State.draw]
  · rfl

/-! Two sets, pin1 first (R90, R91) -/

section SetPins
variable (v1 v2 : View) (mode : Mode)

/-- The byte the first set writes. -/
def pinByte1 : Byte := setByte s v1 (bitByte (patternPins s.cfg.pattern mode).1)

/-- The byte the second set reads. -/
def pinRead2 : Byte := s.secondRead v1.addr (pinByte1 s v1 mode) v2.addr

/-- The byte the second set writes. -/
def pinByte2 : Byte := v2.merge (pinRead2 s v1 v2 mode) (bitByte (patternPins s.cfg.pattern mode).2)

theorem setPins_eq : setPins s v1 v2 mode =
    viewSet (viewSet s v1 (bitByte (patternPins s.cfg.pattern mode).1)) v2 (bitByte (patternPins s.cfg.pattern mode).2) :=
  rfl

theorem setByte_second : setByte (viewSet s v1 (bitByte (patternPins s.cfg.pattern mode).1)) v2
    (bitByte (patternPins s.cfg.pattern mode).2) = pinByte2 s v1 v2 mode := by
  unfold setByte
  rw [viewSet_firstRead]
  rfl

@[simp] theorem setPins_cfg : (setPins s v1 v2 mode).cfg = s.cfg := by simp [setPins_eq]
@[simp] theorem setPins_vt : (setPins s v1 v2 mode).vt = s.vt := by simp [setPins_eq]
@[simp] theorem setPins_mt : (setPins s v1 v2 mode).mt = s.mt := by simp [setPins_eq]
@[simp] theorem setPins_thr : (setPins s v1 v2 mode).thr = s.thr := by simp [setPins_eq]
@[simp] theorem setPins_lst : (setPins s v1 v2 mode).lst = s.lst := by simp [setPins_eq]
@[simp] theorem setPins_time : (setPins s v1 v2 mode).time = s.time := by simp [setPins_eq]
@[simp] theorem setPins_inputs : (setPins s v1 v2 mode).inputs = s.inputs := by simp [setPins_eq]

@[simp] theorem setPins_rd : (setPins s v1 v2 mode).rd =
    Memory.write (Memory.write s.rd v1.addr (pinByte1 s v1 mode)) v2.addr (pinByte2 s v1 v2 mode) := by
  rw [setPins_eq, viewSet_rd, setByte_second, viewSet_rd]; rfl

@[simp] theorem setPins_draws : (setPins s v1 v2 mode).draws = s.draws.drop (s.drawsAt v1.addr + s.drawsAt v2.addr) := by
  simp [setPins_eq, State.drawsAt]

@[simp] theorem setPins_drawn : (setPins s v1 v2 mode).drawn = s.drawn + (s.drawsAt v1.addr + s.drawsAt v2.addr) := by
  simp [setPins_eq, State.drawsAt, Nat.add_assoc]

@[simp] theorem setPins_trace : (setPins s v1 v2 mode).trace = s.trace ++
    [.read v1.addr (s.firstRead v1.addr), .write v1.addr (pinByte1 s v1 mode),
     .read v2.addr (pinRead2 s v1 v2 mode), .write v2.addr (pinByte2 s v1 v2 mode)] := by
  rw [setPins_eq, viewSet_trace, setByte_second, viewSet_trace, viewSet_firstRead]
  simp [pinByte1, pinRead2]

@[simp] theorem setPins_view? (g : Handle) : (setPins s v1 v2 mode).view? g = s.view? g := by simp [State.view?]

@[simp] theorem setPins_motor? (k : MotorId) : (setPins s v1 v2 mode).motor? k = s.motor? k := by simp [State.motor?]

theorem setPins_byte (y : Addr) : (setPins s v1 v2 mode).byte y =
    if y = v2.addr then pinByte2 s v1 v2 mode else if y = v1.addr then pinByte1 s v1 mode else s.byte y := by
  simp only [State.byte, setPins_rd, Memory.byte_write]

/-- The first byte carries the pattern's pin1 and preserves every other bit of the byte read (R75). -/
theorem pinByte1_replaced {v1 : View} {b1 : BitVec 3} (h : v1.kind = .bit b1) :
    bitReplaced (s.firstRead v1.addr) (pinByte1 s v1 mode) b1 v1.inv (patternPins s.cfg.pattern mode).1 :=
  View.merge_bit h _ _

theorem pinByte2_replaced {v2 : View} {b2 : BitVec 3} (h : v2.kind = .bit b2) :
    bitReplaced (pinRead2 s v1 v2 mode) (pinByte2 s v1 v2 mode) b2 v2.inv (patternPins s.cfg.pattern mode).2 :=
  View.merge_bit h _ _

end SetPins

theorem patternPins_eq (p : Pattern) (mode : Mode) : patternPins p mode = pinPair p mode := by
  cases p <;> cases mode <;> rfl

/-! The throttle (R110) -/

theorem windowOpen_iff : windowOpen (windowTicks s.cfg) s.thr s.time = true ↔ s.windowElapsed := by
  unfold windowOpen State.windowElapsed windowTicks
  cases s.thr <;> simp

/-- The window has elapsed: the time is recorded (R110). -/
theorem throttle_open {s : State} (h : s.windowElapsed) :
    throttleCheckAndRecord s (sampleTime s) = some (s.withThr s.time) :=
  if_pos ((windowOpen_iff s).2 h)

/-- It has not: too soon, nothing recorded (R110). -/
theorem throttle_shut {s : State} (h : ¬ s.windowElapsed) : throttleCheckAndRecord s (sampleTime s) = none :=
  if_neg (mt (windowOpen_iff s).1 h)

/-! Handles (R72, R91) -/

theorem checkBitView_eq_some {s : State} {h : Handle} {v : View} :
    checkBitView s h = some v ↔ ∃ sel, s.hasBitView h v sel := by
  unfold checkBitView State.hasBitView State.viewInRange
  by_cases hr : h.toNat < s.cfg.nviews
  · simp only [hr, decide_true, if_true, true_and]
    rcases hv : s.view? h with _ | w
    · simp
    · rcases hk : w.kind with sel | pos
      · simp only [Option.filter, View.isBit, hk, if_true, Option.some.injEq]
        constructor
        · rintro rfl; exact ⟨sel, rfl, hk⟩
        · rintro ⟨_, rfl, -⟩; rfl
      · simp only [Option.filter, View.isBit, hk, Option.some.injEq]
        constructor
        · intro h; simp at h
        · rintro ⟨_, rfl, h⟩; simp [hk] at h
  · simp [hr]

theorem checkNibbleView_eq_some {s : State} {h : Handle} {v : View} :
    checkNibbleView s h = some v ↔ ∃ pos, s.hasNibbleView h v pos := by
  unfold checkNibbleView State.hasNibbleView State.viewInRange
  by_cases hr : h.toNat < s.cfg.nviews
  · simp only [hr, decide_true, if_true, true_and]
    rcases hv : s.view? h with _ | w
    · simp
    · rcases hk : w.kind with sel | pos
      · simp only [Option.filter, View.isNibble, View.isBit, hk, Option.some.injEq]
        constructor
        · intro h; simp at h
        · rintro ⟨_, rfl, h⟩; simp [hk] at h
      · simp only [Option.filter, View.isNibble, View.isBit, hk, Option.some.injEq]
        constructor
        · intro h; exact ⟨pos, by simpa using h, by simp at h; rw [← h]; exact hk⟩
        · rintro ⟨_, rfl, -⟩; simp
  · simp [hr]

theorem checkMotor_eq_some {s : State} {m : MotorId} {mot : Motor} :
    checkMotor s m = some mot ↔ s.hasMotor m mot := by
  unfold checkMotor State.hasMotor State.motorInRange
  by_cases hr : m.toNat < s.cfg.nmotors <;> simp [hr]

theorem checkBitView_of {s : State} {h : Handle} {v : View} {sel : BitVec 3} (hv : s.hasBitView h v sel) :
    checkBitView s h = some v := checkBitView_eq_some.2 ⟨sel, hv⟩

theorem checkNibbleView_of {s : State} {h : Handle} {v : View} {pos : NibblePos} (hv : s.hasNibbleView h v pos) :
    checkNibbleView s h = some v := checkNibbleView_eq_some.2 ⟨pos, hv⟩

/-- Two bit views share a physical bit exactly if they are at one address and one bit (R90). -/
theorem View.sameBit_iff {v1 v2 : View} {b1 b2 : BitVec 3} (h1 : v1.kind = .bit b1) (h2 : v2.kind = .bit b2) :
    v1.sameBit v2 = true ↔ v1.sharesBit v2 := by
  simp only [View.sameBit, View.sharesBit, View.covers, h1, h2, Bool.and_eq_true, beq_iff_eq, ViewKind.bit.injEq]
  constructor
  · rintro ⟨ha, rfl⟩; exact ⟨ha, _, rfl, rfl⟩
  · rintro ⟨ha, k, e1, e2⟩; exact ⟨ha, BitVec.eq_of_toNat_eq (e1.symm.trans e2)⟩

/-- The masks meet exactly if some bit is covered by both (R73, R11). -/
theorem View.mask_meet (v w : View) : (v.mask &&& w.mask) ≠ 0 ↔ ∃ k, v.covers k ∧ w.covers k := by
  have h8 : ∀ (u : View) k, u.covers k → k < 8 := by
    intro u k hk
    rcases hu : u.kind with sel | pos
    · have := sel.isLt; simp only [View.covers, hu] at hk; omega
    · cases pos <;> simp only [View.covers, hu] at hk <;> omega
  constructor
  · intro h
    by_contra hno
    apply h
    apply BitVec.eq_of_getLsbD_eq
    intro k hk
    have h0 : (0 : Byte).getLsbD k = false := by simp
    rw [h0, BitVec.getLsbD_and, Bool.and_eq_false_iff, ← Bool.not_eq_true, ← Bool.not_eq_true,
      v.mask_getLsbD hk, w.mask_getLsbD hk, ← not_and_or]
    exact fun hc => hno ⟨k, hc⟩
  · rintro ⟨k, hv, hw⟩ h
    have hk := h8 v k hv
    have := congrArg (fun b => BitVec.getLsbD b k) h
    simp [(v.mask_getLsbD hk).2 hv, (w.mask_getLsbD hk).2 hw] at this

theorem View.clashes_iff (v g : View) : v.clashes g = true ↔ g.sharesBit v ∧ g.own ≠ v.own := by
  unfold View.clashes View.sharesBit
  simp only [Bool.and_eq_true, beq_iff_eq, bne_iff_ne, View.mask_meet]

/-! What the checks of a bind and of MBIND say when they pass -/

/-- No bound motor holds the handle (R90). -/
theorem handleHeld_eq_false {s : State} {h : Handle} (hh : handleHeld s h = false) {k : MotorId} {mot : Motor}
    (hm : s.hasMotor k mot) : mot.pin1 ≠ h ∧ mot.pin2 ≠ h := by
  unfold handleHeld at hh
  rw [List.any_eq_false] at hh
  have := hh k.toNat (List.mem_range.2 hm.1)
  have hk : Table.at? s.mt k.toNat = some mot := hm.2
  simpa [hk] using this

/-- No bound view of another owner shares a bit (R73). -/
theorem overlaps_eq_false {s : State} {v : View} (hh : overlaps s v = false) {g : Handle} {w : View}
    (hr : g.toNat < s.cfg.nviews) (hw : s.view? g = some w) (hs : w.sharesBit v) : w.own = v.own := by
  unfold overlaps at hh
  rw [List.any_eq_false] at hh
  have := hh g.toNat (List.mem_range.2 hr)
  have hk : Table.at? s.vt g.toNat = some w := hw
  simp only [hk, Option.any_some] at this
  rw [View.clashes_iff] at this
  by_contra hne
  exact this ⟨hs, hne⟩

/-- The conditions under which a bind goes on (R70, R71, R73). -/
theorem bindRefused_eq_false {s : State} {h : Handle} {v : View} (hb : bindRefused s h v = false) :
    h.toNat < s.cfg.nviews ∧ s.view? h = none ∧
      (s.cfg.overlapCheck = true → ∀ g w, g.toNat < s.cfg.nviews → s.view? g = some w → w.sharesBit v → w.own = v.own) := by
  simp only [bindRefused, Bool.or_eq_false_iff, Bool.not_eq_false', Option.isSome_eq_false_iff,
    Option.isNone_iff_eq_none] at hb
  exact ⟨by simpa [State.viewInRange] using hb.1.1, hb.1.2,
    fun ho _ _ hr hw hs => overlaps_eq_false (by simpa [ho] using hb.2) hr hw hs⟩

/-- The conditions under which MBIND goes on to drive the pins (R90). -/
theorem checkPins_cases {s : State} {m : MotorId} {h1 h2 : Handle} {v1 v2 : View}
    (h : checkPins s m h1 h2 = some (v1, v2)) :
    m.toNat < s.cfg.nmotors ∧ s.motor? m = none ∧ h1 ≠ h2 ∧ handleHeld s h1 = false ∧ handleHeld s h2 = false ∧
      ∃ b1 b2, s.hasBitView h1 v1 b1 ∧ s.hasBitView h2 v2 b2 ∧ ¬ v1.sharesBit v2 := by
  unfold checkPins at h
  split at h
  case isFalse => cases h
  case isTrue hc =>
    simp only [Bool.and_eq_true, Option.isNone_iff_eq_none, bne_iff_ne, Bool.not_eq_true', State.motorInRange,
      decide_eq_true_eq] at hc
    split at h
    case h_2 => cases h
    case h_1 w1 w2 e1 e2 =>
      split at h
      case isTrue => cases h
      case isFalse hs =>
        obtain ⟨rfl, rfl⟩ : w1 = v1 ∧ w2 = v2 := by simpa using h
        obtain ⟨b1, hb1⟩ := checkBitView_eq_some.1 e1
        obtain ⟨b2, hb2⟩ := checkBitView_eq_some.1 e2
        refine ⟨hc.1.1.1.1, hc.1.1.1.2, hc.1.1.2, hc.1.2, hc.2, b1, b2, hb1, hb2, ?_⟩
        rwa [← View.sameBit_iff hb1.2.2 hb2.2.2]

theorem View.sharesBit_symm {v w : View} (h : v.sharesBit w) : w.sharesBit v :=
  ⟨h.1.symm, h.2.imp fun _ => And.symm⟩

end Sys2Proof.Machine
end

