-- ==== Sys2Proof/Laws/Exec.lean ====
section
/-! SUPPORT. Everything a command can do, said once: `exec_cases`. Later proofs cite it instead of unfolding the meanings. -/

namespace Sys2Proof.Machine

/-- Respond and nothing more. -/
def answered (e : Status) (value : Byte) (s : State) : State := s.emit (.resp (responseWord e value))

theorem respond_eq (e : Status) (value : Byte) (s : State) : respond e value s = .next (answered e value s) := rfl

theorem raise_eq (e : Status) (s : State) : raise e s = .next (answered e 0 s) := rfl

theorem answered_eq (e : Status) (s : State) (value : Byte) : answered e value s = s.answersOnly (responseWord e value) := rfl

/-- The statuses a command can end with other than OK (R130). -/
inductive MayRaise : Instr → Status → Prop where
  | vbit {h addr bit inv own} : MayRaise (.vbit h addr bit inv own) .configError
  | vnib {h addr pos inv own} : MayRaise (.vnib h addr pos inv own) .configError
  | mbind {m h1 h2} : MayRaise (.mbind m h1 h2) .configError
  | bget {h} : MayRaise (.bget h) .configError
  | nget {h} : MayRaise (.nget h) .configError
  | bset {h v} : MayRaise (.bset h v) .configError
  | bsetDomain {h v} : MayRaise (.bset h v) .domainError
  | nset {h v} : MayRaise (.nset h v) .configError
  | nsetDomain {h v} : MayRaise (.nset h v) .domainError
  | motor {m tgt} : MayRaise (Instr.mtrans m tgt) .configError
  | forward {m} : MayRaise (.forward m) .forbiddenTransition
  | reverse {m} : MayRaise (.reverse m) .forbiddenTransition
  | early {m tgt} : MayRaise (Instr.mtrans m tgt) .tooSoon
  | mmode {m} : MayRaise (.mmode m) .configError
  | lreg {pin cb} : MayRaise (.lreg pin 3#2 cb) .illegalCommand

/-- What a command does when it completes with OK, with the conditions under which it does. -/
inductive Effect (s : State) : Instr → State → Prop where
  | vbit {h addr bit inv own} (ok : bindRefused s h (bitViewOf s.cfg addr bit inv own) = false) :
    Effect s (.vbit h addr bit inv own)
      (answered .ok 0 (s.withView h (bitViewOf s.cfg addr bit inv own)))
  | vnib {h addr pos inv own} (ok : bindRefused s h (nibbleViewOf s.cfg addr pos inv own) = false) :
    Effect s (.vnib h addr pos inv own)
      (answered .ok 0 (s.withView h (nibbleViewOf s.cfg addr pos inv own)))
  | bget {h v sel} (hv : s.hasBitView h v sel) :
    Effect s (.bget h) (answered .ok (v.extract (s.firstRead v.addr)) (s.afterRead v.addr))
  | nget {h v pos} (hv : s.hasNibbleView h v pos) :
    Effect s (.nget h) (answered .ok (v.extract (s.firstRead v.addr)) (s.afterRead v.addr))
  | bset {h v sel x} (hv : s.hasBitView h v sel) (hx : x.toNat ≤ 1) :
    Effect s (.bset h x) (answered .ok 0 (viewSet s v x))
  | nset {h v pos x} (hv : s.hasNibbleView h v pos) (hx : x.toNat ≤ 15) :
    Effect s (.nset h x) (answered .ok 0 (viewSet s v x))
  | mbind {m h1 h2 v1 v2} (ok : checkPins s m h1 h2 = some (v1, v2)) :
    Effect s (.mbind m h1 h2)
      (answered .ok 0 ((setPins s v1 v2 .brake).withMotor m { pin1 := h1, pin2 := h2, mode := .brake }))
  | drive {m tgt mot v1 v2 b1 b2} (hm : s.hasMotor m mot) (allowed : forbidden mot.mode tgt = false)
      (window : s.windowElapsed) (hv1 : s.hasBitView mot.pin1 v1 b1) (hv2 : s.hasBitView mot.pin2 v2 b2) :
    Effect s (Instr.mtrans m tgt)
      (answered .ok 0 ((setPins (s.withThr s.time) v1 v2 tgt).withMotor m { mot with mode := tgt }))
  | mmode {m mot} (hm : s.hasMotor m mot) : Effect s (.mmode m) (answered .ok (mot.mode.code.setWidth 8) s)
  | lreg {pin edge cb e} (he : Edge.ofCode edge = some e) :
    Effect s (.lreg pin edge cb) (answered .ok 0 (s.withReg pin e (cbOf s.cfg cb)))
  | lact : Effect s .lact (answered .ok 0 (s.withActive true))
  | ldeact : Effect s .ldeact (answered .ok 0 (s.withActive false))

theorem forbidden_iff (cur tgt : Mode) : forbidden cur tgt = true ↔ forbiddenPair cur tgt := by
  cases cur <;> cases tgt <;> simp [forbidden, forbiddenPair]

theorem Edge.ofCode_eq_none {b : BitVec 2} : Edge.ofCode b = none ↔ b = 3#2 := by
  revert b; decide

/-- `exec` of a transition command is `transition` (R92 to R95). -/
theorem exec_mtrans (m : MotorId) (tgt : Mode) (s : State) : exec (Instr.mtrans m tgt) s = transition m tgt s := by
  cases tgt <;> rfl

theorem hasBitView_withThr {s : State} {t : Nat} {h : Handle} {v : View} {b : BitVec 3} :
    (s.withThr t).hasBitView h v b ↔ s.hasBitView h v b := Iff.rfl

/-- The steps of a transition (R91), in order, with what each answers. -/
theorem transition_cases {m : MotorId} {tgt : Mode} {s t : State} (h : transition m tgt s = .next t) :
    (checkMotor s m = none ∧ t = answered .configError 0 s) ∨
    ∃ mot, s.hasMotor m mot ∧
      ((forbiddenPair mot.mode tgt ∧ t = answered .forbiddenTransition 0 s) ∨
       (¬ forbiddenPair mot.mode tgt ∧ ¬ s.windowElapsed ∧ t = answered .tooSoon 0 s) ∨
       (¬ forbiddenPair mot.mode tgt ∧ s.windowElapsed ∧
          ∃ v1 v2 b1 b2, s.hasBitView mot.pin1 v1 b1 ∧ s.hasBitView mot.pin2 v2 b2 ∧
            t = answered .ok 0 ((setPins (s.withThr s.time) v1 v2 tgt).withMotor m { mot with mode := tgt }))) := by
  unfold transition at h
  split at h
  case h_1 hm => exact .inl ⟨hm, by simpa [raise_eq] using h.symm⟩
  case h_2 mot hm =>
    refine .inr ⟨mot, checkMotor_eq_some.1 hm, ?_⟩
    split at h
    case isTrue hf => exact .inl ⟨(forbidden_iff _ _).1 hf, by simpa [raise_eq] using h.symm⟩
    case isFalse hf =>
      rw [forbidden_iff] at hf
      by_cases hw : s.windowElapsed
      · rw [throttle_open hw] at h
        refine .inr (.inr ⟨hf, hw, ?_⟩)
        simp only [drivePins] at h
        split at h
        case h_1 v1 v2 h1 h2 =>
          obtain ⟨b1, hb1⟩ := checkBitView_eq_some.1 h1
          obtain ⟨b2, hb2⟩ := checkBitView_eq_some.1 h2
          exact ⟨v1, v2, b1, b2, hb1, hb2, by simpa [respond_eq] using h.symm⟩
        case h_2 => cases h
      · rw [throttle_shut hw] at h
        exact .inr (.inl ⟨hf, hw, by simpa [raise_eq] using h.symm⟩)

/-- A get or a get-like command (R78, R80). -/
theorem getThrough_cases {c : Option View} {s t : State} (h : getThrough c s = .next t) :
    (c = none ∧ t = answered .configError 0 s) ∨
    ∃ v, c = some v ∧ t = answered .ok (v.extract (s.firstRead v.addr)) (s.afterRead v.addr) := by
  unfold getThrough at h
  split at h
  · exact .inl ⟨rfl, by simpa [raise_eq] using h.symm⟩
  · exact .inr ⟨_, rfl, by simpa [respond_eq, viewGet_eq] using h.symm⟩

theorem setThrough_cases {c : Option View} {top x : Byte} {s t : State} (h : setThrough c top x s = .next t) :
    (c = none ∧ t = answered .configError 0 s) ∨
    (∃ v, c = some v ∧ ¬ x.toNat ≤ top.toNat ∧ t = answered .domainError 0 s) ∨
    ∃ v, c = some v ∧ x.toNat ≤ top.toNat ∧ t = answered .ok 0 (viewSet s v x) := by
  unfold setThrough at h
  split at h
  · exact .inl ⟨rfl, by simpa [raise_eq] using h.symm⟩
  · split at h
    case isTrue hx =>
      exact .inr (.inl ⟨_, rfl, by simpa [BitVec.ult] using hx, by simpa [raise_eq] using h.symm⟩)
    case isFalse hx =>
      exact .inr (.inr ⟨_, rfl, by simpa [BitVec.ult] using hx, by simpa [respond_eq] using h.symm⟩)

theorem bindView_cases {h : Handle} {v : View} {s t : State} (e : bindView h v s = .next t) :
    (bindRefused s h v = true ∧ t = answered .configError 0 s) ∨
    (bindRefused s h v = false ∧ t = answered .ok 0 (s.withView h v)) := by
  unfold bindView at e
  split at e
  case isTrue hr => exact .inl ⟨hr, by simpa [raise_eq] using e.symm⟩
  case isFalse hr => exact .inr ⟨by simpa using hr, by simpa [respond_eq] using e.symm⟩

/-- A transition either raises or drives the pins. -/
theorem exec_mtrans_cases {m : MotorId} {tgt : Mode} {s t : State} (h : transition m tgt s = .next t) :
    (∃ e, MayRaise (Instr.mtrans m tgt) e ∧ t = answered e 0 s) ∨ Effect s (Instr.mtrans m tgt) t := by
  rcases transition_cases h with ⟨-, rfl⟩ | ⟨mot, hm, ⟨hf, rfl⟩ | ⟨hf, hw, rfl⟩ | ⟨hf, hw, v1, v2, b1, b2, h1, h2, rfl⟩⟩
  · exact .inl ⟨_, .motor, rfl⟩
  · refine .inl ⟨_, ?_, rfl⟩
    rcases hf with ⟨-, rfl⟩ | ⟨-, rfl⟩
    · exact .reverse
    · exact .forward
  · exact .inl ⟨_, .early, rfl⟩
  · refine .inr (.drive hm ?_ hw h1 h2)
    rw [← Bool.not_eq_true, forbidden_iff]; exact hf

/-- EVERYTHING A COMMAND CAN DO: it answers an error and nothing else happens (R131), or it has its effect and answers OK. -/
theorem exec_cases {i : Instr} {s t : State} (h : exec i s = .next t) :
    (∃ e, MayRaise i e ∧ t = answered e 0 s) ∨ Effect s i t := by
  cases i with
  | vbit => rcases bindView_cases h with ⟨-, rfl⟩ | ⟨hr, rfl⟩; exacts [.inl ⟨_, .vbit, rfl⟩, .inr (.vbit hr)]
  | vnib => rcases bindView_cases h with ⟨-, rfl⟩ | ⟨hr, rfl⟩; exacts [.inl ⟨_, .vnib, rfl⟩, .inr (.vnib hr)]
  | mbind m h1 h2 =>
    simp only [exec, execMbind] at h
    split at h
    · exact .inl ⟨_, .mbind, by simpa [raise_eq] using h.symm⟩
    · rename_i ok
      refine .inr ?_
      rw [show t = _ by simpa [respond_eq] using h.symm]
      exact .mbind ok
  | bget =>
    rcases getThrough_cases h with ⟨-, rfl⟩ | ⟨v, hv, rfl⟩
    · exact .inl ⟨_, .bget, rfl⟩
    · obtain ⟨sel, hs⟩ := checkBitView_eq_some.1 hv; exact .inr (.bget hs)
  | nget =>
    rcases getThrough_cases h with ⟨-, rfl⟩ | ⟨v, hv, rfl⟩
    · exact .inl ⟨_, .nget, rfl⟩
    · obtain ⟨pos, hs⟩ := checkNibbleView_eq_some.1 hv; exact .inr (.nget hs)
  | bset =>
    rcases setThrough_cases h with ⟨-, rfl⟩ | ⟨_, -, -, rfl⟩ | ⟨v, hv, hx, rfl⟩
    · exact .inl ⟨_, .bset, rfl⟩
    · exact .inl ⟨_, .bsetDomain, rfl⟩
    · obtain ⟨sel, hs⟩ := checkBitView_eq_some.1 hv; exact .inr (.bset hs hx)
  | nset =>
    rcases setThrough_cases h with ⟨-, rfl⟩ | ⟨_, -, -, rfl⟩ | ⟨v, hv, hx, rfl⟩
    · exact .inl ⟨_, .nset, rfl⟩
    · exact .inl ⟨_, .nsetDomain, rfl⟩
    · obtain ⟨pos, hs⟩ := checkNibbleView_eq_some.1 hv; exact .inr (.nset hs hx)
  | brake m => exact exec_mtrans_cases (tgt := .brake) h
  | coast m => exact exec_mtrans_cases (tgt := .coast) h
  | forward m => exact exec_mtrans_cases (tgt := .forward) h
  | reverse m => exact exec_mtrans_cases (tgt := .reverse) h
  | mmode m =>
    simp only [exec, execMmode] at h
    split at h
    · exact .inl ⟨_, .mmode, by simpa [raise_eq] using h.symm⟩
    · rename_i hm
      rw [show t = _ by simpa [respond_eq] using h.symm]
      exact .inr (.mmode (checkMotor_eq_some.1 hm))
  | lreg pin edge cb =>
    simp only [exec, execLreg] at h
    split at h
    · rename_i he
      obtain rfl := Edge.ofCode_eq_none.1 he
      exact .inl ⟨_, .lreg, by simpa [raise_eq] using h.symm⟩
    · rename_i he
      rw [show t = _ by simpa [respond_eq] using h.symm]
      exact .inr (.lreg he)
  | lact => rw [show t = _ from (Host.Outcome.next.inj h).symm]; exact .inr .lact
  | ldeact => rw [show t = _ from (Host.Outcome.next.inj h).symm]; exact .inr .ldeact

/-- A command that has its effect answers a next state: the converse of the second case of `exec_cases`. -/
theorem exec_of_effect {i : Instr} {s t : State} (h : Effect s i t) : exec i s = .next t := by
  cases h with
  | vbit ok => simp [exec, execVbit, bindView, ok, respond_eq]
  | vnib ok => simp [exec, execVnib, bindView, ok, respond_eq]
  | bget hv => simp [exec, execBget, getThrough, checkBitView_of hv, respond_eq, viewGet_eq]
  | nget hv => simp [exec, execNget, getThrough, checkNibbleView_of hv, respond_eq, viewGet_eq]
  | @bset _ _ _ x hv hx =>
    have : (1#8).ult x = false := by simpa [BitVec.ult] using hx
    simp [exec, execBset, setThrough, checkBitView_of hv, respond_eq, this]
  | @nset _ _ _ x hv hx =>
    have : (15#8).ult x = false := by simpa [BitVec.ult] using hx
    simp [exec, execNset, setThrough, checkNibbleView_of hv, respond_eq, this]
  | mbind ok => simp [exec, execMbind, ok, respond_eq]
  | drive hm allowed window hv1 hv2 =>
    rw [exec_mtrans]
    simp only [transition, checkMotor_eq_some.2 hm, allowed, throttle_open window, Bool.false_eq_true, if_false, drivePins,
      checkBitView_of (hasBitView_withThr.2 hv1), checkBitView_of (hasBitView_withThr.2 hv2)]
    rfl
  | mmode hm => simp [exec, execMmode, checkMotor_eq_some.2 hm, respond_eq]
  | lreg he => simp [exec, execLreg, he, respond_eq]
  | lact => rfl
  | ldeact => rfl

/-! The response at the end -/

/-- The fields of a response word (R60). -/
theorem responseWord_fields (e : Status) (v : Byte) :
    statusOf (responseWord e v) = e.code ∧ valueOf (responseWord e v) = v ∧ (responseWord e v).extractLsb' 12 4 = 0 := by
  refine ⟨?_, ?_, ?_⟩ <;> refine BitVec.eq_of_getLsbD_eq fun k hk => ?_ <;>
    simp only [statusOf, valueOf, responseWord, BitVec.getLsbD_extractLsb', BitVec.getLsbD_append] <;>
    interval_cases k <;> simp

/-- Two ways to end a record with one more observation are the same way. -/
theorem shown_inj {s os ps : List Obs} {a b : Obs} (h : s ++ os ++ [a] = s ++ ps ++ [b]) : os = ps ∧ a = b := by
  rw [List.append_assoc, List.append_assoc, List.append_right_inj] at h
  exact ⟨List.append_inj_left' h rfl, by simpa using List.append_inj_right' h rfl⟩

/-- A command that has its effect shows bus transactions, then one response with status OK (R36, R60). -/
theorem Effect.shown {s t : State} {i : Instr} (h : Effect s i t) :
    ∃ os v, t.trace = s.trace ++ os ++ [.resp (responseWord .ok v)] ∧ ∀ o ∈ os, o.onBus := by
  cases h with
  | vbit => exact ⟨[], 0, by simp [answered], by simp⟩
  | vnib => exact ⟨[], 0, by simp [answered], by simp⟩
  | bget => exact ⟨[_], _, by simp [answered]; exact ⟨rfl, rfl⟩, by simp [Obs.onBus]⟩
  | nget => exact ⟨[_], _, by simp [answered]; exact ⟨rfl, rfl⟩, by simp [Obs.onBus]⟩
  | bset => exact ⟨[_, _], 0, by simp [answered]; exact ⟨rfl, rfl⟩, by simp [Obs.onBus]⟩
  | nset => exact ⟨[_, _], 0, by simp [answered]; exact ⟨rfl, rfl⟩, by simp [Obs.onBus]⟩
  | mbind => exact ⟨[_, _, _, _], 0, by simp [answered]; exact ⟨rfl, rfl, rfl, rfl⟩, by simp [Obs.onBus]⟩
  | drive => exact ⟨[_, _, _, _], 0, by simp [answered]; exact ⟨rfl, rfl, rfl, rfl⟩, by simp [Obs.onBus]⟩
  | mmode => exact ⟨[], _, by simp [answered]; rfl, by simp⟩
  | lreg => exact ⟨[], 0, by simp [answered], by simp⟩
  | lact => exact ⟨[], 0, by simp [answered], by simp⟩
  | ldeact => exact ⟨[], 0, by simp [answered], by simp⟩

/-- What an error shows: the response and nothing before it (R131). -/
theorem answered_shown {s : State} {e : Status} {os : List Obs} {r : RespWord}
    (h : (answered e 0 s).trace = s.trace ++ os ++ [.resp r]) : os = [] ∧ r = responseWord e 0 := by
  have := shown_inj (h.symm.trans
    (show (answered e 0 s).trace = s.trace ++ [] ++ [.resp (responseWord e 0)] by simp [answered]))
  exact ⟨this.1, Obs.resp.inj this.2⟩

theorem MayRaise.not_ok {i : Instr} {e : Status} (h : MayRaise i e) : responseWord e 0 ≠ 0x0000 := by
  cases h <;> decide

/-- A command that answers status OK and value 0 has had its effect. -/
theorem effect_of_ok {i : Instr} {s t : State} {os : List Obs} (h : exec i s = .next t)
    (ht : t.trace = s.trace ++ os ++ [.resp 0x0000]) : Effect s i t := by
  rcases exec_cases h with ⟨e, he, rfl⟩ | h
  · exact absurd (answered_shown ht).2.symm he.not_ok
  · exact h

theorem Instr.mtrans_inj {m n : MotorId} {a b : Mode} (h : Instr.mtrans m a = Instr.mtrans n b) : m = n ∧ a = b := by
  cases a <;> cases b <;> simp_all [Instr.mtrans]

/-- What the effect of a transition command is (R91): the cases of `Effect` for `Instr.mtrans`. -/
theorem Effect.of_mtrans {s t : State} {m : MotorId} {tgt : Mode} (h : Effect s (Instr.mtrans m tgt) t) :
    ∃ mot v1 v2 b1 b2, s.hasMotor m mot ∧ ¬ forbiddenPair mot.mode tgt ∧ s.windowElapsed ∧
      s.hasBitView mot.pin1 v1 b1 ∧ s.hasBitView mot.pin2 v2 b2 ∧
      t = answered .ok 0 ((setPins (s.withThr s.time) v1 v2 tgt).withMotor m { mot with mode := tgt }) := by
  generalize hi : Instr.mtrans m tgt = i at h
  cases h with
  | drive hm allowed window hv1 hv2 =>
    obtain ⟨rfl, rfl⟩ := Instr.mtrans_inj hi
    exact ⟨_, _, _, _, _, hm, by rw [← forbidden_iff]; simp [allowed], window, hv1, hv2, rfl⟩
  | _ => cases tgt <;> simp [Instr.mtrans] at hi

/-- The record after MBIND or an accepted transition (R35). -/
theorem setPins_shown (s : State) (v1 v2 : View) (mode : Mode) (m : MotorId) (mot : Motor) :
    (answered .ok 0 ((setPins s v1 v2 mode).withMotor m mot)).trace = s.trace ++
      [.read v1.addr (s.firstRead v1.addr), .write v1.addr (pinByte1 s v1 mode),
       .read v2.addr (pinRead2 s v1 v2 mode), .write v2.addr (pinByte2 s v1 v2 mode)] ++ [.resp 0x0000] := by
  simp [answered]; rfl

end Sys2Proof.Machine
end

