-- ==== Sys2Proof/Laws/Motors.lean ====
section
/-! SUPPORT. The pins of a motor: what two sets leave in them, what a set through another view leaves alone, and `coherent` for
a motor whose views are known. -/

namespace Sys2Proof.Machine

/-- `coherent` of a known motor (R25). -/
theorem State.coherent_iff {s : State} {m : MotorId} {mot : Motor} {v1 v2 : View} {b1 b2 : BitVec 3}
    (hm : s.hasMotor m mot) (h1 : s.hasBitView mot.pin1 v1 b1) (h2 : s.hasBitView mot.pin2 v2 b2) :
    s.coherent m ↔
      (s.byte v1.addr).getLsbD b1.toNat = ((pinPair s.cfg.pattern mot.mode).1 != v1.inv) ∧
      (s.byte v2.addr).getLsbD b2.toNat = ((pinPair s.cfg.pattern mot.mode).2 != v2.inv) := by
  constructor
  · rintro ⟨mot', w1, w2, c1, c2, hm', q1, q2, e1, e2⟩
    obtain rfl : mot = mot' := Option.some.inj (hm.2.symm.trans hm'.2)
    obtain rfl : v1 = w1 := Option.some.inj (h1.2.1.symm.trans q1.2.1)
    obtain rfl : v2 = w2 := Option.some.inj (h2.2.1.symm.trans q2.2.1)
    obtain rfl : b1 = c1 := by simpa using h1.2.2.symm.trans q1.2.2
    obtain rfl : b2 = c2 := by simpa using h2.2.2.symm.trans q2.2.2
    exact ⟨e1, e2⟩
  · rintro ⟨e1, e2⟩
    exact ⟨mot, v1, v2, b1, b2, hm, h1, h2, e1, e2⟩

/-- After the two sets of MBIND or a transition the pins show the pattern, at non-volatile addresses (R82, R91). -/
theorem setPins_pins (s : State) {v1 v2 : View} {b1 b2 : BitVec 3} (mode : Mode) (h1 : v1.kind = .bit b1)
    (h2 : v2.kind = .bit b2) (hs : ¬ v1.sharesBit v2) (n2 : isVolatile s.cfg v2.addr = false) :
    ((setPins s v1 v2 mode).byte v1.addr).getLsbD b1.toNat = ((pinPair s.cfg.pattern mode).1 != v1.inv) ∧
    ((setPins s v1 v2 mode).byte v2.addr).getLsbD b2.toNat = ((pinPair s.cfg.pattern mode).2 != v2.inv) := by
  have r1 := pinByte1_replaced s mode h1
  have r2 := pinByte2_replaced s v1 mode h2
  rw [patternPins_eq] at r1 r2
  constructor
  · rw [setPins_byte]
    split
    case isTrue e =>
      have hne : b1.toNat ≠ b2.toNat := fun e2 =>
        hs ⟨e, b1.toNat, by simp [View.covers, h1], by simp [View.covers, h2, e2]⟩
      rw [r2 _ b1.isLt, if_neg hne, pinRead2, State.secondRead, n2]
      simp only [Bool.false_eq_true, if_false, e.symm, if_true]
      rw [r1 _ b1.isLt, if_pos rfl]
    case isFalse => rw [if_pos rfl, r1 _ b1.isLt, if_pos rfl]
  · rw [setPins_byte, if_pos rfl, r2 _ b2.isLt, if_pos rfl]

/-- A set through a view that shares no bit with a bit view leaves the other's bit as it was (R83). -/
theorem viewSet_spares (s : State) (v : View) (x : Byte) (hx : x.toNat ≤ v.ones.toNat) {w : View} {b : BitVec 3}
    (hw : w.kind = .bit b) (hs : ¬ v.sharesBit w) (nv : isVolatile s.cfg w.addr = false) :
    ((viewSet s v x).byte w.addr).getLsbD b.toNat = (s.byte w.addr).getLsbD b.toNat := by
  rw [viewSet_byte]
  split
  case isTrue e =>
    rw [setByte, View.merge_outside v _ _ hx b.isLt]
    · rw [State.firstRead, ← e, nv]; rfl
    · exact fun hc => hs ⟨e.symm, b.toNat, hc, by simp [View.covers, hw]⟩
  case isFalse => rfl

theorem bitByte_le_ones (b : Bool) (v : View) : (bitByte b).toNat ≤ v.ones.toNat := by
  unfold View.ones; cases b <;> cases v.kind <;> simp [bitByte]

end Sys2Proof.Machine
end

