-- ==== Sys2Proof/Laws/PerInstr.lean ====
section
/-! SUPPORT. The family EncodedRow, one lemma per command: the word of a well-formed command is selected by a row of the opcode
map that reads it back. -/

namespace Sys2Proof.Laws.EncodedRow

/-- The word of `i` is selected by a row of the map, and that row reads `i` from it. -/
def Statement (i : Instr) : Prop :=
  i.wellFormed = true → ∃ (n : Nat) (r : OpcodeRow), opcodeRows[n]? = some r ∧ r.selects (encode i) = true ∧ r.read (encode i) = i

/-- A masked comparison, bit by bit. -/
theorem masked {w m p : Word} (h : ∀ k, k < 32 → (w.getLsbD k && m.getLsbD k) = p.getLsbD k) : (w &&& m == p) = true :=
  beq_iff_eq.2 (BitVec.eq_of_getLsbD_eq fun k hk => by rw [BitVec.getLsbD_and]; exact h k hk)

/-- A field, bit by bit. -/
theorem fieldOf {w : Word} {lo len : Nat} {x : BitVec len} (h : ∀ k, k < len → w.getLsbD (lo + k) = x.getLsbD k) :
    field w lo len = x :=
  BitVec.eq_of_getLsbD_eq fun k hk => by simp [field, hk, h k hk]

theorem vbit (h : Handle) (addr : AddrField) (bit : BitVec 3) (inv : Bool) (own : OwnField) : Statement (.vbit h addr bit inv own) := by
  intro _
  refine ⟨0, _, rfl, Bool.and_eq_true_iff.2 ⟨masked fun k hk => ?_, rfl⟩, ?_⟩
  · simp only [encode, BitVec.getLsbD_append]
    interval_cases k <;> simp
  · have e_h : field (encode (.vbit h addr bit inv own)) 20 8 = h :=
      fieldOf fun k hk => by simp only [encode, BitVec.getLsbD_append]; interval_cases k <;> simp
    have e_addr : field (encode (.vbit h addr bit inv own)) 12 8 = addr :=
      fieldOf fun k hk => by simp only [encode, BitVec.getLsbD_append]; interval_cases k <;> simp
    have e_bit : field (encode (.vbit h addr bit inv own)) 0 3 = bit :=
      fieldOf fun k hk => by simp only [encode, BitVec.getLsbD_append]; interval_cases k <;> simp
    have e_inv : flagOf (field (encode (.vbit h addr bit inv own)) 11 1) = inv := by
      have : field (encode (.vbit h addr bit inv own)) 11 1 = BitVec.ofBool inv :=
        fieldOf fun k hk => by simp only [encode, BitVec.getLsbD_append]; interval_cases k; simp
      rw [this]; cases inv <;> rfl
    have e_own : field (encode (.vbit h addr bit inv own)) 4 4 = own :=
      fieldOf fun k hk => by simp only [encode, BitVec.getLsbD_append]; interval_cases k <;> simp
    simp only [e_h, e_addr, e_bit, e_inv, e_own]

theorem vnib (h : Handle) (addr : AddrField) (pos : NibblePos) (inv : Bool) (own : OwnField) : Statement (.vnib h addr pos inv own) := by
  intro _
  refine ⟨1, _, rfl, Bool.and_eq_true_iff.2 ⟨masked fun k hk => ?_, rfl⟩, ?_⟩
  · simp only [encode, BitVec.getLsbD_append]
    interval_cases k <;> simp
  · have e_h : field (encode (.vnib h addr pos inv own)) 20 8 = h :=
      fieldOf fun k hk => by simp only [encode, BitVec.getLsbD_append]; interval_cases k <;> simp
    have e_addr : field (encode (.vnib h addr pos inv own)) 12 8 = addr :=
      fieldOf fun k hk => by simp only [encode, BitVec.getLsbD_append]; interval_cases k <;> simp
    have e_pos : NibblePos.ofCode (field (encode (.vnib h addr pos inv own)) 0 1) = pos := by
      have : field (encode (.vnib h addr pos inv own)) 0 1 = pos.code :=
        fieldOf fun k hk => by simp only [encode, BitVec.getLsbD_append]; interval_cases k; simp
      rw [this]; cases pos <;> rfl
    have e_inv : flagOf (field (encode (.vnib h addr pos inv own)) 11 1) = inv := by
      have : field (encode (.vnib h addr pos inv own)) 11 1 = BitVec.ofBool inv :=
        fieldOf fun k hk => by simp only [encode, BitVec.getLsbD_append]; interval_cases k; simp
      rw [this]; cases inv <;> rfl
    have e_own : field (encode (.vnib h addr pos inv own)) 4 4 = own :=
      fieldOf fun k hk => by simp only [encode, BitVec.getLsbD_append]; interval_cases k <;> simp
    simp only [e_h, e_addr, e_pos, e_inv, e_own]

theorem mbind (m : MotorId) (h1 : Handle) (h2 : Handle) : Statement (.mbind m h1 h2) := by
  intro _
  refine ⟨2, _, rfl, Bool.and_eq_true_iff.2 ⟨masked fun k hk => ?_, rfl⟩, ?_⟩
  · simp only [encode, BitVec.getLsbD_append]
    interval_cases k <;> simp
  · have e_m : field (encode (.mbind m h1 h2)) 24 4 = m :=
      fieldOf fun k hk => by simp only [encode, BitVec.getLsbD_append]; interval_cases k <;> simp
    have e_h1 : field (encode (.mbind m h1 h2)) 8 8 = h1 :=
      fieldOf fun k hk => by simp only [encode, BitVec.getLsbD_append]; interval_cases k <;> simp
    have e_h2 : field (encode (.mbind m h1 h2)) 0 8 = h2 :=
      fieldOf fun k hk => by simp only [encode, BitVec.getLsbD_append]; interval_cases k <;> simp
    simp only [e_m, e_h1, e_h2]

theorem bget (h : Handle) : Statement (.bget h) := by
  intro _
  refine ⟨3, _, rfl, Bool.and_eq_true_iff.2 ⟨masked fun k hk => ?_, rfl⟩, ?_⟩
  · simp only [encode, BitVec.getLsbD_append]
    interval_cases k <;> simp
  · have e_h : field (encode (.bget h)) 20 8 = h :=
      fieldOf fun k hk => by simp only [encode, BitVec.getLsbD_append]; interval_cases k <;> simp
    simp only [e_h]

theorem bset (h : Handle) (v : Byte) : Statement (.bset h v) := by
  intro _
  refine ⟨4, _, rfl, Bool.and_eq_true_iff.2 ⟨masked fun k hk => ?_, rfl⟩, ?_⟩
  · simp only [encode, BitVec.getLsbD_append]
    interval_cases k <;> simp
  · have e_h : field (encode (.bset h v)) 20 8 = h :=
      fieldOf fun k hk => by simp only [encode, BitVec.getLsbD_append]; interval_cases k <;> simp
    have e_v : field (encode (.bset h v)) 0 8 = v :=
      fieldOf fun k hk => by simp only [encode, BitVec.getLsbD_append]; interval_cases k <;> simp
    simp only [e_h, e_v]

theorem nget (h : Handle) : Statement (.nget h) := by
  intro _
  refine ⟨5, _, rfl, Bool.and_eq_true_iff.2 ⟨masked fun k hk => ?_, rfl⟩, ?_⟩
  · simp only [encode, BitVec.getLsbD_append]
    interval_cases k <;> simp
  · have e_h : field (encode (.nget h)) 20 8 = h :=
      fieldOf fun k hk => by simp only [encode, BitVec.getLsbD_append]; interval_cases k <;> simp
    simp only [e_h]

theorem nset (h : Handle) (v : Byte) : Statement (.nset h v) := by
  intro _
  refine ⟨6, _, rfl, Bool.and_eq_true_iff.2 ⟨masked fun k hk => ?_, rfl⟩, ?_⟩
  · simp only [encode, BitVec.getLsbD_append]
    interval_cases k <;> simp
  · have e_h : field (encode (.nset h v)) 20 8 = h :=
      fieldOf fun k hk => by simp only [encode, BitVec.getLsbD_append]; interval_cases k <;> simp
    have e_v : field (encode (.nset h v)) 0 8 = v :=
      fieldOf fun k hk => by simp only [encode, BitVec.getLsbD_append]; interval_cases k <;> simp
    simp only [e_h, e_v]

theorem brake (m : MotorId) : Statement (.brake m) := by
  intro _
  refine ⟨7, _, rfl, Bool.and_eq_true_iff.2 ⟨masked fun k hk => ?_, rfl⟩, ?_⟩
  · simp only [encode, Mode.code, BitVec.getLsbD_append]
    interval_cases k <;> simp
  · have e_m : field (encode (.brake m)) 24 4 = m :=
      fieldOf fun k hk => by simp only [encode, BitVec.getLsbD_append]; interval_cases k <;> simp
    simp only [e_m]

theorem coast (m : MotorId) : Statement (.coast m) := by
  intro _
  refine ⟨8, _, rfl, Bool.and_eq_true_iff.2 ⟨masked fun k hk => ?_, rfl⟩, ?_⟩
  · simp only [encode, Mode.code, BitVec.getLsbD_append]
    interval_cases k <;> simp
  · have e_m : field (encode (.coast m)) 24 4 = m :=
      fieldOf fun k hk => by simp only [encode, BitVec.getLsbD_append]; interval_cases k <;> simp
    simp only [e_m]

theorem forward (m : MotorId) : Statement (.forward m) := by
  intro _
  refine ⟨9, _, rfl, Bool.and_eq_true_iff.2 ⟨masked fun k hk => ?_, rfl⟩, ?_⟩
  · simp only [encode, Mode.code, BitVec.getLsbD_append]
    interval_cases k <;> simp
  · have e_m : field (encode (.forward m)) 24 4 = m :=
      fieldOf fun k hk => by simp only [encode, BitVec.getLsbD_append]; interval_cases k <;> simp
    simp only [e_m]

theorem reverse (m : MotorId) : Statement (.reverse m) := by
  intro _
  refine ⟨10, _, rfl, Bool.and_eq_true_iff.2 ⟨masked fun k hk => ?_, rfl⟩, ?_⟩
  · simp only [encode, Mode.code, BitVec.getLsbD_append]
    interval_cases k <;> simp
  · have e_m : field (encode (.reverse m)) 24 4 = m :=
      fieldOf fun k hk => by simp only [encode, BitVec.getLsbD_append]; interval_cases k <;> simp
    simp only [e_m]

theorem mmode (m : MotorId) : Statement (.mmode m) := by
  intro _
  refine ⟨11, _, rfl, Bool.and_eq_true_iff.2 ⟨masked fun k hk => ?_, rfl⟩, ?_⟩
  · simp only [encode, BitVec.getLsbD_append]
    interval_cases k <;> simp
  · have e_m : field (encode (.mmode m)) 24 4 = m :=
      fieldOf fun k hk => by simp only [encode, BitVec.getLsbD_append]; interval_cases k <;> simp
    simp only [e_m]

theorem lreg (pin : Pin) (edge : BitVec 2) (cb : CbField) : Statement (.lreg pin edge cb) := by
  intro hw
  refine ⟨12, _, rfl, Bool.and_eq_true_iff.2 ⟨masked fun k hk => ?_, ?_⟩, ?_⟩
  · simp only [encode, BitVec.getLsbD_append]
    interval_cases k <;> simp
  · have he : field (encode (.lreg pin edge cb)) 20 2 = edge :=
      fieldOf fun k hk => by simp only [encode, BitVec.getLsbD_append]; interval_cases k <;> simp
    simpa [he, Instr.wellFormed] using hw
  · have e_pin : field (encode (.lreg pin edge cb)) 24 3 = pin :=
      fieldOf fun k hk => by simp only [encode, BitVec.getLsbD_append]; interval_cases k <;> simp
    have e_edge : field (encode (.lreg pin edge cb)) 20 2 = edge :=
      fieldOf fun k hk => by simp only [encode, BitVec.getLsbD_append]; interval_cases k <;> simp
    have e_cb : field (encode (.lreg pin edge cb)) 0 16 = cb :=
      fieldOf fun k hk => by simp only [encode, BitVec.getLsbD_append]; interval_cases k <;> simp
    simp only [e_pin, e_edge, e_cb]

theorem lact : Statement .lact := by
  intro _
  exact ⟨13, _, rfl, by decide, rfl⟩

theorem ldeact : Statement .ldeact := by
  intro _
  exact ⟨14, _, rfl, by decide, rfl⟩

end Sys2Proof.Laws.EncodedRow
end

