-- ==== Sys2Proof/Laws/Step.lean ====
section
/-! SUPPORT. What a step can do, said once: `step_cases`; what a dispatch does; what is left after a RESET in the middle. -/

namespace Sys2Proof.Machine

variable {s t : State}

theorem step_nil (h : s.inputs = []) : step s = .next s := by
  simp [step, runFirstInput, h]

theorem step_cons {i : Input} {rest : List Input} (h : s.inputs = i :: rest) :
    step s = acceptInput i (s.withInputs rest) := by
  simp [step, runFirstInput, h]

/-- A command word runs the instruction it decodes to, or answers IllegalCommand. -/
theorem runCommand_cases {w : Word} (h : runCommand w s = .next t) :
    (∃ e, decode w = .error e ∧ t = answered .illegalCommand 0 s) ∨ ∃ i, decode w = .ok i ∧ exec i s = .next t := by
  unfold runCommand at h
  split at h
  case h_1 i hi => exact .inr ⟨i, hi, h⟩
  case h_2 e he => exact .inl ⟨e, he, by simpa [raise_eq] using h.symm⟩

/-- What each action of the host or the environment does when it is accepted in state `s`, with the condition under which it is. -/
inductive Accepted (s : State) : Input → State → Prop where
  | command {w t} (run : runCommand w s = .next t) : Accepted s (.command w) t
  | irq : Accepted s .irq (dispatchIrq s)
  | time {u} : Accepted s (.time u) (s.withTime (lowBits s.cfg.tw u))
  | foreignWrite {a b} (vol : isVolatile s.cfg (lowBits s.cfg.aw a) = true) :
    Accepted s (.foreignWrite a b) (s.withByte (lowBits s.cfg.aw a) b)
  | reset : Accepted s .reset (resetBlock s)
  | resetInCommand {w k full} (run : runCommand w s = .next full) : Accepted s (.resetInCommand w k) (abandonAt k s full)
  | resetInDispatch {k} : Accepted s (.resetInDispatch k) (abandonAt k s (dispatchIrq s))
  | foreignWriteInCommand {w k a b full} (vol : isVolatile s.cfg (lowBits s.cfg.aw a) = true)
      (run : runCommand w s = .next full) :
    Accepted s (.foreignWriteInCommand w k a b) (changedAmid k (lowBits s.cfg.aw a) b s full)
  | foreignWriteInDispatch {k a b} (vol : isVolatile s.cfg (lowBits s.cfg.aw a) = true) :
    Accepted s (.foreignWriteInDispatch k a b) (changedAmid k (lowBits s.cfg.aw a) b s (dispatchIrq s))

theorem acceptInput_cases {i : Input} (h : acceptInput i s = .next t) : Accepted s i t := by
  have done {u : State} (h : Host.Outcome.next u = (.next t : Result)) : u = t := Host.Outcome.next.inj h
  cases i with
  | command w => exact .command h
  | irq => exact done h ▸ .irq
  | time u => exact done h ▸ .time
  | foreignWrite a b =>
    simp only [acceptInput, foreignWrite] at h
    split at h
    case isTrue hv => exact done h ▸ .foreignWrite hv
    case isFalse => cases h
  | reset => exact done h ▸ .reset
  | resetInCommand w k =>
    simp only [acceptInput, resetInCommand] at h
    split at h
    case h_1 full hf => exact done h ▸ .resetInCommand hf
    case h_2 hne => exact absurd h (hne t)
  | resetInDispatch k => exact done h ▸ .resetInDispatch
  | foreignWriteInCommand w k a b =>
    simp only [acceptInput, foreignWriteInCommand] at h
    split at h
    case isTrue hv =>
      split at h
      case h_1 full hf => exact done h ▸ .foreignWriteInCommand hv hf
      case h_2 hne => exact absurd h (hne t)
    case isFalse => cases h
  | foreignWriteInDispatch k a b =>
    simp only [acceptInput, foreignWriteInDispatch] at h
    split at h
    case isTrue hv => exact done h ▸ .foreignWriteInDispatch hv
    case isFalse => cases h

/-- Everything a step that answers a next state can have done. -/
theorem step_cases (h : step s = .next t) :
    (s.inputs = [] ∧ t = s) ∨ ∃ i rest, s.inputs = i :: rest ∧ Accepted (s.withInputs rest) i t := by
  rcases hs : s.inputs with _ | ⟨i, rest⟩
  · rw [step_nil hs] at h; exact .inl ⟨rfl, (Host.Outcome.next.inj h).symm⟩
  · rw [step_cons hs] at h; exact .inr ⟨i, rest, rfl, acceptInput_cases h⟩

/-! The dispatch (R141) -/

@[simp] theorem isVolatile_intf (c : Config) : isVolatile c c.intfAddr = true := by simp [isVolatile]

@[simp] theorem isVolatile_intcap (c : Config) : isVolatile c c.intcapAddr = true := by simp [isVolatile]

theorem dispatchIrq_inactive (h : s.lst.active = false) : dispatchIrq s = s := by simp [dispatchIrq, h]

/-- What a dispatch shows: the two reads, then the events. -/
def dispatchShown (s : State) : List Obs :=
  [.read s.cfg.intfAddr (s.draw 0), .read s.cfg.intcapAddr (s.draw 1)] ++ dispatchEvents s.lst (s.draw 0) (s.draw 1)

theorem dispatchIrq_active (h : s.lst.active = true) : dispatchIrq s = (s.drop 2).emitAll (dispatchShown s) := by
  have h1 : (s.afterRead s.cfg.intfAddr).busByte s.cfg.intcapAddr = s.draw 1 := by
    simp [State.busByte, State.nextDraw, State.draw, State.drawsAt]
  simp only [dispatchIrq, h, if_true, memRead, h1]
  simp [State.afterRead_eq, State.busByte_eq, State.emit_eq_emitAll, dispatchShown, State.drop, State.emitAll, State.firstRead, State.draw,
    State.drawsAt]

/-- The dispatch emits events and nothing else after its reads (R141). -/
theorem mem_dispatchEvents {l : Listener} {flag cap : Byte} {o : Obs} (h : o ∈ dispatchEvents l flag cap) :
    ∃ w, o = .event w := by
  obtain ⟨p, -, hp⟩ := List.mem_flatMap.1 h
  unfold pinEvents at hp
  split at hp
  · rcases List.mem_append.1 hp with hp | hp <;> (unfold keyEvent at hp; split at hp <;> simp_all)
  · simp at hp

/-! A RESET in the middle (R161) -/

/-- What a command or dispatch that would have gone from `s` to `full` had shown when it was cut off after `k`. -/
def issuedAt (k : Nat) (s full : State) : List Obs :=
  (shownBy s full).take k

theorem abandonAt_eq (k : Nat) (s full : State) : abandonAt k s full =
    resetBlock (((s.withRd ((issuedAt k s full).foldl Obs.applyTo s.rd)).drop
      ((issuedAt k s full).countP (Obs.isDraw s.cfg))).emitAll (issuedAt k s full)) := rfl

/-- Cutting off leaves the parameters, TIME and the inputs as they were, and the block at its reset values. -/
theorem abandonAt_fields (k : Nat) (s full : State) :
    (abandonAt k s full).cfg = s.cfg ∧ (abandonAt k s full).vt = [] ∧ (abandonAt k s full).mt = [] ∧
    (abandonAt k s full).thr = none ∧ (abandonAt k s full).lst = Listener.initial ∧
    (abandonAt k s full).time = s.time ∧ (abandonAt k s full).inputs = s.inputs ∧
    (abandonAt k s full).trace = s.trace ++ issuedAt k s full ∧
    (abandonAt k s full).rd = (issuedAt k s full).foldl Obs.applyTo s.rd := by
  simp [abandonAt_eq]

/-- Writes at addresses of the space keep the canonical form. -/
theorem wf_applyTo {aw : Nat} {m : Memory} (h : Memory.wf aw m = true) (os : List Obs)
    (ho : ∀ a b, Obs.write a b ∈ os → a < 2 ^ aw) : Memory.wf aw (os.foldl Obs.applyTo m) = true := by
  induction os generalizing m with
  | nil => exact h
  | cons o os ih =>
    rw [List.foldl_cons]
    refine ih ?_ fun a b hm => ho a b (List.mem_cons_of_mem _ hm)
    cases o with
    | write a b => exact Memory.wf_write h (ho a b List.mem_cons_self) b
    | read => exact h
    | resp => exact h
    | event => exact h

/-- The registers after a history are what the history makes of them (R24). -/
theorem byte_foldl_applyTo (os : List Obs) (m : Memory) (a : Addr) :
    Memory.byte (os.foldl Obs.applyTo m) a = registersAfter (fun x => Memory.byte m x) os a := by
  induction os generalizing m with
  | nil => rfl
  | cons o os ih =>
    rw [List.foldl_cons, ih]
    cases o with
    | write x b =>
      simp only [Obs.applyTo, registersAfter]
      congr 1
      funext y
      exact Memory.byte_write _ _ _ _
    | read => rfl
    | resp => rfl
    | event => rfl

/-- What a command shows before its response: its bus transactions. -/
theorem shownBy_command {os : List Obs} {r : RespWord} (h : t.trace = s.trace ++ os ++ [.resp r]) (ho : ∀ o ∈ os, o.onBus) :
    shownBy s t = os := by
  have keep : (os ++ [Obs.resp r]).filter (fun o => !o.isResp) = os := by
    simp only [List.filter_append, List.filter_cons, Obs.isResp, Bool.not_true, Bool.false_eq_true, if_false, List.filter_nil,
      List.append_nil, List.filter_eq_self]
    intro o hm
    have := ho o hm
    cases o <;> simp_all [Obs.onBus]
  rw [shownBy, h, List.append_assoc, List.drop_left, keep]

/-- What a command that was cut off had issued: the first `k` of its bus transactions. -/
theorem issuedAt_command {os : List Obs} {r : RespWord} (k : Nat) (h : t.trace = s.trace ++ os ++ [.resp r])
    (ho : ∀ o ∈ os, o.onBus) : issuedAt k s t = os.take k := by
  rw [issuedAt, shownBy_command h ho]

/-- What a dispatch shows (R141, R145). -/
theorem shownBy_dispatch (s : State) : shownBy s (dispatchIrq s) = if s.lst.active then dispatchShown s else [] := by
  rcases hb : s.lst.active with _ | _
  · simp [dispatchIrq_inactive hb, shownBy]
  · rw [dispatchIrq_active hb, shownBy, State.emitAll_trace, State.drop_trace, List.drop_left, if_pos rfl, List.filter_eq_self]
    intro o ho
    simp only [dispatchShown, List.cons_append, List.nil_append, List.mem_cons] at ho
    rcases ho with rfl | rfl | ho
    · rfl
    · rfl
    · obtain ⟨w, rfl⟩ := mem_dispatchEvents ho; rfl

/-! A write by another agent in the middle (R24) -/

/-- The registers after a history, at one register, depend on that register alone. -/
theorem registersAfter_congr {f g : Addr → Byte} {x : Addr} (h : f x = g x) (os : List Obs) :
    registersAfter f os x = registersAfter g os x := by
  induction os generalizing f g with
  | nil => exact h
  | cons o os ih =>
    cases o with
    | write a b => exact ih (by simp only [h])
    | read => exact ih h
    | resp => exact ih h
    | event => exact ih h

theorem registersAfter_append (f : Addr → Byte) (os ps : List Obs) :
    registersAfter f (os ++ ps) = registersAfter (registersAfter f os) ps := by
  induction os generalizing f with
  | nil => rfl
  | cons o os ih => cases o <;> exact ih _

/-- The registers after the change: the history up to it, the change, the rest of the history. -/
theorem changedAmid_byte (k : Nat) (a : Addr) (b : Byte) (s full : State) (x : Addr) :
    (changedAmid k a b s full).byte x =
      registersAfter (fun y => if y = a then b else registersAfter s.byte ((shownBy s full).take k) y)
        ((shownBy s full).drop k) x := by
  simp only [State.byte, changedAmid, State.withRd_rd, byte_foldl_applyTo]
  exact registersAfter_congr (by rw [Memory.byte_write]; simp only [byte_foldl_applyTo]; rfl) _

/-- Every other register is as if there had been no change. -/
theorem changedAmid_byte_other {k : Nat} {a : Addr} {b : Byte} {s full : State} {x : Addr} (hx : x ≠ a) :
    (changedAmid k a b s full).byte x = registersAfter s.byte (shownBy s full) x := by
  rw [changedAmid_byte, ← congrArg (fun os => registersAfter s.byte os x) (List.take_append_drop k (shownBy s full)),
    registersAfter_append]
  exact registersAfter_congr (if_neg hx) _

/-! A command as a history of the bus (R35, R36) -/

/-- The registers after the effect of a command are what its bus transactions make of them (R24). -/
theorem Effect.bytes {i : Instr} (h : Effect s i t) :
    ∃ os v, t.trace = s.trace ++ os ++ [.resp (responseWord .ok v)] ∧ (∀ o ∈ os, o.onBus) ∧
      ∀ x, t.byte x = registersAfter s.byte os x := by
  obtain ⟨os, v, ht, ho⟩ := h.shown
  refine ⟨os, v, ht, ho, fun x => ?_⟩
  have of {ps : List Obs} {w : RespWord} (hp : t.trace = s.trace ++ ps ++ [.resp w])
      (hb : t.byte x = registersAfter s.byte ps x) : t.byte x = registersAfter s.byte os x :=
    (shown_inj (ht.symm.trans hp)).1 ▸ hb
  cases h with
  | vbit => exact of (ps := []) (by simp [answered]; rfl) rfl
  | vnib => exact of (ps := []) (by simp [answered]; rfl) rfl
  | bget => exact of (ps := [_]) (by simp [answered]; exact ⟨rfl, rfl⟩) (by simp [answered, State.byte, registersAfter])
  | nget => exact of (ps := [_]) (by simp [answered]; exact ⟨rfl, rfl⟩) (by simp [answered, State.byte, registersAfter])
  | bset => exact of (ps := [_, _]) (by simp [answered]; exact ⟨rfl, rfl, rfl⟩) (by simp [answered, viewSet_byte, registersAfter])
  | nset => exact of (ps := [_, _]) (by simp [answered]; exact ⟨rfl, rfl, rfl⟩) (by simp [answered, viewSet_byte, registersAfter])
  | mbind => exact of (setPins_shown ..) (by simp only [registersAfter]; simp [answered, setPins_byte])
  | drive => exact of (setPins_shown ..) (by simp only [registersAfter]; simp [answered, setPins_byte])
  | mmode => exact of (ps := []) (by simp [answered]; rfl) rfl
  | lreg => exact of (ps := []) (by simp [answered]; rfl) rfl
  | lact => exact of (ps := []) (by simp [answered]; rfl) rfl
  | ldeact => exact of (ps := []) (by simp [answered]; rfl) rfl

/-- What any command word shows and leaves in the registers: its bus transactions, then one response. -/
theorem runCommand_bytes {w : Word} (h : runCommand w s = .next t) :
    ∃ os r, t.trace = s.trace ++ os ++ [.resp r] ∧ (∀ o ∈ os, o.onBus) ∧ ∀ x, t.byte x = registersAfter s.byte os x := by
  have error (e : Status) : ∃ os r, (answered e 0 s).trace = s.trace ++ os ++ [.resp r] ∧ (∀ o ∈ os, o.onBus) ∧
      ∀ x, (answered e 0 s).byte x = registersAfter s.byte os x := ⟨[], _, by simp [answered]; rfl, by simp, fun _ => rfl⟩
  rcases runCommand_cases h with ⟨e, -, rfl⟩ | ⟨i, -, hi⟩
  · exact error _
  · rcases exec_cases hi with ⟨e, -, rfl⟩ | he
    · exact error e
    · obtain ⟨os, v, hb⟩ := he.bytes
      exact ⟨os, _, hb⟩

/-- A step that runs a command word to completion: what the command does, but for a volatile register that the environment may
have changed inside it (R24). -/
theorem step_of_runsNext {w : Word} {rest : List Input} (hr : s.runsNext w rest) (h : step s = .next t) :
    ∃ full, runCommand w (s.withInputs rest) = .next full ∧ t = full.withRd t.rd ∧
      ∀ x, isVolatile s.cfg x = false → t.byte x = full.byte x := by
  obtain ⟨i, hs, hi⟩ := hr
  rw [step_cons hs] at h
  cases acceptInput_cases h with
  | command run => obtain rfl := Option.some.inj hi; exact ⟨t, run, rfl, fun _ _ => rfl⟩
  | @foreignWriteInCommand w' k a b full vol run =>
    obtain rfl : w' = w := Option.some.inj hi
    refine ⟨full, run, rfl, fun x hx => ?_⟩
    obtain ⟨os, r, ht, ho, hb⟩ := runCommand_bytes run
    rw [changedAmid_byte_other fun e => ?_, shownBy_command ht ho, hb]
    rw [e] at hx
    exact absurd (vol.symm.trans hx) (by decide)
  | _ => cases hi

end Sys2Proof.Machine
end

