-- ==== Sys2Proof/Tests/Slice0.lean ====
section
/-! SUPPORT. The model's own tests. Expected values are those of spec/30_encoding.md section 8 and spec/95_test_vectors.md, cited
by their ids; the last part shows for each obligation with hypotheses a state and operands that meet them. -/

namespace Sys2Proof.Tests

open Sys2Proof.Machine

/-! ## WellFormed and Decode -/

theorem test_wellFormed_refuses_edge_3 : (Instr.lreg 3 3 1).wellFormed = false := by decide

theorem test_wellFormed_admits_edge_2 : (Instr.lreg 7 2 0xFFFF).wellFormed = true := by decide

/-- What a word decodes to; `none` where the decoder refuses. -/
def read (w : Word) : Option Instr := (decode w).toOption

/-- The reason a word is illegal. -/
def reason (w : Word) : Option Illegal :=
  match decode w with
  | .ok _ => none
  | .error e => some e

theorem test_decode_vbit : read 0x10212013 = some (.vbit 2 0x12 3 false 1) := by decide

/-- E20: every field at its maximum. -/
theorem test_decode_vbit_max : read 0x1FFFF8F7 = some (.vbit 255 0xFF 7 true 15) := by decide

theorem test_decode_vnib : read 0x20513871 = some (.vnib 5 0x13 .upper true 7) := by decide

/-- E21. -/
theorem test_decode_vnib_lower : read 0x20513010 = some (.vnib 5 0x13 .lower false 1) := by decide

/-- E22. -/
theorem test_decode_mbind : read 0x31000406 = some (.mbind 1 4 6) := by decide

theorem test_decode_bget : read 0x40200000 = some (.bget 2) := by decide

/-- E24: the spare width of `v` (R55). -/
theorem test_decode_bset : read 0x5C800007 = some (.bset 200 7) := by decide

theorem test_decode_nget : read 0x60500000 = some (.nget 5) := by decide

/-- E26. -/
theorem test_decode_nset : read 0x71F000FF = some (.nset 31 255) := by decide

/-- E28. -/
theorem test_decode_brake : read 0x8F000000 = some (.brake 15) := by decide

/-- E33, the pseudo-instruction of R59. -/
theorem test_decode_coast : read 0x82000001 = some (Instr.mtrans 2 .coast) := by decide

theorem test_decode_forward : read 0x81000002 = some (.forward 1) := by decide

/-- E27. -/
theorem test_decode_reverse : read 0x81000003 = some (.reverse 1) := by decide

/-- E29. -/
theorem test_decode_mmode : read 0x91000000 = some (.mmode 1) := by decide

/-- E32. -/
theorem test_decode_lreg : read 0xA720FFFF = some (.lreg 7 2 0xFFFF) := by decide

theorem test_decode_lact : read 0xB0000000 = some .lact := by decide

theorem test_decode_ldeact : read 0xC0000000 = some .ldeact := by decide

/-- The same words from the encoder. -/
theorem test_encode_words :
    [Instr.vbit 2 0x12 3 true 1, .vnib 5 0x13 .upper true 7, .mbind 15 255 255, .bget 2, .bset 2 1, .nget 5, .nset 5 16,
      .brake 15, .coast 0, .forward 1, .reverse 1, .mmode 1, .lreg 3 2 7, .lact, .ldeact].map encode =
    [0x10212813, 0x20513871, 0x3F00FFFF, 0x40200000, 0x50200001, 0x60500000, 0x70500010,
      0x8F000000, 0x80000001, 0x81000002, 0x81000003, 0x91000000, 0xA3200007, 0xB0000000, 0xC0000000] := by decide

/-- I1 to I4. -/
theorem test_decode_reserved_opcodes : ([0x00000000, 0xFFFFFFFF, 0xD0000000, 0xE0000000].map reason).all
    (· == some .reservedOpcode) = true := by decide

/-- I5 to I13 and I15 to I17. -/
theorem test_decode_must_be_zero_bits : ([0x1021201B, 0x10212113, 0x20513873, 0x30010203, 0x40200001, 0x50200101, 0x80000004,
    0x90000001, 0xA8000000, 0xA3110001, 0xB0000001, 0xC8000000].map reason).all (· == some .mustBeZeroBit) = true := by decide

/-- I14. -/
theorem test_decode_reserved_edge : reason 0xA3300001 = some .reservedEdge := by decide

/-- The mnemonics and operand order of R58. -/
theorem test_asm_lines : (Instr.vnib 5 19 .upper true 7).asm = "VNIB 5, 19, upper, 1, 7" ∧
    (Instr.lreg 3 1 7).asm = "LREG 3, rising, 7" := ⟨rfl, rfl⟩

/-! ## Small states -/

/-- The default parameters with addresses chosen for the tests: interrupt registers 0xF0 and 0xF1, one input port 0xE0. -/
def cfg : Config := { Config.initial with intfAddr := 0xF0, intcapAddr := 0xF1, inputPorts := [0xE0] }

def bitAt (addr : Addr) (sel : BitVec 3) (inv : Bool) (own : OwnTag) : View :=
  { kind := .bit sel, addr := addr, inv := inv, own := own }

def nibAt (addr : Addr) (pos : NibblePos) (inv : Bool) (own : OwnTag) : View :=
  { kind := .nibble pos, addr := addr, inv := inv, own := own }

/-- A reset block with these views and register bytes. -/
def block (views : List (Nat × View)) (bytes : List Host.Cell) : State :=
  { State.reset with cfg := cfg, vt := views, rd := bytes }

/-- The pins of B.3: bits 3 and 2 of 0x12, and a nibble view at 0x13. -/
def pins (a : Byte) : State :=
  block [(2, bitAt 0x12 3 false 1), (3, bitAt 0x12 2 false 1), (5, nibAt 0x13 .upper true 1)] [(0x12, a), (0x13, 0xA5)]

/-- Those pins bound to motor 0 in a mode, with a throttle and a time. -/
def motor (a : Byte) (mode : Mode) (thr : Option Nat) (now : Nat) : State :=
  { pins a with mt := [(0, { pin1 := 2, pin2 := 3, mode := mode })], thr := thr, time := now }

/-- The listener of R144. -/
def listener : Listener :=
  { ((((Listener.initial.register 3 .rising 0xBEEF).register 3 .either 0x0007).register 0 .falling 0x1111).register
    0 .either 0x2222).register 5 .rising 0x5555 with active := true }

/-- A block with that listener, an interrupt and the two bytes it will draw. -/
def interrupt (flag cap : Byte) : State :=
  { block [] [] with lst := listener, inputs := [.irq], draws := [flag, cap] }

/-- A platform that does not promise SOLE_MASTER. -/
def manyMasters : State := { pins 0 with cfg := { cfg with soleMaster := false } }

/-- A bit view at a volatile address, whose next read draws 0. -/
def outputView : State := { block [(2, bitAt 0xE0 3 false 1)] [] with draws := [0x00] }

def next? (r : Result) : Option State :=
  match r with
  | .next t => some t
  | .fault _ => none
  | .refused _ => none

/-- What one command shows. -/
def shows (i : Instr) (s : State) : Option (List Obs) := (next? (exec i s)).map (·.trace)

/-- What one step shows. -/
def stepShows (s : State) : Option (List Obs) := (next? (step s)).map (·.trace)

/-! ## One command -/

/-- V54: the overlap of one owner is allowed. -/
theorem test_vbit_same_owner : ((next? (exec (.vbit 1 0x13 0 false 1) (block [(0, nibAt 0x13 .lower false 1)] []))).map
    fun t => (t.view? 1, t.trace)) = some (some (bitAt 0x13 0 false 1), [.resp 0x0000]) := by decide

/-- V55: the overlap of two owners is not. -/
theorem test_vbit_overlap : shows (.vbit 2 0x13 3 true 2) (block [(0, nibAt 0x13 .lower false 1)] []) =
    some [.resp 0x0500] := by decide

/-- V56 then V58: the upper nibble contains bit 4 of owner 2. -/
theorem test_vnib_overlap : shows (.vnib 3 0x13 .upper false 3) (block [(2, bitAt 0x13 4 true 2)] []) =
    some [.resp 0x0500] := by decide

/-- V62's handle, the last slot; V61's is out of range. -/
theorem test_vnib_last_slot : shows (.vnib 31 0x20 .lower false 0) (block [] []) = some [.resp 0x0000] ∧
    shows (.vnib 32 0x20 .lower false 0) (block [] []) = some [.resp 0x0500] := by decide

/-- M2. -/
theorem test_mbind : ((next? (exec (.mbind 0 2 3) (pins 0xFF))).map fun t => (t.motor? 0, t.thr, t.trace)) =
    some (some { pin1 := 2, pin2 := 3, mode := .brake }, none,
      [.read 0x12 0xFF, .write 0x12 0xF7, .read 0x12 0xF7, .write 0x12 0xF3, .resp 0x0000]) := by decide

/-- M4c: two handles, one physical bit. -/
theorem test_mbind_same_bit : shows (.mbind 0 2 4)
    (block [(2, bitAt 0x12 3 false 1), (4, bitAt 0x12 3 true 1)] []) = some [.resp 0x0500] := by decide

/-- V6. -/
theorem test_bget_inverted : shows (.bget 2) (block [(2, bitAt 0x12 3 true 1)] [(0x12, 0xA5)]) =
    some [.read 0x12 0xA5, .resp 0x0001] := by decide

/-- V64: a volatile register answers with a draw. -/
theorem test_bget_volatile : shows (.bget 2)
    { block [(2, bitAt 0xE0 3 false 1)] [(0xE0, 0x08)] with draws := [0x00] } =
    some [.read 0xE0 0x00, .resp 0x0000] := by decide

/-- V24. -/
theorem test_bset_inverted : shows (.bset 2 1) (block [(2, bitAt 0x12 4 true 1)] [(0x12, 0x5A)]) =
    some [.read 0x12 0x5A, .write 0x12 0x4A, .resp 0x0000] := by decide

/-- V51: the wrong kind comes before the value. -/
theorem test_bset_priority : shows (.bset 5 2) (pins 0) = some [.resp 0x0500] ∧
    shows (.bset 2 2) (pins 0) = some [.resp 0x0100] := by decide

/-- V30. -/
theorem test_nget_upper_inverted : shows (.nget 5) (pins 0) = some [.read 0x13 0xA5, .resp 0x0005] := by decide

/-- V38. -/
theorem test_nset_upper_inverted : shows (.nset 5 0xC) (pins 0) =
    some [.read 0x13 0xA5, .write 0x13 0x35, .resp 0x0000] := by decide

/-- V47. -/
theorem test_nset_domain : shows (.nset 5 16) (pins 0) = some [.resp 0x0100] := by decide

/-- MX9, its register byte; the mode and THR after M8b. -/
theorem test_brake : ((next? (exec (.brake 0) (motor 0xA9 .forward none 300))).map fun t => (t.motor? 0, t.thr, t.trace)) =
    some (some { pin1 := 2, pin2 := 3, mode := .brake }, some 300,
      [.read 0x12 0xA9, .write 0x12 0xA1, .read 0x12 0xA1, .write 0x12 0xA1, .resp 0x0000]) := by decide

/-- T8 through a command: the clock went backwards. -/
theorem test_brake_clock_backwards : shows (.brake 0) (motor 0xA1 .brake (some 1000) 999) = some [.resp 0x0300] := by decide

/-- M7 and M8: one tick early, and on the boundary. -/
theorem test_coast_boundary : shows (.coast 0) (motor 0x08 .forward (some 0) 149) = some [.resp 0x0300] ∧
    shows (.coast 0) (motor 0x08 .forward (some 0) 150) =
      some [.read 0x12 0x08, .write 0x12 0x08, .read 0x12 0x08, .write 0x12 0x0C, .resp 0x0000] := by decide

/-- The swapped PATTERN: coast is (0,0), so it clears both pins (R14). -/
theorem test_coast_swapped :
    shows (.coast 0) { motor 0xAD .brake none 0 with cfg := { cfg with pattern := .swapped } } =
      some [.read 0x12 0xAD, .write 0x12 0xA5, .read 0x12 0xA5, .write 0x12 0xA1, .resp 0x0000] := by decide

/-- MX7. -/
theorem test_forward : shows (.forward 0) (motor 0xAD .coast none 0) =
    some [.read 0x12 0xAD, .write 0x12 0xAD, .read 0x12 0xAD, .write 0x12 0xA9, .resp 0x0000] := by decide

/-- T11: the sum is formed without wrap. -/
theorem test_forward_no_wrap : shows (.forward 0)
    (motor 0xAD .coast (some 18446744073709551515) 18446744073709551615) = some [.resp 0x0300] := by decide

/-- MX8. -/
theorem test_reverse : shows (.reverse 0) (motor 0xAD .coast none 0) =
    some [.read 0x12 0xAD, .write 0x12 0xA5, .read 0x12 0xA5, .write 0x12 0xA5, .resp 0x0000] := by decide

/-- P3: forbidden comes before too soon. -/
theorem test_reverse_priority : shows (.reverse 0) (motor 0x08 .forward (some 100) 101) = some [.resp 0x0200] := by decide

/-- P1 line 8; M14's MMODE 1. -/
theorem test_mmode : shows (.mmode 0) (motor 0x04 .reverse none 0) = some [.resp 0x0003] ∧
    shows (.mmode 1) (motor 0x04 .reverse none 0) = some [.resp 0x0500] := by decide

/-- L5's LREG replaces the tag of its key and of no other. -/
theorem test_lreg_replaces : ((next? (exec (.lreg 3 1 0x0001) { block [] [] with lst := listener })).map
    fun t => (t.lst.cb 3 .rising, t.lst.cb 3 .either, t.lst.active)) = some (some 0x0001, some 0x0007, true) := by decide

theorem test_lact : ((next? (exec .lact State.reset)).map fun t => (t.lst.active, t.trace)) =
    some (true, [.resp 0x0000]) := by decide

/-- L9: the registration is kept. -/
theorem test_ldeact : ((next? (exec .ldeact { block [] [] with lst := listener })).map
    fun t => (t.lst.active, t.lst.cb 3 .rising)) = some (false, some 0xBEEF) := by decide

/-- Narrower parameters (R4): the slot keeps the low AW bits of the address and the low OWNW bits of the owner. -/
theorem test_vbit_narrow : ((next? (exec (.vbit 1 0xF3 0 false 9) { block [] [] with cfg := { cfg with aw := 4, ownw := 3 } })).map
    fun t => t.view? 1) = some (some (bitAt 3 0 false 1)) := by decide

/-! ## One step -/

/-- I1 and P5: an illegal word. -/
theorem test_step_illegal : stepShows { pins 0 with inputs := [.command 0x40900001] } = some [.resp 0x0600] := by decide

/-- A word placed by `withFetchWord` is the first thing the machine runs after reset (I22). -/
theorem test_step_withFetchWord : stepShows (State.reset.withFetchWord 32 0x80000000) = some [.resp 0x0500] := by decide

/-- L4. -/
theorem test_step_dispatch : stepShows (interrupt 0x09 0x08) =
    some [.read 0xF0 0x09, .read 0xF1 0x08, .event 0x11110900, .event 0x22220908, .event 0xBEEF0937,
      .event 0x0007093B] := by decide

/-- L6's draws on L4's listener: pin 3 fell, only `either` matches. -/
theorem test_step_dispatch_falling : stepShows (interrupt 0x08 0x00) =
    some [.read 0xF0 0x08, .read 0xF1 0x00, .event 0x00070838] := by decide

/-- R161: RESET between the read and the write of a set. -/
theorem test_step_reset_in_set : ((next? (step { pins 0xA5 with inputs := [.resetInCommand 0x50200001 1] })).map
    fun t => (t.trace, t.rd, t.vt)) = some ([.read 0x12 0xA5], [(0x12, 0xA5), (0x13, 0xA5)], []) := by decide

/-- R42: another master's write to a non-volatile register, between commands and inside one, with the promise and without. -/
theorem test_step_other_master :
    step { pins 0 with inputs := [.foreignWrite 0x12 9] } = .refused .soleMasterBroken ∧
    step { manyMasters with inputs := [.foreignWrite 0x12 9] } = .refused .lostUpdateRace ∧
    step { manyMasters with inputs := [.foreignWriteInCommand 0x50200001 1 0x12 9] } = .refused .lostUpdateRace :=
  ⟨rfl, rfl, rfl⟩

/-- R24: a volatile register changes between the read and the write of a set to it (which stands), and after both. -/
theorem test_step_volatile_amid :
    ((next? (step { outputView with inputs := [.foreignWriteInCommand 0x50200001 1 0xE0 9] })).map fun t => (t.rd, t.trace)) =
      some ([(0xE0, 0x08)], [.read 0xE0 0x00, .write 0xE0 0x08, .resp 0x0000]) ∧
    ((next? (step { outputView with inputs := [.foreignWriteInCommand 0x50200001 2 0xE0 9] })).map fun t => (t.rd, t.trace)) =
      some ([(0xE0, 9)], [.read 0xE0 0x00, .write 0xE0 0x08, .resp 0x0000]) := by decide

/-- Z1: RESET touches no register. -/
theorem test_step_reset : ((next? (step { motor 0x04 .reverse (some 1300) 1300 with inputs := [.reset] })).map
    fun t => (t.thr, t.rd, t.trace)) = some (none, [(0x12, 0x04), (0x13, 0xA5)], []) := by decide

/-! ## States that meet the hypotheses of the obligations

Each theorem shows concrete states and operands that meet all hypotheses of the obligation it is named after; where a
statement has clauses, there is a case for each, at the ends of the ranges. -/

/-- A table with one entry. -/
theorem at_one {α : Type} {a k : Nat} {x y : α} (h : Table.at? [(k, x)] a = some y) : a = k ∧ x = y := by
  simp only [Table.at?] at h
  split at h
  · exact ⟨‹_›, by simpa using h⟩
  · cases h

theorem pins_view {a : Byte} {h : Handle} {v : View} (e : (pins a).view? h = some v) :
    v.own = 1 ∧ v.addr < 2 ^ cfg.aw := by
  simp only [State.view?, pins, block, Table.at?] at e
  split at e
  · cases e; exact ⟨rfl, by decide⟩
  · split at e
    · cases e; exact ⟨rfl, by decide⟩
    · split at e
      · cases e; exact ⟨rfl, by decide⟩
      · cases e

theorem pins_pin1 (a : Byte) : (pins a).hasBitView 2 (bitAt 0x12 3 false 1) 3 :=
  ⟨(by decide : 2 < 32), rfl, rfl⟩

theorem pins_pin2 (a : Byte) : (pins a).hasBitView 3 (bitAt 0x12 2 false 1) 2 :=
  ⟨(by decide : 3 < 32), rfl, rfl⟩

theorem pins_nibble (a : Byte) : (pins a).hasNibbleView 5 (nibAt 0x13 .upper true 1) .upper :=
  ⟨(by decide : 5 < 32), rfl, rfl⟩

theorem pins_apart : ¬ (bitAt 0x12 3 false 1).sharesBit (bitAt 0x12 2 false 1) := by
  rintro ⟨-, k, h1, h2⟩
  exact absurd (h1.symm.trans h2) (by decide)

theorem motor_pin1 (a : Byte) (mode : Mode) (thr : Option Nat) (now : Nat) :
    (motor a mode thr now).hasBitView 2 (bitAt 0x12 3 false 1) 3 := ⟨(by decide : 2 < 32), rfl, rfl⟩

theorem motor_pin2 (a : Byte) (mode : Mode) (thr : Option Nat) (now : Nat) :
    (motor a mode thr now).hasBitView 3 (bitAt 0x12 2 false 1) 2 := ⟨(by decide : 3 < 32), rfl, rfl⟩

theorem motor_bound (a : Byte) (mode : Mode) (thr : Option Nat) (now : Nat) :
    (motor a mode thr now).hasMotor 0 { pin1 := 2, pin2 := 3, mode := mode } := ⟨(by decide : 0 < 4), rfl⟩

theorem motor_inv {a : Byte} {mode : Mode} {thr : Option Nat} {now : Nat} (hn : now < 2 ^ 64)
    (ht : thr.all (· < 2 ^ 64) = true) : (motor a mode thr now).Inv where
  rdWf := rfl
  vtWf := rfl
  mtWf := rfl
  pins := by
    intro m mot h
    obtain ⟨-, rfl⟩ := at_one h
    exact ⟨_, _, _, _, motor_pin1 .., motor_pin2 .., pins_apart⟩
  pinsApart := by
    intro m n mot other hm hn ne
    exact absurd (BitVec.eq_of_toNat_eq ((at_one hm).1.trans (at_one hn).1.symm)) ne
  oneOwner := by
    intro _ g h v w hg hh _
    exact (pins_view (a := a) hg).1.trans (pins_view (a := a) hh).1.symm
  viewsFit := fun h v hv => ⟨(pins_view (a := a) hv).2, (pins_view (a := a) hv).1 ▸ (by decide : 1 < 2 ^ cfg.ownw)⟩
  timeFits := hn
  thrFits := by
    rintro last h
    obtain rfl : thr = some last := h
    exact of_decide_eq_true (p := last < 2 ^ 64) ht
  tagsFit := by
    intro p e tag h
    exact absurd ((Listener.initial_cb p e).symm.trans h) (by simp)

theorem motor_coherent : (motor 0x08 .forward (some 1000) 1150).coherent 0 :=
  ⟨_, _, _, _, _, motor_bound .., motor_pin1 .., motor_pin2 .., by decide, by decide⟩

theorem motor_steady (a : Byte) (mode : Mode) (thr : Option Nat) (now : Nat) : (motor a mode thr now).pinsSteady 0 := by
  intro mot h v hm hh hv
  obtain ⟨-, rfl⟩ := at_one hm
  rcases hh with rfl | rfl
  · cases hv.symm.trans (motor_pin1 a mode thr now).2.1; rfl
  · cases hv.symm.trans (motor_pin2 a mode thr now).2.1; rfl

theorem motor_window : (motor 0x08 .forward (some 1000) 1150).windowElapsed := by
  rintro last h
  cases h
  decide

theorem cfg_admitted : admitted cfg := by unfold admitted; decide

theorem witness_DecodeOfEncode : (Instr.lreg 7 2 0xFFFF).wellFormed = true := rfl

theorem witness_EncodeOfDecode : decode 0x1FFFF8F7 = .ok (.vbit 255 0xFF 7 true 15) := rfl

/-- One word for each disjunct, its last word the all-ones one. -/
theorem witness_IllegalWordsAnswerIllegalCommand :
    (∀ w ∈ ([0x00000000, 0x10212113, 0x20513873, 0x30010203, 0x40200001, 0x70200101, 0x80000004, 0x90000001, 0xA3300001,
      0xC8000000, 0xFFFFFFFF] : List Word), ∃ e, decode w = .error e) ∧
    ({ pins 0 with inputs := [.command 0xFFFFFFFF] } : State).inputs = [.command 0xFFFFFFFF] := by
  refine ⟨fun w hw => ?_, rfl⟩
  fin_cases hw <;> exact ⟨_, rfl⟩

theorem witness_StepRunsDecodedCommand : decode 0x40200000 = .ok (.bget 2) ∧
    ({ pins 0 with inputs := [.command 0x40200000, .irq] } : State).inputs = [.command 0x40200000, .irq] := ⟨rfl, rfl⟩

/-- A value other than 0 from BGET, NGET and MMODE. -/
theorem witness_EveryWordIsAnsweredOnce :
    stepShows { pins 0x08 with inputs := [.command 0x40200000] } = some [.read 0x12 0x08, .resp 0x0001] ∧
    stepShows { pins 0x08 with inputs := [.command 0x60500000] } = some [.read 0x13 0xA5, .resp 0x0005] ∧
    stepShows { motor 0x04 .reverse none 0 with inputs := [.command 0x90000000] } = some [.resp 0x0003] ∧
    stepShows { motor 0x04 .reverse none 0 with inputs := [.foreignWriteInCommand 0x90000000 0 0xE0 1] } = some [.resp 0x0003] := by
  decide

theorem witness_ErrorsChangeNothing : ∃ t, exec (.bset 2 2) (pins 0) = .next t ∧
    t.trace = (pins 0).trace ++ [] ++ [.resp 0x0100] ∧ statusOf 0x0100 ≠ 0 := ⟨_, rfl, rfl, by decide⟩

/-- Each status a command can end with. -/
theorem witness_StatusesByCommand :
    shows (.nset 5 255) (pins 0) = some [.resp 0x0100] ∧
    shows (.forward 0) (motor 0x04 .reverse none 0) = some [.resp 0x0200] ∧
    shows (.coast 0) (motor 0x08 .forward (some 1000) 1149) = some [.resp 0x0300] ∧
    shows (.mmode 3) (pins 0) = some [.resp 0x0500] ∧
    shows (.lreg 0 3 0) (pins 0) = some [.resp 0x0600] := by decide

theorem witness_MaskAndOffsetOfSlot : (bitAt 0x12 7 false 1).kind = .bit 7 ∧
    (nibAt 0x13 .lower true 7).kind = .nibble .lower ∧ (nibAt 0x13 .upper true 7).kind = .nibble .upper := ⟨rfl, rfl, rfl⟩

/-- The last slot, on a block with a view of the same owner over the same bit. -/
theorem witness_VbitBindsSlot : admitted (pins 0).cfg ∧ (31 : Handle).toNat < (pins 0).cfg.nviews ∧
    (pins 0).view? 31 = none ∧ ((pins 0).cfg.overlapCheck = true → ∀ g w, g.toNat < (pins 0).cfg.nviews →
      (pins 0).view? g = some w → w.addr = 0x12 → w.covers (3 : BitVec 3).toNat → w.own = 1) :=
  ⟨cfg_admitted, by decide, rfl, fun _ _ _ _ h _ _ => (pins_view h).1⟩

theorem witness_VnibBindsSlot : admitted (pins 0).cfg ∧ (31 : Handle).toNat < (pins 0).cfg.nviews ∧
    (pins 0).view? 31 = none ∧ ((pins 0).cfg.overlapCheck = true → ∀ g w, g.toNat < (pins 0).cfg.nviews →
      (pins 0).view? g = some w → w.addr = 0x12 →
      (∃ k, w.covers k ∧ if NibblePos.lower = .lower then k < 4 else 4 ≤ k ∧ k < 8) → w.own = 1) :=
  ⟨cfg_admitted, by decide, rfl, fun _ _ _ _ h _ _ => (pins_view h).1⟩

/-- The three reasons: out of range, bound, another owner's bit. -/
theorem witness_BindRefusedExactly : admitted (pins 0).cfg ∧ (pins 0).cfg.nviews ≤ (32 : Handle).toNat ∧
    (pins 0).view? 2 ≠ none ∧ ((pins 0).cfg.overlapCheck = true ∧ ∃ g w, g.toNat < (pins 0).cfg.nviews ∧
      (pins 0).view? g = some w ∧ w.addr = 0x12 ∧ w.covers (3 : BitVec 3).toNat ∧ w.own ≠ 9) :=
  ⟨cfg_admitted, by decide, by decide, rfl, 2, _, by decide, rfl, rfl, rfl, by decide⟩

/-- A volatile and a non-volatile register. -/
theorem witness_BgetAnswersLogicalBit : (pins 0).hasBitView 2 (bitAt 0x12 3 false 1) 3 ∧
    (block [(31, bitAt 0xE0 7 true 1)] []).hasBitView 31 (bitAt 0xE0 7 true 1) 7 ∧ isVolatile cfg 0xE0 = true :=
  ⟨pins_pin1 0, ⟨by decide, rfl, rfl⟩, by decide⟩

theorem witness_NgetAnswersLogicalNibble : (pins 0).hasNibbleView 5 (nibAt 0x13 .upper true 1) .upper := pins_nibble 0

theorem witness_BsetReplacesTheBit : (pins 0).hasBitView 2 (bitAt 0x12 3 false 1) 3 ∧ (1 : Byte).toNat ≤ 1 :=
  ⟨pins_pin1 0, by decide⟩

theorem witness_NsetReplacesTheNibble : (pins 0).hasNibbleView 5 (nibAt 0x13 .upper true 1) .upper ∧ (15 : Byte).toNat ≤ 15 :=
  ⟨pins_nibble 0, by decide⟩

/-- A handle out of range, an unbound one, and one of the other kind. -/
theorem witness_WrongHandleIsConfigError : shows (.bget 32) (pins 0) = some [.resp 0x0500] ∧
    shows (.nset 31 255) (pins 0) = some [.resp 0x0500] ∧ shows (.bset 5 2) (pins 0) = some [.resp 0x0500] ∧
    shows (.nget 2) (pins 0) = some [.resp 0x0500] := by decide

/-- The least values that are refused. -/
theorem witness_OutOfRangeValueIsDomainError : (pins 0).hasBitView 2 (bitAt 0x12 3 false 1) 3 ∧ 1 < (2 : Byte).toNat ∧
    (pins 0).hasNibbleView 5 (nibAt 0x13 .upper true 1) .upper ∧ 15 < (16 : Byte).toNat :=
  ⟨pins_pin1 0, by decide, pins_nibble 0, by decide⟩

theorem witness_SetThenGetRoundTrips : (pins 0).hasBitView 2 (bitAt 0x12 3 false 1) 3 ∧
    isVolatile (pins 0).cfg 0x12 = false ∧ (1 : Byte).toNat ≤ 1 ∧
    (pins 0).hasNibbleView 5 (nibAt 0x13 .upper true 1) .upper ∧ isVolatile (pins 0).cfg 0x13 = false ∧
    (15 : Byte).toNat ≤ 15 := ⟨pins_pin1 0, rfl, by decide, pins_nibble 0, rfl, by decide⟩

theorem witness_SetPreservesOtherBits : (pins 0xA5).view? 2 = some (bitAt 0x12 3 false 1) ∧
    ∃ t, exec (.bset 2 1) (pins 0xA5) = .next t ∧
      t.trace = (pins 0xA5).trace ++ [.read 0x12 0xA5, .write 0x12 0xAD] ++ [.resp 0x0000] :=
  ⟨rfl, _, rfl, by decide⟩

/-- V63's two views of one bit, of opposite polarity; bit 7 of 0x13 as a bit view under its upper half, as a setter and as a
getter; two views of that half, and the half and the other one. -/
def shared : State :=
  block [(2, bitAt 0x12 3 false 1), (4, bitAt 0x12 3 true 1), (5, nibAt 0x13 .upper true 1), (6, nibAt 0x13 .upper false 1),
    (7, bitAt 0x13 7 false 1), (8, nibAt 0x13 .lower false 1)] [(0x12, 0x00), (0x13, 0xA5)]

theorem witness_ViewsOfOneBitAgree :
    shared.hasBitView 2 (bitAt 0x12 3 false 1) 3 ∧ shared.hasBitView 4 (bitAt 0x12 3 true 1) 3 ∧
    isVolatile shared.cfg 0x12 = false ∧ (1 : Byte).toNat ≤ 1 ∧
    shared.hasNibbleView 5 (nibAt 0x13 .upper true 1) .upper ∧ shared.hasNibbleView 6 (nibAt 0x13 .upper false 1) .upper ∧
    shared.hasBitView 7 (bitAt 0x13 7 false 1) 7 ∧ shared.hasNibbleView 8 (nibAt 0x13 .lower false 1) .lower ∧
    isVolatile shared.cfg 0x13 = false ∧ (15 : Byte).toNat ≤ 15 ∧
    (nibAt 0x13 .upper true 1).covers 7 ∧ (bitAt 0x13 7 false 1).covers 7 ∧ ¬ (bitAt 0x13 7 false 1).covers 4 ∧
    ¬ (nibAt 0x13 .lower false 1).covers 4 := by
  simp [State.hasBitView, State.hasNibbleView, View.covers, bitAt, nibAt]
  decide

/-- The last motor slot. -/
theorem witness_MbindBuildsMotorInBrake : admitted (pins 0).cfg ∧ (3 : MotorId).toNat < (pins 0).cfg.nmotors ∧
    (pins 0).motor? 3 = none ∧ (pins 0).hasBitView 2 (bitAt 0x12 3 false 1) 3 ∧
    (pins 0).hasBitView 3 (bitAt 0x12 2 false 1) 2 ∧ (2 : Handle) ≠ 3 ∧
    ¬ (bitAt 0x12 3 false 1).sharesBit (bitAt 0x12 2 false 1) ∧
    (∀ k mot, (pins 0).hasMotor k mot → mot.pin1 ≠ 2 ∧ mot.pin1 ≠ 3 ∧ mot.pin2 ≠ 2 ∧ mot.pin2 ≠ 3) :=
  ⟨cfg_admitted, by decide, rfl, pins_pin1 0, pins_pin2 0, by decide, pins_apart, fun _ _ h => nomatch h.2⟩

/-- Each reason for a refusal. -/
theorem witness_MbindRefusedExactly : admitted cfg ∧ shows (.mbind 4 2 3) (pins 0) = some [.resp 0x0500] ∧
    shows (.mbind 0 2 3) (motor 0 .brake none 0) = some [.resp 0x0500] ∧ shows (.mbind 0 2 5) (pins 0) = some [.resp 0x0500] ∧
    shows (.mbind 0 2 2) (pins 0) = some [.resp 0x0500] ∧
    shows (.mbind 1 3 2) (motor 0 .brake none 0) = some [.resp 0x0500] :=
  ⟨cfg_admitted, by decide⟩

/-- On the boundary of the window. -/
theorem witness_AcceptedTransitionDrivesPins :
    (motor 0x08 .forward (some 1000) 1150).hasMotor 0 { pin1 := 2, pin2 := 3, mode := .forward } ∧
    (motor 0x08 .forward (some 1000) 1150).hasBitView 2 (bitAt 0x12 3 false 1) 3 ∧
    (motor 0x08 .forward (some 1000) 1150).hasBitView 3 (bitAt 0x12 2 false 1) 2 ∧ ¬ forbiddenPair .forward .coast ∧
    (motor 0x08 .forward (some 1000) 1150).windowElapsed :=
  ⟨motor_bound .., motor_pin1 .., motor_pin2 .., by simp [forbiddenPair], motor_window⟩

/-- Both forbidden pairs. -/
theorem witness_ForbiddenExactlyForwardReverse :
    (motor 0x08 .forward (some 100) 101).hasMotor 0 { pin1 := 2, pin2 := 3, mode := .forward } ∧
    (motor 0x04 .reverse none 0).hasMotor 0 { pin1 := 2, pin2 := 3, mode := .reverse } := ⟨motor_bound .., motor_bound ..⟩

/-- The last tick inside the window. -/
theorem witness_TooSoonExactlyInsideWindow :
    (motor 0x08 .forward (some 1000) 1149).hasMotor 0 { pin1 := 2, pin2 := 3, mode := .forward } ∧
    ¬ forbiddenPair .forward .coast ∧ (motor 0x08 .forward (some 1000) 1149).thr = some 1000 ∧
    1149 < 1000 + cfg.windowMs * cfg.tickPerMs :=
  ⟨motor_bound .., by simp [forbiddenPair], rfl, by decide⟩

/-- The first handle out of range, and an unbound one. -/
theorem witness_UnboundMotorIsConfigError : shows (.coast 4) (motor 0 .brake none 0) = some [.resp 0x0500] ∧
    shows (.mmode 3) (motor 0 .brake none 0) = some [.resp 0x0500] := by decide

/-- A bound motor, the first handle out of range, and an unbound one. -/
theorem witness_MmodeAnswersMode : (motor 0x04 .reverse none 0).hasMotor 0 { pin1 := 2, pin2 := 3, mode := .reverse } ∧
    (motor 0x04 .reverse none 0).cfg.nmotors ≤ (4 : MotorId).toNat ∧ (motor 0x04 .reverse none 0).motor? 3 = none :=
  ⟨motor_bound .., by decide, rfl⟩

/-- T1, T6 and T5. -/
theorem witness_ThrottleComparesAndRecords : (pins 0).thr = none ∧
    (motor 0 .brake (some 1000) 0).thr = some 1000 ∧
    1000 + cfg.windowMs * cfg.tickPerMs ≤ 1150 ∧
    1149 < 1000 + cfg.windowMs * cfg.tickPerMs := ⟨rfl, rfl, by decide, by decide⟩

/-- An accepted transition, its motor, and a time on each side of the end of the window. -/
theorem witness_WindowSpansAllMotors : (motor 0xA1 .brake none 1000).Inv ∧
    (∃ t, exec (Instr.mtrans 0 .forward) (motor 0xA1 .brake none 1000) = .next t ∧
      t.trace = (motor 0xA1 .brake none 1000).trace ++
        [.read 0x12 0xA1, .write 0x12 0xA9, .read 0x12 0xA9, .write 0x12 0xA9] ++ [.resp 0x0000] ∧
      t.hasMotor 0 { pin1 := 2, pin2 := 3, mode := .forward }) ∧
    ¬ forbiddenPair .forward .coast ∧ 1149 < 1000 + cfg.windowMs * cfg.tickPerMs ∧
    1000 + cfg.windowMs * cfg.tickPerMs ≤ 1150 :=
  ⟨motor_inv (by decide) (by decide), ⟨_, rfl, by decide, by decide, rfl⟩, by simp [forbiddenPair], by decide, by decide⟩

/-- A step of each kind: none of the two, each reset, an accepted transition. -/
theorem witness_OnlyAcceptedTransitionsRecord :
    ((next? (step { motor 0xA1 .brake (some 7) 1000 with inputs := [.command 0x90000000] })).map (·.thr)) =
      some (some 7) ∧
    ((next? (step { motor 0xA1 .brake (some 7) 1000 with inputs := [.reset] })).map (·.thr)) = some none ∧
    ((next? (step { motor 0xA1 .brake (some 7) 1000 with inputs := [.resetInCommand 0x80000002 4] })).map (·.thr)) =
      some none ∧
    ((next? (step { motor 0xA1 .brake (some 7) 1000 with inputs := [.resetInDispatch 0] })).map (·.thr)) = some none ∧
    ((next? (step { motor 0xA1 .brake (some 7) 1000 with inputs := [.command 0x80000002] })).map (·.thr)) =
      some (some 1000) := by decide

theorem witness_AcceptedTransitionsAreAWindowApart : ∃ t,
    Host.Core.run Sys2Proof.core 2
      { motor 0xA1 .brake (some 7) 0 with inputs := [.time 1000, .command 0x80000002] } = .next t ∧ t.thr = some 1000 ∧
    (motor 0xA1 .brake (some 7) 0).thr = some 7 ∧
    ∀ i ∈ [Input.time 1000, Input.command 0x80000002], i.resets = false := ⟨_, rfl, rfl, rfl, by decide⟩

theorem witness_ModeChangesOnlyByTransition : ∃ t,
    step { motor 0xA1 .brake none 0 with inputs := [.command 0x80000002] } = .next t ∧
    (motor 0xA1 .brake none 0).motor? 0 = some { pin1 := 2, pin2 := 3, mode := .brake } ∧
    t.motor? 0 = some { pin1 := 2, pin2 := 3, mode := .forward } := ⟨_, rfl, rfl, rfl⟩

/-- A bind of the last slot, and an MBIND. -/
theorem witness_SlotsAreWrittenOnce :
    ((next? (step { pins 0 with inputs := [.command 0x11F20000] })).map (·.view? 31)) =
      some (some (bitAt 0x20 0 false 0)) ∧
    ((next? (step { pins 0 with inputs := [.command 0x30000203] })).map (·.motor? 0)) =
      some (some { pin1 := 2, pin2 := 3, mode := .brake }) ∧
    (Input.command 0x11F20000).resets = false := by decide

theorem witness_SelfTransitionIsIdempotent : (motor 0x08 .forward (some 1000) 1150).Inv ∧
    (motor 0x08 .forward (some 1000) 1150).hasMotor 0 { pin1 := 2, pin2 := 3, mode := .forward } ∧
    (motor 0x08 .forward (some 1000) 1150).coherent 0 ∧ (motor 0x08 .forward (some 1000) 1150).pinsSteady 0 ∧
    (motor 0x08 .forward (some 1000) 1150).windowElapsed :=
  ⟨motor_inv (by decide) (by decide), motor_bound .., motor_coherent, motor_steady _ _ _ _, motor_window⟩

/-- MX2, the transition of the third clause. -/
theorem witness_PinsBetweenTheTwoWrites : (motor 0xA1 .brake none 0).Inv ∧
    (motor 0xA1 .brake none 0).hasMotor 0 { pin1 := 2, pin2 := 3, mode := .brake } ∧
    (motor 0xA1 .brake none 0).hasBitView 2 (bitAt 0x12 3 false 1) 3 ∧
    (motor 0xA1 .brake none 0).hasBitView 3 (bitAt 0x12 2 false 1) 2 ∧
    (motor 0xA1 .brake none 0).coherent 0 ∧ (motor 0xA1 .brake none 0).pinsSteady 0 ∧ cfg.pattern = .printed ∧
    (∃ t, exec (Instr.mtrans 0 .coast) (motor 0xA1 .brake none 0) = .next t ∧
      t.trace = (motor 0xA1 .brake none 0).trace ++
        [.read 0x12 0xA1, .write 0x12 0xA9, .read 0x12 0xA9, .write 0x12 0xAD] ++ [.resp 0x0000]) :=
  ⟨motor_inv (by decide) (by decide), motor_bound .., motor_pin1 .., motor_pin2 ..,
    ⟨_, _, _, _, _, motor_bound .., motor_pin1 .., motor_pin2 .., by decide, by decide⟩, motor_steady _ _ _ _, rfl,
    ⟨_, rfl, by decide⟩⟩

/-- MX5, the transition of the fourth clause. -/
theorem witness_PinsBetweenTheTwoWrites_coast : (motor 0xAD .coast none 0).Inv ∧
    (motor 0xAD .coast none 0).hasMotor 0 { pin1 := 2, pin2 := 3, mode := .coast } ∧
    (motor 0xAD .coast none 0).hasBitView 2 (bitAt 0x12 3 false 1) 3 ∧
    (motor 0xAD .coast none 0).hasBitView 3 (bitAt 0x12 2 false 1) 2 ∧
    (motor 0xAD .coast none 0).coherent 0 ∧ (motor 0xAD .coast none 0).pinsSteady 0 ∧ cfg.pattern = .printed ∧
    (∃ t, exec (Instr.mtrans 0 .brake) (motor 0xAD .coast none 0) = .next t ∧
      t.trace = (motor 0xAD .coast none 0).trace ++
        [.read 0x12 0xAD, .write 0x12 0xA5, .read 0x12 0xA5, .write 0x12 0xA1] ++ [.resp 0x0000]) :=
  ⟨motor_inv (by decide) (by decide), motor_bound .., motor_pin1 .., motor_pin2 ..,
    ⟨_, _, _, _, _, motor_bound .., motor_pin1 .., motor_pin2 .., by decide, by decide⟩, motor_steady _ _ _ _, rfl,
    ⟨_, rfl, by decide⟩⟩

theorem witness_IrqIgnoredWhileInactive : ({ pins 0 with inputs := [.irq] } : State).inputs = [.irq] ∧
    (pins 0).lst.active = false := ⟨rfl, rfl⟩

/-- An active and an inactive listener. -/
theorem witness_IrqEmitsMatchingEvents : (interrupt 0x81 0x80).inputs = [.irq] ∧ (interrupt 0x81 0x80).lst.active = true ∧
    ({ pins 0 with inputs := [.irq] } : State).inputs = [.irq] ∧ (pins 0).lst.active = false := ⟨rfl, rfl, rfl, rfl⟩

theorem witness_WorkedDispatch : (interrupt 0x09 0x08).lst = listener ∧ (interrupt 0x09 0x08).inputs = [.irq] ∧
    (interrupt 0x09 0x08).draws = [0x09, 0x08] ∧ (interrupt 0x08 0x08).draws = [0x08, 0x08] := ⟨rfl, rfl, rfl, rfl⟩

theorem witness_OtherCommandsDoNotReadListener : (∀ p e c, Instr.bget 2 ≠ .lreg p e c) ∧ Instr.bget 2 ≠ .lact ∧
    Instr.bget 2 ≠ .ldeact ∧ ∃ t, exec (.bget 2) (pins 0) = .next t :=
  ⟨fun _ _ _ => Instr.noConfusion, Instr.noConfusion, Instr.noConfusion, _, rfl⟩

theorem witness_ResetClearsBlock : ({ motor 0x04 .reverse (some 1300) 1300 with inputs := [.reset] } : State).inputs =
    [.reset] := rfl

/-- A set cut before its write, and an MBIND cut between its two writes. -/
theorem witness_ResetAbandonsCommand :
    (∃ full, runCommand 0x50200001 { pins 0xA5 with inputs := [] } = .next full) ∧
    decode 0x50200001 = .ok (.bset 2 1) ∧
    (∃ full, runCommand 0x30000203 { pins 0xFF with inputs := [] } = .next full) ∧
    stepShows { pins 0xFF with inputs := [.resetInCommand 0x30000203 2] } =
      some [.read 0x12 0xFF, .write 0x12 0xF7] := ⟨⟨_, rfl⟩, rfl, ⟨_, rfl⟩, by decide⟩

/-- R174: a transition one tick after a reset is accepted. -/
theorem witness_ResetForgetsThrottle : Input.resets (.resetInCommand 0x80000000 3) = true ∧
    ((next? (step { motor 0x04 .reverse (some 1300) 1300 with inputs := [.resetInCommand 0x80000000 3] })).map (·.thr)) =
      some none ∧ (motor 0x04 .reverse none 1301).thr = none := by decide

/-- A volatile and a non-volatile address, an address beyond AW, each input by which another agent writes. -/
theorem witness_OutsideInputsAct : isVolatile (pins 0).cfg (0xE0 % 2 ^ (pins 0).cfg.aw) = true ∧
    isVolatile (pins 0).cfg (0x112 % 2 ^ (pins 0).cfg.aw) = false ∧ (pins 0).cfg.soleMaster = true ∧
    manyMasters.cfg.soleMaster = false ∧ isVolatile manyMasters.cfg (0x12 % 2 ^ manyMasters.cfg.aw) = false ∧
    (Input.foreignWrite 0x112 1).foreignAddr? = some 0x112 ∧
    (Input.foreignWriteInCommand 0x50200001 1 0x12 1).foreignAddr? = some 0x12 ∧
    (Input.foreignWriteInDispatch 1 0x12 1).foreignAddr? = some 0x12 ∧
    ({ pins 0 with inputs := [.time 5] } : State).inputs = [.time 5] ∧ (pins 0).inputs = [] := by decide

theorem witness_ReadsAndWritesOfRegisters : isVolatile (pins 0).cfg 0x12 = false ∧ isVolatile (interrupt 9 8).cfg 0xF0 = true ∧
    (interrupt 9 8).draws = [9, 8] := by decide

theorem witness_RegistersFollowTheBus :
    ({ pins 0xA5 with inputs := [.command 0x50200001] } : State).soleMasterNext ∧ ∃ t,
    step { pins 0xA5 with inputs := [.command 0x50200001] } = .next t ∧
    t.trace = (pins 0xA5).trace ++ [.read 0x12 0xA5, .write 0x12 0xAD, .resp 0x0000] :=
  ⟨fun _ _ _ h e => by (cases h; cases e), _, rfl, by decide⟩

theorem witness_StepKeepsInvariant : (motor 0xA1 .brake none 0).Inv ∧
    ∃ t, step (motor 0xA1 .brake none 0) = .next t := ⟨motor_inv (by decide) (by decide), _, rfl⟩

theorem witness_MachineNeverStops : (motor 0xA1 .brake none 0).Inv ∧ (motor 0xA1 .brake none 0).soleMasterNext :=
  ⟨motor_inv (by decide) (by decide), fun _ _ _ h _ => nomatch h⟩

theorem witness_MbindMakesCoherentMotor : ∃ t, exec (.mbind 0 2 3) (pins 0xFF) = .next t ∧
    t.trace = (pins 0xFF).trace ++ [.read 0x12 0xFF, .write 0x12 0xF7, .read 0x12 0xF7, .write 0x12 0xF3] ++
      [.resp 0x0000] ∧ t.pinsSteady 0 := by
  refine ⟨_, rfl, by decide, ?_⟩
  intro mot h v hm hh hv
  obtain ⟨-, rfl⟩ := at_one hm
  rcases hh with rfl | rfl
  · cases hv.symm.trans (pins_pin1 0xFF).2.1; rfl
  · cases hv.symm.trans (pins_pin2 0xFF).2.1; rfl

theorem witness_CommandsKeepMotorCoherent : ∃ s t : State, s.Inv ∧ s.runsNext 0x80000001 [] ∧
    decode 0x80000001 = .ok (.coast 0) ∧ s.coherent 0 ∧ s.pinsSteady 0 ∧ s.sparesPins 0 (.coast 0) ∧ step s = .next t :=
  ⟨{ motor 0x08 .forward (some 1000) 1150 with inputs := [.command 0x80000001] }, _,
    { motor_inv (by decide) (by decide) (a := 0x08) (mode := .forward) (thr := some 1000) (now := 1150) with }, ⟨_, rfl, rfl⟩, rfl,
    motor_coherent, motor_steady 0x08 .forward (some 1000) 1150, .inl ⟨.coast, rfl⟩, rfl⟩

/-- An active listener, cut after the flag read and after the first event; an inactive one. -/
theorem witness_ResetAbandonsDispatch :
    stepShows { interrupt 0x09 0x08 with inputs := [.resetInDispatch 1] } = some [.read 0xF0 0x09] ∧
    stepShows { interrupt 0x09 0x08 with inputs := [.resetInDispatch 3] } =
      some [.read 0xF0 0x09, .read 0xF1 0x08, .event 0x11110900] ∧
    stepShows { pins 0 with inputs := [.resetInDispatch 1] } = some [] := by decide

/-- A set on a volatile register, and a dispatch; the ends of the set's two transactions and a position beyond them. -/
theorem witness_VolatileRegisterChangesAmidTransactions :
    isVolatile outputView.cfg (0xE0 % 2 ^ outputView.cfg.aw) = true ∧
    (∃ full, runCommand 0x50200001 { outputView with inputs := [] } = .next full) ∧
    (∀ k ∈ [0, 1, 2, 3], (next? (step { outputView with inputs := [.foreignWriteInCommand 0x50200001 k 0xE0 9] })).map (·.rd) =
      some [(0xE0, if k < 2 then 0x08 else 9)]) ∧
    isVolatile (interrupt 9 8).cfg (0xF0 % 2 ^ (interrupt 9 8).cfg.aw) = true ∧
    ((next? (step { interrupt 9 8 with inputs := [.foreignWriteInDispatch 1 0xF0 7] })).map (·.rd)) = some [(0xF0, 7)] :=
  ⟨by decide, ⟨_, rfl⟩, by decide, by decide, by decide⟩

end Sys2Proof.Tests
end

/-! PROOFS. What a step runs (R8, R18, R56), and the machine's invariant: one lemma for each update of State that says when it
keeps `State.Inv`, then commands, dispatches, resets inside either, and steps. -/

namespace Sys2Proof.Machine

variable {s t : State}

/-! ## A step runs the decoded command -/

theorem runCommand_of_decode {w : Word} {i : Instr} (h : decode w = .ok i) (s : State) : runCommand w s = exec i s := by
  simp [runCommand, h]

theorem State.withFetchWord_toNat (s : State) (w : Word) :
    s.withFetchWord 32 w.toNat = s.withInputs (.command w :: s.inputs) := by
  rw [State.withFetchWord, presentFirst, Nat.mod_eq_of_lt w.isLt, BitVec.ofNat_toNat, BitVec.setWidth_eq]

/-- Settles O5: the word at the head of the waiting inputs is taken, and `exec` runs the command it decodes to. -/
theorem stepRunsDecodedCommand : Obligations.StepRunsDecodedCommand := by
  intro s w i hd
  refine ⟨fun rest hs => ?_, ?_⟩
  · rw [step_cons hs]
    exact runCommand_of_decode hd _
  · rw [State.withFetchWord_toNat, step_cons (State.withInputs_inputs ..)]
    exact runCommand_of_decode hd s

/-! ## Updates that keep the invariant -/

/-- The invariant speaks of the block, the parameters, TIME and the canonical form of memory only. -/
theorem State.Inv.of_sameBlock (hi : s.Inv) (hb : s.sameBlock t) (hc : t.cfg = s.cfg) (ht : t.time = s.time)
    (hr : Memory.wf s.cfg.aw t.rd = true) : t.Inv := by
  obtain ⟨cfg, vt, mt, thr, lst, rd, time, inputs, draws, drawn, trace⟩ := t
  obtain ⟨rfl, rfl, rfl, rfl⟩ : vt = s.vt ∧ mt = s.mt ∧ thr = s.thr ∧ lst = s.lst := hb
  obtain rfl : cfg = s.cfg := hc
  obtain rfl : time = s.time := ht
  exact { hi with rdWf := hr }

theorem State.Inv.withRd (hi : s.Inv) {m : Memory} (hm : Memory.wf s.cfg.aw m = true) : (s.withRd m).Inv :=
  hi.of_sameBlock ⟨rfl, rfl, rfl, rfl⟩ rfl rfl hm

theorem State.Inv.withInputs (hi : s.Inv) (is : List Input) : (s.withInputs is).Inv :=
  hi.of_sameBlock ⟨rfl, rfl, rfl, rfl⟩ rfl rfl hi.rdWf

theorem State.Inv.emitAll (hi : s.Inv) (os : List Obs) : (s.emitAll os).Inv :=
  hi.of_sameBlock ⟨rfl, rfl, rfl, rfl⟩ rfl rfl hi.rdWf

theorem State.Inv.drop (hi : s.Inv) (n : Nat) : (s.drop n).Inv :=
  hi.of_sameBlock ⟨rfl, rfl, rfl, rfl⟩ rfl rfl hi.rdWf

theorem State.Inv.answered (hi : s.Inv) (e : Status) (value : Byte) : (answered e value s).Inv := hi.emitAll [_]

theorem State.Inv.afterRead (hi : s.Inv) (a : Addr) : (s.afterRead a).Inv := by
  rw [State.afterRead_eq]
  exact (hi.drop _).emitAll [_]

theorem State.Inv.withTime (hi : s.Inv) {n : Nat} (hn : n < 2 ^ s.cfg.tw) : (s.withTime n).Inv :=
  { hi with timeFits := hn }

theorem State.Inv.withThr (hi : s.Inv) {n : Nat} (hn : n < 2 ^ s.cfg.tw) : (s.withThr n).Inv :=
  { hi with thrFits := fun _ h => Option.some.inj h ▸ hn }

theorem State.Inv.withActive (hi : s.Inv) (b : Bool) : (s.withActive b).Inv := { hi with }

/-- A registration puts in one tag, which must fit, and leaves the others alone (R120). -/
theorem State.Inv.withReg (hi : s.Inv) (pin : Pin) (e : Edge) {tag : CbTag} (ht : tag < 2 ^ s.cfg.cbw) :
    (s.withReg pin e tag).Inv :=
  { hi with
    tagsFit := by
      intro p k x h
      rw [State.withReg_lst, Listener.register_cb] at h
      split at h
      · exact Option.some.inj h ▸ ht
      · exact hi.tagsFit p k x h }

/-- The reset values hold nothing the invariant could refuse (R161). -/
theorem State.Inv.resetBlock (hi : s.Inv) : (resetBlock s).Inv where
  rdWf := hi.rdWf
  vtWf := Table.wf_nil _
  mtWf := Table.wf_nil _
  pins _ _ h := by cases h
  pinsApart _ _ _ _ h := by cases h
  oneOwner _ _ _ _ _ h := by cases h
  viewsFit _ _ h := by cases h
  timeFits := hi.timeFits
  thrFits _ h := by cases h
  tagsFit p e tag h := by simp at h

/-! Binding a view -/

theorem State.Inv.view_lt (hi : s.Inv) {h : Handle} {v : View} (hv : s.view? h = some v) : h.toNat < s.cfg.nviews :=
  Table.lt_of_at? hi.vtWf hv

theorem State.Inv.hasMotor (hi : s.Inv) {m : MotorId} {mot : Motor} (hm : s.motor? m = some mot) : s.hasMotor m mot :=
  ⟨Table.lt_of_at? hi.mtWf hm, hm⟩

/-- Binding an unbound slot leaves the bound ones as they are. -/
theorem State.hasBitView.withView {h g : Handle} {v w : View} {b : BitVec 3} (hg : s.hasBitView g w b)
    (hn : s.view? h = none) : (s.withView h v).hasBitView g w b := by
  obtain ⟨hlt, hw, hk⟩ := hg
  refine ⟨hlt, ?_, hk⟩
  rw [State.withView_view?, if_neg, hw]
  rintro rfl
  rw [hn] at hw
  cases hw

/-- A bind that is not refused keeps the invariant: the new view's address and owner fit, and every bound view that shares a bit
with it has its owner (R70, R71, R73). -/
theorem State.Inv.withView (hi : s.Inv) {h : Handle} {v : View} (ok : bindRefused s h v = false)
    (hfit : v.addr < 2 ^ s.cfg.aw ∧ v.own < 2 ^ s.cfg.ownw) : (s.withView h v).Inv := by
  obtain ⟨hlt, hn, howner⟩ := bindRefused_eq_false ok
  refine { hi with
    vtWf := Table.wf_put hi.vtWf hlt v
    pins := fun m mot hm => ?pins
    oneOwner := fun ho g k w u hg hk hs => ?oneOwner
    viewsFit := fun g w hg => ?viewsFit }
  case pins =>
    obtain ⟨v1, v2, b1, b2, h1, h2, hs⟩ := hi.pins m mot hm
    exact ⟨v1, v2, b1, b2, h1.withView hn, h2.withView hn, hs⟩
  case viewsFit =>
    rw [State.withView_view?] at hg
    split at hg
    · exact Option.some.inj hg ▸ hfit
    · exact hi.viewsFit g w hg
  case oneOwner =>
    have old {x : Handle} {y : View} (hx : s.view? x = some y) (hy : y.sharesBit v) : y.own = v.own :=
      howner ho x y (hi.view_lt hx) hx hy
    rw [State.withView_view?] at hg hk
    split at hg <;> split at hk
    · exact congrArg View.own (Option.some.inj (hg.symm.trans hk))
    · obtain rfl := Option.some.inj hg
      exact (old hk (View.sharesBit_symm hs)).symm
    · obtain rfl := Option.some.inj hk
      exact old hg hs
    · exact hi.oneOwner ho g k w u hg hk hs

/-! Filling a motor slot -/

/-- No pin of the one motor is a pin of the other (R90). -/
def Motor.apart (mot other : Motor) : Prop :=
  mot.pin1 ≠ other.pin1 ∧ mot.pin1 ≠ other.pin2 ∧ mot.pin2 ≠ other.pin1 ∧ mot.pin2 ≠ other.pin2

theorem Motor.apart_symm {mot other : Motor} (h : mot.apart other) : other.apart mot :=
  ⟨h.1.symm, h.2.2.1.symm, h.2.1.symm, h.2.2.2.symm⟩

/-- A motor slot can hold two bound bit views at different bits that no other motor holds (R90). -/
theorem State.Inv.withMotor (hi : s.Inv) {m : MotorId} {mot : Motor} {v1 v2 : View} {b1 b2 : BitVec 3}
    (hm : m.toNat < s.cfg.nmotors) (h1 : s.hasBitView mot.pin1 v1 b1) (h2 : s.hasBitView mot.pin2 v2 b2)
    (hs : ¬ v1.sharesBit v2) (hapart : ∀ k other, k ≠ m → s.motor? k = some other → mot.apart other) :
    (s.withMotor m mot).Inv := by
  refine { hi with
    mtWf := Table.wf_put hi.mtWf hm mot
    pins := fun k mo hk => ?pins
    pinsApart := fun k n mo other hk hn hne => ?pinsApart }
  case pins =>
    rw [State.withMotor_motor?] at hk
    split at hk
    · obtain rfl := Option.some.inj hk
      exact ⟨v1, v2, b1, b2, h1, h2, hs⟩
    · exact hi.pins k mo hk
  case pinsApart =>
    rw [State.withMotor_motor?] at hk hn
    split at hk <;> split at hn
    case isTrue.isTrue ek en => exact absurd (ek.trans en.symm) hne
    case isTrue.isFalse en => exact Option.some.inj hk ▸ hapart n other en hn
    case isFalse.isTrue ek _ => exact Option.some.inj hn ▸ Motor.apart_symm (hapart k mo ek hk)
    case isFalse.isFalse => exact hi.pinsApart k n mo other hk hn hne

/-! Writing through views -/

theorem State.hasBitView.addr_lt (hi : s.Inv) {h : Handle} {v : View} {b : BitVec 3} (hv : s.hasBitView h v b) :
    v.addr < 2 ^ s.cfg.aw := (hi.viewsFit h v hv.2.1).1

theorem State.hasNibbleView.addr_lt (hi : s.Inv) {h : Handle} {v : View} {pos : NibblePos} (hv : s.hasNibbleView h v pos) :
    v.addr < 2 ^ s.cfg.aw := (hi.viewsFit h v hv.2.1).1

theorem State.Inv.viewSet (hi : s.Inv) {v : View} (hv : v.addr < 2 ^ s.cfg.aw) (x : Byte) : (viewSet s v x).Inv := by
  refine hi.of_sameBlock (by simp [State.sameBlock]) (by simp) (by simp) ?_
  rw [viewSet_rd]
  exact Memory.wf_write hi.rdWf hv _

theorem State.Inv.setPins (hi : s.Inv) {v1 v2 : View} (h1 : v1.addr < 2 ^ s.cfg.aw) (h2 : v2.addr < 2 ^ s.cfg.aw)
    (mode : Mode) : (setPins s v1 v2 mode).Inv :=
  (hi.viewSet h1 _).viewSet (by rwa [viewSet_cfg]) _

theorem hasBitView_setPins {v1 v2 v : View} {mode : Mode} {h : Handle} {b : BitVec 3} :
    (setPins s v1 v2 mode).hasBitView h v b ↔ s.hasBitView h v b := by
  simp [State.hasBitView]

/-! ## Commands keep the invariant -/

theorem Effect.cfg_eq {i : Instr} (h : Effect s i t) : t.cfg = s.cfg := by
  cases h <;> simp [answered]

/-- The effect of a command keeps the invariant. -/
theorem Effect.keeps_inv {i : Instr} (h : Effect s i t) (hi : s.Inv) : t.Inv := by
  cases h with
  | vbit ok => exact (hi.withView ok ⟨addrOf_lt _ _, ownOf_lt _ _⟩).answered _ _
  | vnib ok => exact (hi.withView ok ⟨addrOf_lt _ _, ownOf_lt _ _⟩).answered _ _
  | bget => exact (hi.afterRead _).answered _ _
  | nget => exact (hi.afterRead _).answered _ _
  | bset hv => exact (hi.viewSet (hv.addr_lt hi) _).answered _ _
  | nset hv => exact (hi.viewSet (hv.addr_lt hi) _).answered _ _
  | mbind ok =>
    obtain ⟨hm, -, -, free1, free2, b1, b2, h1, h2, hs⟩ := checkPins_cases ok
    refine ((hi.setPins (h1.addr_lt hi) (h2.addr_lt hi) _).withMotor (by rwa [setPins_cfg]) (hasBitView_setPins.2 h1)
      (hasBitView_setPins.2 h2) hs fun k other _ hk => ?_).answered _ _
    rw [setPins_motor?] at hk
    have apart1 := handleHeld_eq_false free1 (hi.hasMotor hk)
    have apart2 := handleHeld_eq_false free2 (hi.hasMotor hk)
    exact ⟨apart1.1.symm, apart1.2.symm, apart2.1.symm, apart2.2.symm⟩
  | @drive m tgt mot v1 v2 b1 b2 hm _ _ h1 h2 =>
    obtain ⟨w1, w2, c1, c2, q1, q2, hs⟩ := hi.pins m mot hm.2
    obtain rfl : v1 = w1 := Option.some.inj (h1.2.1.symm.trans q1.2.1)
    obtain rfl : v2 = w2 := Option.some.inj (h2.2.1.symm.trans q2.2.1)
    have ht := hi.withThr hi.timeFits
    refine ((ht.setPins (h1.addr_lt hi) (h2.addr_lt hi) tgt).withMotor (mot := { mot with mode := tgt })
      (by rw [setPins_cfg]; exact hm.1)
      (hasBitView_setPins.2 h1) (hasBitView_setPins.2 h2) hs fun k other hk ho => ?_).answered _ _
    rw [setPins_motor?] at ho
    exact hi.pinsApart m k mot other hm.2 ho hk.symm
  | mmode => exact hi.answered _ _
  | lreg => exact (hi.withReg _ _ (cbOf_lt _ _)).answered _ _
  | lact => exact (hi.withActive _).answered _ _
  | ldeact => exact (hi.withActive _).answered _ _

/-- Everything a command word can do: answer a status and nothing else, or have the effect of a command. -/
theorem runCommand_effect {w : Word} (h : runCommand w s = .next t) :
    (∃ e, t = answered e 0 s) ∨ ∃ i, Effect s i t := by
  rcases runCommand_cases h with ⟨-, -, rfl⟩ | ⟨i, -, hx⟩
  · exact .inl ⟨_, rfl⟩
  · exact (exec_cases hx).imp (fun ⟨e, _, ht⟩ => ⟨e, ht⟩) fun he => ⟨i, he⟩

/-- A command word, legal or not, keeps the invariant and the parameters. -/
theorem runCommand_keeps_inv {w : Word} (h : runCommand w s = .next t) (hi : s.Inv) : t.Inv ∧ t.cfg = s.cfg := by
  rcases runCommand_effect h with ⟨e, rfl⟩ | ⟨i, he⟩
  · exact ⟨hi.answered _ _, rfl⟩
  · exact ⟨he.keeps_inv hi, he.cfg_eq⟩

/-- So does an interrupt dispatch. -/
theorem dispatchIrq_keeps_inv (hi : s.Inv) : (dispatchIrq s).Inv ∧ (dispatchIrq s).cfg = s.cfg := by
  rcases ha : s.lst.active with _ | _
  · rw [dispatchIrq_inactive ha]; exact ⟨hi, rfl⟩
  · rw [dispatchIrq_active ha]; exact ⟨(hi.drop 2).emitAll _, rfl⟩

/-! ## The registers in the middle of a command or dispatch -/

/-- Every write among these observations is at an address of the space (R30). -/
def writesFit (c : Config) (os : List Obs) : Prop := ∀ a b, Obs.write a b ∈ os → a < 2 ^ c.aw

theorem writesFit.take {c : Config} {os : List Obs} (h : writesFit c os) (k : Nat) : writesFit c (os.take k) :=
  fun a b hm => h a b (List.mem_of_mem_take hm)

theorem writesFit.drop {c : Config} {os : List Obs} (h : writesFit c os) (k : Nat) : writesFit c (os.drop k) :=
  fun a b hm => h a b (List.mem_of_mem_drop hm)

theorem writesFit.append {c : Config} {os ps : List Obs} (ho : writesFit c os) (hp : writesFit c ps) :
    writesFit c (os ++ ps) :=
  fun a b hm => (List.mem_append.1 hm).elim (ho a b) (hp a b)

theorem writesFit_nil (c : Config) : writesFit c [] := fun _ _ h => by cases h

theorem writesFit_read (c : Config) (a : Addr) (b : Byte) : writesFit c [.read a b] := by
  simp [writesFit]

/-- The two transactions of a set (R45). -/
theorem writesFit_set {c : Config} {a : Addr} (ha : a < 2 ^ c.aw) (old new : Byte) :
    writesFit c [.read a old, .write a new] := by
  intro x b hm
  obtain ⟨rfl, -⟩ : x = a ∧ b = new := by simpa using hm
  exact ha

/-- The response adds no write to what a command shows. -/
theorem writesFit_answered {c : Config} {u : State} {os : List Obs} (h : u.trace = s.trace ++ os) (ho : writesFit c os)
    (e : Status) (value : Byte) : writesFit c (shownBy s (answered e value u)) := by
  intro a b hm
  rw [shownBy, answered, State.emit_trace, h, List.append_assoc, List.drop_left] at hm
  exact ho a b (by simpa using (List.mem_filter.1 hm).1)

theorem writesFit_answered_nil {c : Config} {u : State} (h : u.trace = s.trace) (e : Status) (value : Byte) :
    writesFit c (shownBy s (answered e value u)) :=
  writesFit_answered (by rw [h, List.append_nil]) (writesFit_nil c) e value

/-- A command writes at addresses of its views, which fit. -/
theorem Effect.writesFit_shownBy {i : Instr} (h : Effect s i t) (hi : s.Inv) : writesFit s.cfg (shownBy s t) := by
  cases h with
  | vbit => exact writesFit_answered_nil rfl _ _
  | vnib => exact writesFit_answered_nil rfl _ _
  | bget => exact writesFit_answered (State.afterRead_trace ..) (writesFit_read _ _ _) _ _
  | nget => exact writesFit_answered (State.afterRead_trace ..) (writesFit_read _ _ _) _ _
  | bset hv => exact writesFit_answered (viewSet_trace ..) (writesFit_set (hv.addr_lt hi) _ _) _ _
  | nset hv => exact writesFit_answered (viewSet_trace ..) (writesFit_set (hv.addr_lt hi) _ _) _ _
  | mbind ok =>
    obtain ⟨-, -, -, -, -, b1, b2, h1, h2, -⟩ := checkPins_cases ok
    exact writesFit_answered (setPins_trace s _ _ _)
      ((writesFit_set (h1.addr_lt hi) _ _).append (writesFit_set (h2.addr_lt hi) _ _)) _ _
  | drive _ _ _ h1 h2 =>
    exact writesFit_answered (setPins_trace (s.withThr s.time) _ _ _)
      ((writesFit_set (h1.addr_lt hi) _ _).append (writesFit_set (h2.addr_lt hi) _ _)) _ _
  | mmode => exact writesFit_answered_nil rfl _ _
  | lreg => exact writesFit_answered_nil rfl _ _
  | lact => exact writesFit_answered_nil rfl _ _
  | ldeact => exact writesFit_answered_nil rfl _ _

theorem runCommand_writesFit {w : Word} (h : runCommand w s = .next t) (hi : s.Inv) : writesFit s.cfg (shownBy s t) := by
  rcases runCommand_effect h with ⟨e, rfl⟩ | ⟨i, he⟩
  · exact writesFit_answered_nil rfl _ _
  · exact he.writesFit_shownBy hi

/-- A dispatch shows reads and events, no write (R141). -/
theorem dispatchIrq_writesFit (c : Config) (s : State) : writesFit c (shownBy s (dispatchIrq s)) := by
  rw [shownBy_dispatch]
  split
  case isTrue =>
    intro a b hm
    rcases List.mem_append.1 hm with hm | hm
    · simp at hm
    · obtain ⟨w, hw⟩ := mem_dispatchEvents hm
      cases hw
  case isFalse => exact writesFit_nil c

/-- A RESET in the middle: the writes issued so far stand, and the block takes its reset values (R161). -/
theorem State.Inv.abandonAt {full : State} (hi : s.Inv) (hw : writesFit s.cfg (shownBy s full)) (k : Nat) :
    (abandonAt k s full).Inv := by
  rw [abandonAt_eq]
  exact (((hi.withRd (wf_applyTo hi.rdWf _ (hw.take k))).drop _).emitAll _).resetBlock

/-- Another agent's write in the middle: the writes before it, it, and the writes after it are all in the space (R24). -/
theorem State.Inv.changedAmid {full : State} (hi : s.Inv) (hf : full.Inv ∧ full.cfg = s.cfg)
    (hw : writesFit s.cfg (shownBy s full)) (k : Nat) {a : Addr} (ha : a < 2 ^ s.cfg.aw) (b : Byte) :
    (changedAmid k a b s full).Inv := by
  refine hf.1.withRd ?_
  rw [hf.2]
  have before := wf_applyTo hi.rdWf _ (hw.take k)
  exact wf_applyTo (Memory.wf_write before ha b) _ (hw.drop k)

/-! ## Steps keep the invariant -/

/-- Every accepted input keeps the invariant and the parameters. -/
theorem Accepted.keeps_inv {i : Input} (h : Accepted s i t) (hi : s.Inv) : t.Inv ∧ t.cfg = s.cfg := by
  cases h with
  | command run => exact runCommand_keeps_inv run hi
  | irq => exact dispatchIrq_keeps_inv hi
  | time => exact ⟨hi.withTime (lowBits_lt _ _), rfl⟩
  | foreignWrite => exact ⟨hi.withRd (Memory.wf_write hi.rdWf (lowBits_lt _ _) _), rfl⟩
  | reset => exact ⟨hi.resetBlock, rfl⟩
  | resetInCommand run => exact ⟨hi.abandonAt (runCommand_writesFit run hi) _, rfl⟩
  | resetInDispatch => exact ⟨hi.abandonAt (dispatchIrq_writesFit _ s) _, rfl⟩
  | foreignWriteInCommand _ run =>
    have hf := runCommand_keeps_inv run hi
    exact ⟨hi.changedAmid hf (runCommand_writesFit run hi) _ (lowBits_lt _ _) _, hf.2⟩
  | foreignWriteInDispatch =>
    have hf := dispatchIrq_keeps_inv hi
    exact ⟨hi.changedAmid hf (dispatchIrq_writesFit _ s) _ (lowBits_lt _ _) _, hf.2⟩

/-- Settles O50, input by input: commands through `Effect.keeps_inv`, and a command or dispatch with a RESET or a volatile change
inside it because each of its writes is at an address of the space. -/
theorem stepKeepsInvariant : Obligations.StepKeepsInvariant := by
  intro s t hi h
  rcases step_cases h with ⟨-, rfl⟩ | ⟨i, rest, -, ha⟩
  · exact ⟨hi, rfl⟩
  · exact ha.keeps_inv (hi.withInputs rest)

end Sys2Proof.Machine

/-! PROOFS. The device's registers as a history of the bus (R24, R34, R36): each operation of the block shows its transactions,
reads what they left, and changes no register otherwise. -/

namespace Sys2Proof.Machine

variable {s t u : State}

/-! ## Histories of the bus -/

theorem readsLatestWrite_append (c : Config) (f : Addr → Byte) (os ps : List Obs) :
    readsLatestWrite c f (os ++ ps) ↔ readsLatestWrite c f os ∧ readsLatestWrite c (registersAfter f os) ps := by
  induction os generalizing f with
  | nil => simp [readsLatestWrite, registersAfter]
  | cons o os ih => cases o <;> simp [readsLatestWrite, registersAfter, ih, and_assoc]

/-- What a history may read depends on the non-volatile registers alone. -/
theorem readsLatestWrite.congr {c : Config} {f g : Addr → Byte} {os : List Obs} (h : readsLatestWrite c f os)
    (hfg : ∀ a, isVolatile c a = false → f a = g a) : readsLatestWrite c g os := by
  induction os generalizing f g with
  | nil => trivial
  | cons o os ih =>
    cases o with
    | read a b => exact ⟨fun hv => (h.1 hv).trans (hfg a hv), ih h.2 hfg⟩
    | write a b =>
      refine ih h fun x hx => ?_
      split
      · rfl
      · exact hfg x hx
    | resp => exact ih h hfg
    | event => exact ih h hfg

/-- Leaving out the responses leaves out nothing the registers or the reads depend on. -/
theorem history_without_responses (c : Config) (f : Addr → Byte) (os : List Obs) :
    (readsLatestWrite c f (os.filter fun o => !o.isResp) ↔ readsLatestWrite c f os) ∧
    registersAfter f (os.filter fun o => !o.isResp) = registersAfter f os := by
  induction os generalizing f with
  | nil => exact ⟨Iff.rfl, rfl⟩
  | cons o os ih =>
    cases o with
    | read a b => exact ⟨and_congr_right' (ih f).1, (ih f).2⟩
    | write a b => exact ih _
    | resp => exact ih f
    | event => exact ih f

theorem registersAfter_of_no_write {os : List Obs} (h : ∀ a b, Obs.write a b ∉ os) (f : Addr → Byte) :
    registersAfter f os = f := by
  induction os with
  | nil => rfl
  | cons o os ih =>
    have hos : registersAfter f os = f := ih fun a b hm => h a b (List.mem_cons_of_mem _ hm)
    cases o with
    | write a b => exact absurd List.mem_cons_self (h a b)
    | read => exact hos
    | resp => exact hos
    | event => exact hos

theorem readsLatestWrite_of_events {os : List Obs} (h : ∀ o ∈ os, ∃ w, o = .event w) (c : Config) (f : Addr → Byte) :
    readsLatestWrite c f os := by
  induction os with
  | nil => trivial
  | cons o os ih =>
    obtain ⟨w, rfl⟩ := h o List.mem_cons_self
    exact ih fun o ho => h o (List.mem_cons_of_mem _ ho)

/-! ## Operations that follow the bus -/

/-- From `s` to `t` the reads shown return the latest writes, and the transactions shown make `t`'s non-volatile registers
of `s`'s (R24, R34). -/
def State.followsBus (s t : State) : Prop :=
  t.cfg = s.cfg ∧ ∃ os, t.trace = s.trace ++ os ∧ readsLatestWrite s.cfg s.byte os ∧
    ∀ a, isVolatile s.cfg a = false → t.byte a = registersAfter s.byte os a

/-- Nothing shown, no register changed. -/
theorem State.followsBus_of_quiet (hc : t.cfg = s.cfg) (ht : t.trace = s.trace)
    (hb : ∀ a, isVolatile s.cfg a = false → t.byte a = s.byte a) : s.followsBus t :=
  ⟨hc, [], by simpa using ht, trivial, hb⟩

theorem State.followsBus.trans (h : s.followsBus t) (h' : t.followsBus u) : s.followsBus u := by
  obtain ⟨hc, os, ht, hr, hb⟩ := h
  obtain ⟨hc', ps, ht', hr', hb'⟩ := h'
  rw [hc] at hr' hb'
  refine ⟨hc'.trans hc, os ++ ps, by rw [ht', ht, List.append_assoc],
    (readsLatestWrite_append ..).2 ⟨hr, hr'.congr hb⟩, fun a ha => ?_⟩
  rw [hb' a ha, registersAfter_append]
  exact registersAfter_congr (hb a ha) ps

theorem State.followsBus_afterRead (s : State) (a : Addr) : s.followsBus (s.afterRead a) := by
  refine ⟨State.afterRead_cfg s a, [_], State.afterRead_trace s a, ⟨fun hv => ?_, trivial⟩, fun x _ => ?_⟩
  · simp [State.firstRead, hv]
  · simp [State.byte, registersAfter]

theorem State.followsBus_memWrite (s : State) (a : Addr) (b : Byte) : s.followsBus (memWrite s a b) :=
  ⟨rfl, [.write a b], rfl, trivial, fun x _ => State.withByte_byte s a x b⟩

theorem State.followsBus_viewSet (s : State) (v : View) (x : Byte) : s.followsBus (viewSet s v x) :=
  (s.followsBus_afterRead v.addr).trans (State.followsBus_memWrite _ _ _)

theorem State.followsBus_setPins (s : State) (v1 v2 : View) (mode : Mode) : s.followsBus (setPins s v1 v2 mode) :=
  (s.followsBus_viewSet v1 _).trans (State.followsBus_viewSet _ v2 _)

theorem State.followsBus.answered (h : s.followsBus t) (e : Status) (value : Byte) : s.followsBus (answered e value t) :=
  h.trans ⟨rfl, [.resp _], rfl, trivial, fun _ _ => rfl⟩

/-- The tables, the throttle and the listener are no part of the bus. -/
theorem State.followsBus.withMotor (h : s.followsBus t) (m : MotorId) (mot : Motor) : s.followsBus (t.withMotor m mot) :=
  h.trans (State.followsBus_of_quiet rfl rfl fun _ _ => rfl)

theorem Effect.followsBus {i : Instr} (h : Effect s i t) : s.followsBus t := by
  have quiet {u : State} (hc : u.cfg = s.cfg) (ht : u.trace = s.trace) (hr : u.rd = s.rd) : s.followsBus u :=
    State.followsBus_of_quiet hc ht fun _ _ => by simp [State.byte, hr]
  cases h with
  | vbit => exact (quiet rfl rfl rfl).answered _ _
  | vnib => exact (quiet rfl rfl rfl).answered _ _
  | bget => exact (s.followsBus_afterRead _).answered _ _
  | nget => exact (s.followsBus_afterRead _).answered _ _
  | bset => exact (s.followsBus_viewSet _ _).answered _ _
  | nset => exact (s.followsBus_viewSet _ _).answered _ _
  | mbind => exact ((s.followsBus_setPins _ _ _).withMotor _ _).answered _ _
  | drive =>
    exact (((quiet rfl rfl rfl).trans ((s.withThr s.time).followsBus_setPins _ _ _)).withMotor _ _).answered _ _
  | mmode => exact (quiet rfl rfl rfl).answered _ _
  | lreg => exact (quiet rfl rfl rfl).answered _ _
  | lact => exact (quiet rfl rfl rfl).answered _ _
  | ldeact => exact (quiet rfl rfl rfl).answered _ _

theorem runCommand_followsBus {w : Word} (h : runCommand w s = .next t) : s.followsBus t := by
  rcases runCommand_effect h with ⟨e, rfl⟩ | ⟨i, he⟩
  · exact (State.followsBus_of_quiet rfl rfl fun _ _ => rfl).answered _ _
  · exact he.followsBus

/-- A dispatch writes no register (R141). -/
theorem write_notMem_shownBy_dispatch (s : State) (a : Addr) (b : Byte) : .write a b ∉ shownBy s (dispatchIrq s) := by
  rw [shownBy_dispatch]
  split
  case isFalse => exact List.not_mem_nil
  case isTrue =>
    intro hm
    rcases List.mem_append.1 hm with hm | hm
    · simp at hm
    · obtain ⟨w, hw⟩ := mem_dispatchEvents hm
      cases hw

/-- The two reads of a dispatch are of volatile registers, and events are no transactions (R141). -/
theorem dispatchIrq_followsBus (s : State) : s.followsBus (dispatchIrq s) := by
  rcases ha : s.lst.active with _ | _
  case false =>
    rw [dispatchIrq_inactive ha]
    exact State.followsBus_of_quiet rfl rfl fun _ _ => rfl
  case true =>
    have unwritten := registersAfter_of_no_write (write_notMem_shownBy_dispatch s) s.byte
    rw [shownBy_dispatch, if_pos ha] at unwritten
    rw [dispatchIrq_active ha]
    refine ⟨rfl, dispatchShown s, rfl, ⟨fun hv => ?_, fun hv => ?_, ?_⟩, fun a _ => ?_⟩
    · simp at hv
    · simp at hv
    · exact readsLatestWrite_of_events (fun _ => mem_dispatchEvents) _ _
    · rw [unwritten]; rfl

/-! ## Cut off or interleaved by the environment -/

/-- The history of what is shown before the response. -/
theorem State.followsBus.shownBy (h : s.followsBus t) : readsLatestWrite s.cfg s.byte (shownBy s t) ∧
    ∀ a, isVolatile s.cfg a = false → t.byte a = registersAfter s.byte (shownBy s t) a := by
  obtain ⟨-, os, ht, hr, hb⟩ := h
  obtain ⟨reads, registers⟩ := history_without_responses s.cfg s.byte os
  rw [Machine.shownBy, ht, List.drop_left, registers]
  exact ⟨reads.2 hr, hb⟩

/-- A RESET in the middle leaves the first part of the history (R161). -/
theorem State.followsBus.abandonAt {full : State} (h : s.followsBus full) (k : Nat) :
    s.followsBus (abandonAt k s full) := by
  obtain ⟨hc, -, -, -, -, -, -, htrace, hrd⟩ := abandonAt_fields k s full
  refine ⟨hc, issuedAt k s full, htrace, ?_, fun a _ => ?_⟩
  · have hr := h.shownBy.1
    rw [← List.take_append_drop k (Machine.shownBy s full)] at hr
    exact ((readsLatestWrite_append ..).1 hr).1
  · rw [State.byte, hrd, byte_foldl_applyTo]
    rfl

/-- A change of a volatile register in the middle leaves the other registers to the history (R24). -/
theorem State.followsBus.changedAmid {full : State} (h : s.followsBus full) (k : Nat) {a : Addr}
    (hv : isVolatile s.cfg a = true) (b : Byte) : s.followsBus (changedAmid k a b s full) := by
  refine h.trans (State.followsBus_of_quiet rfl rfl fun x hx => ?_)
  rw [h.1] at hx
  have hne : x ≠ a := by
    rintro rfl
    rw [hx] at hv
    cases hv
  rw [changedAmid_byte_other hne, ← h.shownBy.2 x hx]

theorem Accepted.followsBus {i : Input} (h : Accepted s i t) : s.followsBus t := by
  cases h with
  | command run => exact runCommand_followsBus run
  | irq => exact dispatchIrq_followsBus s
  | time => exact State.followsBus_of_quiet rfl rfl fun _ _ => rfl
  | foreignWrite vol =>
    refine State.followsBus_of_quiet rfl rfl fun x hx => ?_
    rw [State.withByte_byte, if_neg]
    rintro rfl
    rw [hx] at vol
    cases vol
  | reset => exact State.followsBus_of_quiet rfl rfl fun _ _ => rfl
  | resetInCommand run => exact (runCommand_followsBus run).abandonAt _
  | resetInDispatch => exact (dispatchIrq_followsBus s).abandonAt _
  | foreignWriteInCommand vol run => exact (runCommand_followsBus run).changedAmid _ vol _
  | foreignWriteInDispatch vol => exact (dispatchIrq_followsBus s).changedAmid _ vol _

/-- Settles O48, input by input: a command or dispatch follows the bus because each of its operations does, a RESET inside
it leaves the first part of its history, and a volatile change inside it leaves the other registers to its history. -/
theorem registersFollowTheBus : Obligations.RegistersFollowTheBus := by
  intro s t _ h
  rcases step_cases h with ⟨-, rfl⟩ | ⟨i, rest, -, ha⟩
  · exact (State.followsBus_of_quiet rfl rfl fun _ _ => rfl).2
  · exact ha.followsBus.2

/-! ## A volatile register changed in the middle -/

/-- Settles O56: the transactions before the change and after it are those of the command or dispatch without the change, and a
dispatch writes nothing (R24, R34, R141). -/
theorem volatileRegisterChangesAmidTransactions : Obligations.VolatileRegisterChangesAmidTransactions := by
  refine ⟨fun s full w k a b rest hs hv run => ?_, fun s k a b rest hs hv => ?_⟩
  · obtain ⟨os, r, ht, ho, hb⟩ := runCommand_bytes run
    have shown : shownBy (s.withInputs rest) full = os := shownBy_command ht ho
    refine ⟨changedAmid k (a % 2 ^ s.cfg.aw) b (s.withInputs rest) full, os, r, ?_, ht, ho, rfl, fun y hy => ?_, ?_⟩
    · rw [step_cons hs]
      exact (if_pos hv).trans (by rw [State.withInputs_eq, run]; rfl)
    · rw [changedAmid_byte_other hy, shown, hb]; rfl
    · rw [changedAmid_byte, shown]
      exact registersAfter_congr (if_pos rfl) _
  · refine ⟨changedAmid k (a % 2 ^ s.cfg.aw) b (s.withInputs rest) (dispatchIrq (s.withInputs rest)),
      dispatchIrq (s.withInputs rest), ?_, rfl, rfl, fun y => ?_⟩
    · rw [step_cons hs]
      exact if_pos hv
    · have unwritten := write_notMem_shownBy_dispatch (s.withInputs rest)
      rw [changedAmid_byte, registersAfter_of_no_write fun a b hm => unwritten a b (List.mem_of_mem_drop hm),
        registersAfter_of_no_write fun a b hm => unwritten a b (List.mem_of_mem_take hm)]
      rfl

end Sys2Proof.Machine

/-! PROOFS. What commands and steps do to the slots of VT and MT (R10, R12), and the pins of a motor that shows its mode (R25). -/

namespace Sys2Proof.Machine

variable {s t : State}

/-! ## Slots -/

/-- The command that binds view slot `h` (R70, R71). -/
def Instr.bindsView (h : Handle) (i : Instr) : Prop :=
  (∃ addr bit inv own, i = .vbit h addr bit inv own) ∨ ∃ addr pos inv own, i = .vnib h addr pos inv own

/-- A view slot changes only from unbound to bound, by the command that names it (R10). -/
theorem Effect.view?_cases {i : Instr} (he : Effect s i t) (h : Handle) :
    t.view? h = s.view? h ∨ s.view? h = none ∧ Instr.bindsView h i := by
  have bind {g : Handle} {v : View} (ok : bindRefused s g v = false) (names : h = g → Instr.bindsView h i) :
      (s.withView g v).view? h = s.view? h ∨ s.view? h = none ∧ Instr.bindsView h i := by
    rw [State.withView_view?]
    split
    case isTrue e => exact .inr ⟨e ▸ (bindRefused_eq_false ok).2.1, names e⟩
    case isFalse => exact .inl rfl
  cases he with
  | vbit ok => exact bind ok fun e => .inl ⟨_, _, _, _, by rw [e]⟩
  | vnib ok => exact bind ok fun e => .inr ⟨_, _, _, _, by rw [e]⟩
  | bget => exact .inl (by simp [answered, State.view?])
  | nget => exact .inl (by simp [answered, State.view?])
  | bset => exact .inl (by simp [answered])
  | nset => exact .inl (by simp [answered])
  | mbind => exact .inl (by simp [answered])
  | drive => exact .inl (by simp [answered])
  | mmode => exact .inl rfl
  | lreg => exact .inl rfl
  | lact => exact .inl rfl
  | ldeact => exact .inl rfl

/-- A motor slot changes only from unbound to bound, by the MBIND that names it, or by a transition of its motor (R12). -/
theorem Effect.motor?_cases {i : Instr} (he : Effect s i t) (m : MotorId) :
    t.motor? m = s.motor? m ∨ (s.motor? m = none ∧ ∃ h1 h2, i = .mbind m h1 h2) ∨
      (t.motor? m ≠ none ∧ ∃ tgt, i = Instr.mtrans m tgt) := by
  cases he with
  | @mbind n h1 h2 v1 v2 ok =>
    by_cases e : m = n
    · exact .inr (.inl ⟨e ▸ (checkPins_cases ok).2.1, h1, h2, e ▸ rfl⟩)
    · exact .inl (by simp [answered, State.withMotor_motor?, e])
  | @drive n tgt =>
    by_cases e : m = n
    · exact .inr (.inr ⟨by simp [answered, State.withMotor_motor?, e], tgt, e ▸ rfl⟩)
    · exact .inl (by simp [answered, State.withMotor_motor?, e])
  | vbit => exact .inl rfl
  | vnib => exact .inl rfl
  | bget => exact .inl (by simp [answered, State.motor?])
  | nget => exact .inl (by simp [answered, State.motor?])
  | bset => exact .inl (by simp [answered])
  | nset => exact .inl (by simp [answered])
  | mmode => exact .inl rfl
  | lreg => exact .inl rfl
  | lact => exact .inl rfl
  | ldeact => exact .inl rfl

/-- The view table and the motor table are as before. -/
def State.sameSlots (s t : State) : Prop := t.vt = s.vt ∧ t.mt = s.mt

theorem State.sameSlots.view? (h : s.sameSlots t) (g : Handle) : t.view? g = s.view? g := by simp [State.view?, h.1]

theorem State.sameSlots.motor? (h : s.sameSlots t) (m : MotorId) : t.motor? m = s.motor? m := by simp [State.motor?, h.2]

theorem dispatchIrq_sameSlots (s : State) : s.sameSlots (dispatchIrq s) := by
  rcases ha : s.lst.active with _ | _
  · rw [dispatchIrq_inactive ha]; exact ⟨rfl, rfl⟩
  · rw [dispatchIrq_active ha]; exact ⟨rfl, rfl⟩

/-- The slots of `t` are those of `s`, or what the effect of the command that `s` runs next makes of them. -/
def State.slotsByCommand (s t : State) : Prop :=
  s.sameSlots t ∨ ∃ w rest c full, s.runsNext w rest ∧ decode w = .ok c ∧ Effect (s.withInputs rest) c full ∧
    full.sameSlots t

theorem slotsByCommand_of_runCommand {w : Word} {i : Input} {rest : List Input} {full : State} (hs : s.inputs = i :: rest)
    (hw : i.word? = some w) (run : runCommand w (s.withInputs rest) = .next full) (hf : full.sameSlots t) :
    s.slotsByCommand t := by
  rcases runCommand_cases run with ⟨-, -, rfl⟩ | ⟨c, hc, hx⟩
  · exact .inl hf
  · rcases exec_cases hx with ⟨e, -, rfl⟩ | he
    · exact .inl hf
    · exact .inr ⟨w, rest, c, full, ⟨i, hs, hw⟩, hc, he, hf⟩

/-- A step without a reset leaves the slots to the effect of a command it runs. -/
theorem step_slotsByCommand (h : step s = .next t) (hr : ∀ i rest, s.inputs = i :: rest → i.resets = false) :
    s.slotsByCommand t := by
  rcases step_cases h with ⟨-, rfl⟩ | ⟨i, rest, hs, ha⟩
  · exact .inl ⟨rfl, rfl⟩
  · have hi := hr i rest hs
    cases ha with
    | command run => exact slotsByCommand_of_runCommand hs rfl run ⟨rfl, rfl⟩
    | foreignWriteInCommand _ run => exact slotsByCommand_of_runCommand hs rfl run ⟨rfl, rfl⟩
    | irq => exact .inl (dispatchIrq_sameSlots (s.withInputs rest))
    | foreignWriteInDispatch => exact .inl (dispatchIrq_sameSlots (s.withInputs rest))
    | time => exact .inl ⟨rfl, rfl⟩
    | foreignWrite => exact .inl ⟨rfl, rfl⟩
    | reset => cases hi
    | resetInCommand => cases hi
    | resetInDispatch => cases hi

/-- Settles O34: the slots change by the effect of a command alone, which fills none but unbound view slots and unbound motor
slots, and moves a motor's mode. -/
theorem slotsAreWrittenOnce : Obligations.SlotsAreWrittenOnce := by
  intro s t h hr
  rcases step_slotsByCommand h hr with same | ⟨w, rest, c, full, hw, hc, he, same⟩
  · refine ⟨fun h v hv => (same.view? h).trans hv, fun m hm => by rwa [same.motor?], fun h hne => ?_, fun m hm hne => ?_⟩
    · exact absurd (same.view? h) hne
    · exact absurd ((same.motor? m).trans hm) hne
  · simp only [same.view?, same.motor?]
    refine ⟨fun h v hv => ?_, fun m hm => ?_, fun h hne => ⟨w, rest, hw, ?_⟩, fun m hm hne => ?_⟩
    · rcases he.view?_cases h with e | ⟨e, -⟩
      · exact e.trans hv
      · cases e.symm.trans hv
    · rcases he.motor?_cases m with e | ⟨e, -⟩ | ⟨e, -⟩
      · rw [e]; exact hm
      · exact absurd e hm
      · exact e
    · rcases he.view?_cases h with e | ⟨-, ⟨addr, bit, inv, own, rfl⟩ | ⟨addr, pos, inv, own, rfl⟩⟩
      · exact absurd e hne
      · exact .inl ⟨addr, bit, inv, own, hc⟩
      · exact .inr ⟨addr, pos, inv, own, hc⟩
    · rcases he.motor?_cases m with e | ⟨-, h1, h2, rfl⟩ | ⟨-, tgt, rfl⟩
      · exact absurd (e.trans hm) hne
      · exact ⟨w, rest, h1, h2, hw, hc⟩
      · obtain ⟨mot, v1, v2, b1, b2, hb, -⟩ := he.of_mtrans
        cases hm.symm.trans hb.2

/-! ## Pins that show the mode -/

/-- What the effect of MBIND is (R90): the case of `Effect` for it. -/
theorem Effect.of_mbind {m : MotorId} {h1 h2 : Handle} (he : Effect s (.mbind m h1 h2) t) :
    ∃ v1 v2, checkPins s m h1 h2 = some (v1, v2) ∧
      t = answered .ok 0 ((setPins s v1 v2 .brake).withMotor m { pin1 := h1, pin2 := h2, mode := .brake }) := by
  generalize hi : Instr.mbind m h1 h2 = i at he
  cases he with
  | mbind ok => cases hi; exact ⟨_, _, ok, rfl⟩
  | @drive _ tgt => cases tgt <;> cases hi
  | _ => cases hi

/-- The motor is coherent, and its pins are at non-volatile addresses (R25). -/
def State.showsMode (s : State) (m : MotorId) : Prop :=
  ∃ mot v1 v2 b1 b2, s.hasMotor m mot ∧ s.hasBitView mot.pin1 v1 b1 ∧ s.hasBitView mot.pin2 v2 b2 ∧
    isVolatile s.cfg v1.addr = false ∧ isVolatile s.cfg v2.addr = false ∧ s.coherent m

theorem State.showsMode.coherent {m : MotorId} (h : s.showsMode m) : s.coherent m := by
  obtain ⟨-, -, -, -, -, -, -, -, -, -, hco⟩ := h
  exact hco

theorem State.coherent.showsMode {m : MotorId} (hco : s.coherent m) (steady : s.pinsSteady m) : s.showsMode m := by
  have ⟨mot, v1, v2, b1, b2, hm, h1, h2, _⟩ := hco
  exact ⟨mot, v1, v2, b1, b2, hm, h1, h2, steady mot _ v1 hm.2 (.inl rfl) h1.2.1, steady mot _ v2 hm.2 (.inr rfl) h2.2.1, hco⟩

/-- Driving the pins of a motor slot makes them show its mode (R90, R91). -/
theorem showsMode_of_setPins {m : MotorId} {mot : Motor} {v1 v2 : View} {b1 b2 : BitVec 3} (hm : m.toNat < s.cfg.nmotors)
    (h1 : s.hasBitView mot.pin1 v1 b1) (h2 : s.hasBitView mot.pin2 v2 b2) (hs : ¬ v1.sharesBit v2)
    (n1 : isVolatile s.cfg v1.addr = false) (n2 : isVolatile s.cfg v2.addr = false)
    (ht : t = answered .ok 0 ((setPins s v1 v2 mot.mode).withMotor m mot)) : t.showsMode m := by
  have cfg_eq : t.cfg = s.cfg := by simp [ht, answered]
  have bound : t.hasMotor m mot := ⟨cfg_eq ▸ hm, by simp [ht, answered, State.withMotor_motor?]⟩
  have view {h : Handle} {v : View} {b : BitVec 3} (hv : s.hasBitView h v b) : t.hasBitView h v b :=
    ⟨cfg_eq ▸ hv.1, by simpa [ht, answered] using hv.2.1, hv.2.2⟩
  refine ⟨mot, v1, v2, b1, b2, bound, view h1, view h2, cfg_eq ▸ n1, cfg_eq ▸ n2, ?_⟩
  rw [State.coherent_iff bound (view h1) (view h2), cfg_eq]
  simpa [ht, answered] using setPins_pins s mot.mode h1.2.2 h2.2.2 hs n2

/-- Settles O52: an MBIND that answers OK has driven two bit views at different bits to the brake pattern. -/
theorem mbindMakesCoherentMotor : Obligations.MbindMakesCoherentMotor := by
  intro s t m h1 h2 os hx ht steady
  obtain ⟨v1, v2, ok, rfl⟩ := (effect_of_ok hx ht).of_mbind
  obtain ⟨hm, -, -, -, -, b1, b2, hv1, hv2, hs⟩ := checkPins_cases ok
  have nonvolatile {h : Handle} {v : View} {b : BitVec 3} (hh : h = h1 ∨ h = h2) (hv : s.hasBitView h v b) :
      isVolatile s.cfg v.addr = false := by
    simpa [answered] using steady ⟨h1, h2, .brake⟩ h v (by simp [answered, State.withMotor_motor?]) hh
      (by simpa [answered] using hv.2.1)
  exact (showsMode_of_setPins (mot := ⟨h1, h2, .brake⟩) hm hv1 hv2 hs (nonvolatile (.inl rfl) hv1)
    (nonvolatile (.inr rfl) hv2) rfl).coherent

/-- `h` is a pin of motor `m`, through bit view `v` at bit `b` (R12). -/
def State.hasPin (s : State) (m : MotorId) (h : Handle) (v : View) (b : BitVec 3) : Prop :=
  ∃ mot, s.motor? m = some mot ∧ (h = mot.pin1 ∨ h = mot.pin2) ∧ s.hasBitView h v b

/-- A motor shows its mode while its slot, its views and its pin bits stay as they are. -/
theorem State.showsMode.of_same_pins {m : MotorId} (hs : s.showsMode m) (hcfg : t.cfg = s.cfg)
    (hmotor : t.motor? m = s.motor? m) (hview : ∀ h v, s.view? h = some v → t.view? h = some v)
    (hbits : ∀ h v b, s.hasPin m h v b → isVolatile s.cfg v.addr = false →
      (t.byte v.addr).getLsbD b.toNat = (s.byte v.addr).getLsbD b.toNat) : t.showsMode m := by
  obtain ⟨mot, v1, v2, b1, b2, hm, h1, h2, n1, n2, hco⟩ := hs
  have keep {h : Handle} {v : View} {b : BitVec 3} (hv : s.hasBitView h v b) : t.hasBitView h v b :=
    ⟨hcfg ▸ hv.1, hview h v hv.2.1, hv.2.2⟩
  have hm' : t.hasMotor m mot := ⟨hcfg ▸ hm.1, hmotor.trans hm.2⟩
  refine ⟨mot, v1, v2, b1, b2, hm', keep h1, keep h2, hcfg ▸ n1, hcfg ▸ n2, ?_⟩
  rw [State.coherent_iff hm' (keep h1) (keep h2), hcfg, hbits _ v1 b1 ⟨mot, hm.2, .inl rfl, h1⟩ n1,
    hbits _ v2 b2 ⟨mot, hm.2, .inr rfl, h2⟩ n2]
  exact (State.coherent_iff hm h1 h2).1 hco

/-- Two sets through views that share no bit with a bit view leave its bit as it was (R83). -/
theorem setPins_spares (s : State) (v1 v2 : View) (mode : Mode) {w : View} {b : BitVec 3} (hw : w.kind = .bit b)
    (h1 : ¬ v1.sharesBit w) (h2 : ¬ v2.sharesBit w) (nv : isVolatile s.cfg w.addr = false) :
    ((setPins s v1 v2 mode).byte w.addr).getLsbD b.toNat = (s.byte w.addr).getLsbD b.toNat := by
  rw [setPins_eq, viewSet_spares _ v2 _ (bitByte_le_ones _ _) hw h2 (by rwa [viewSet_cfg]),
    viewSet_spares s v1 _ (bitByte_le_ones _ _) hw h1 nv]

theorem State.writtenHandles_mtrans {m : MotorId} {mot : Motor} (hm : s.motor? m = some mot) (tgt : Mode) :
    s.writtenHandles (Instr.mtrans m tgt) = [mot.pin1, mot.pin2] := by
  cases tgt <;> simp [Instr.mtrans, State.writtenHandles, hm]

/-- A command leaves alone every non-volatile bit that no view it writes through covers (R83, R91). -/
theorem Effect.spares_bit {i : Instr} (he : Effect s i t) {w : View} {b : BitVec 3} (hw : w.kind = .bit b)
    (nv : isVolatile s.cfg w.addr = false)
    (spared : ∀ h ∈ s.writtenHandles i, ∀ v, s.view? h = some v → ¬ v.sharesBit w) :
    (t.byte w.addr).getLsbD b.toNat = (s.byte w.addr).getLsbD b.toNat := by
  cases he with
  | @bset h v sel x hv hx =>
    refine viewSet_spares s v x ?_ hw (spared h (by simp [State.writtenHandles]) v hv.2.1) nv
    simpa [View.ones, hv.2.2] using hx
  | @nset h v pos x hv hx =>
    refine viewSet_spares s v x ?_ hw (spared h (by simp [State.writtenHandles]) v hv.2.1) nv
    simpa [View.ones, hv.2.2] using hx
  | @mbind m h1 h2 v1 v2 ok =>
    obtain ⟨-, -, -, -, -, b1, b2, hv1, hv2, -⟩ := checkPins_cases ok
    rw [answered, State.emit_byte, State.withMotor_byte]
    exact setPins_spares s v1 v2 .brake hw (spared h1 (by simp [State.writtenHandles]) v1 hv1.2.1)
      (spared h2 (by simp [State.writtenHandles]) v2 hv2.2.1) nv
  | @drive m tgt mot v1 v2 b1 b2 hm _ _ hv1 hv2 =>
    rw [State.writtenHandles_mtrans hm.2] at spared
    rw [answered, State.emit_byte, State.withMotor_byte]
    exact setPins_spares (s.withThr s.time) v1 v2 tgt hw (spared mot.pin1 (by simp) v1 hv1.2.1)
      (spared mot.pin2 (by simp) v2 hv2.2.1) nv
  | bget => simp [answered, State.byte]
  | nget => simp [answered, State.byte]
  | vbit => rfl
  | vnib => rfl
  | mmode => rfl
  | lreg => rfl
  | lact => rfl
  | ldeact => rfl

/-- A command that spares the pins of a motor, or is a transition of it, lets the pins show its mode (R25). -/
theorem Effect.keeps_showsMode {i : Instr} {m : MotorId} (he : Effect s i t) (hi : s.Inv) (hs : s.showsMode m)
    (spares : s.sparesPins m i) : t.showsMode m := by
  by_cases own : ∃ tgt, i = Instr.mtrans m tgt
  case pos =>
    obtain ⟨tgt, rfl⟩ := own
    obtain ⟨mot, v1, v2, b1, b2, hm, -, -, h1, h2, rfl⟩ := he.of_mtrans
    obtain ⟨mot', w1, w2, c1, c2, q, q1, q2, n1, n2, -⟩ := hs
    obtain rfl : mot = mot' := Option.some.inj (hm.2.symm.trans q.2)
    obtain ⟨u1, u2, d1, d2, r1, r2, apart⟩ := hi.pins m mot hm.2
    have only {h : Handle} {v w : View} {b c : BitVec 3} (hv : s.hasBitView h v b) (hw : s.hasBitView h w c) : w = v :=
      Option.some.inj (hw.2.1.symm.trans hv.2.1)
    rw [only h1 r1, only h2 r2] at apart
    rw [only h1 q1] at n1
    rw [only h2 q2] at n2
    exact showsMode_of_setPins (s := s.withThr s.time) (mot := { mot with mode := tgt }) hm.1 h1 h2 apart n1 n2 rfl
  case neg =>
    have ⟨mot, _, _, _, _, hm, _⟩ := hs
    refine hs.of_same_pins he.cfg_eq ?_ (fun h v hv => ?_) fun h w b ⟨mot, hm, hh, hw⟩ nv => ?_
    · rcases he.motor?_cases m with e | ⟨e, -⟩ | ⟨-, e⟩
      · exact e
      · cases e.symm.trans hm.2
      · exact absurd e own
    · rcases he.view?_cases h with e | ⟨e, -⟩
      · exact e.trans hv
      · cases e.symm.trans hv
    · exact he.spares_bit hw.2.2 nv fun g hg v hv => spares.resolve_left own g v mot h w hg hv hm hh hw.2.1

/-- Settles O53: the command keeps the motor coherent, and a volatile register changed inside it is none of the pins'. -/
theorem commandsKeepMotorCoherent : Obligations.CommandsKeepMotorCoherent := by
  intro s t w rest i m hi hw hd hco steady spares h
  obtain ⟨full, run, ht, hbytes⟩ := step_of_runsNext hw h
  obtain ⟨rd, rfl⟩ : ∃ rd, t = full.withRd rd := ⟨_, ht⟩
  rw [runCommand_of_decode hd] at run
  have shows : (s.withInputs rest).showsMode m := hco.showsMode steady
  have kept : full.cfg = s.cfg ∧ full.showsMode m := by
    rcases exec_cases run with ⟨e, -, rfl⟩ | he
    · exact ⟨rfl, shows⟩
    · exact ⟨he.cfg_eq, he.keeps_showsMode (hi.withInputs rest) shows spares⟩
  refine (kept.2.of_same_pins (t := full.withRd rd) rfl rfl (fun _ _ hv => hv) fun _ v b _ nv => ?_).coherent
  rw [hbytes v.addr (kept.1 ▸ nv)]

end Sys2Proof.Machine

/-! PROOFS. Commands outside the listener do not see it (C7); the mask of a slot (R11); the invariant right after reset, and the
vector M4j on a run from there. -/

namespace Sys2Proof.Machine

/-! ## Commands outside the listener -/

/-- The machine with another listener state. -/
def State.withLst (s : State) (l : Listener) : State := { s with lst := l }

/-- The outcome with another listener state. -/
def outcomeWithLst (l : Listener) : Result → Result
  | .next t => .next (t.withLst l)
  | .fault f => .fault f
  | .refused r => .refused r

section WithLst
variable (s : State) (l : Listener)

theorem State.afterRead_withLst (a : Addr) : (s.withLst l).afterRead a = (s.afterRead a).withLst l := by
  rw [State.afterRead_eq, State.afterRead_eq]; rfl

theorem viewSet_withLst (v : View) (x : Byte) : viewSet (s.withLst l) v x = (viewSet s v x).withLst l := by
  rw [viewSet_eq, viewSet_eq, State.afterRead_withLst]; rfl

theorem setPins_withLst (v1 v2 : View) (mode : Mode) :
    setPins (s.withLst l) v1 v2 mode = (setPins s v1 v2 mode).withLst l := by
  rw [setPins_eq, viewSet_withLst, viewSet_withLst]; rfl

theorem bindView_withLst (h : Handle) (v : View) : bindView h v (s.withLst l) = outcomeWithLst l (bindView h v s) := by
  have same : bindRefused (s.withLst l) h v = bindRefused s h v := rfl
  unfold bindView
  rw [same]
  split <;> rfl

theorem getThrough_withLst (c : Option View) : getThrough c (s.withLst l) = outcomeWithLst l (getThrough c s) := by
  cases c with
  | none => rfl
  | some v =>
    simp only [getThrough, viewGet_eq, State.afterRead_withLst]
    rfl

theorem setThrough_withLst (c : Option View) (top x : Byte) :
    setThrough c top x (s.withLst l) = outcomeWithLst l (setThrough c top x s) := by
  cases c with
  | none => rfl
  | some v =>
    simp only [setThrough, viewSet_withLst]
    split <;> rfl

theorem execMbind_withLst (m : MotorId) (h1 h2 : Handle) :
    execMbind m h1 h2 (s.withLst l) = outcomeWithLst l (execMbind m h1 h2 s) := by
  have same : checkPins (s.withLst l) m h1 h2 = checkPins s m h1 h2 := rfl
  unfold execMbind
  rw [same]
  split
  · rfl
  · rw [setPins_withLst]; rfl

theorem drivePins_withLst (m : MotorId) (mot : Motor) (tgt : Mode) :
    drivePins m mot tgt (s.withLst l) = outcomeWithLst l (drivePins m mot tgt s) := by
  have same (h : Handle) : checkBitView (s.withLst l) h = checkBitView s h := rfl
  unfold drivePins
  rw [same, same]
  split
  · rw [setPins_withLst]; rfl
  · rfl

theorem transition_withLst (m : MotorId) (tgt : Mode) :
    transition m tgt (s.withLst l) = outcomeWithLst l (transition m tgt s) := by
  have sameMotor : checkMotor (s.withLst l) m = checkMotor s m := rfl
  unfold transition
  rw [sameMotor]
  split
  · rfl
  · split
    · rfl
    · by_cases hw : s.windowElapsed
      · have hw' : (s.withLst l).windowElapsed := hw
        rw [throttle_open hw, throttle_open hw']
        exact drivePins_withLst (s.withThr s.time) l m _ tgt
      · have hw' : ¬ (s.withLst l).windowElapsed := hw
        rw [throttle_shut hw, throttle_shut hw']
        rfl

theorem execMmode_withLst (m : MotorId) : execMmode m (s.withLst l) = outcomeWithLst l (execMmode m s) := by
  have same : checkMotor (s.withLst l) m = checkMotor s m := rfl
  unfold execMmode
  rw [same]
  split <;> rfl

/-- A command outside the listener commutes with a change of LST (C7). -/
theorem exec_withLst {i : Instr} (hreg : ∀ p e c, i ≠ .lreg p e c) (hact : i ≠ .lact) (hdeact : i ≠ .ldeact) :
    exec i (s.withLst l) = outcomeWithLst l (exec i s) := by
  cases i with
  | vbit h addr bit inv own => exact bindView_withLst s l h (bitViewOf s.cfg addr bit inv own)
  | vnib h addr pos inv own => exact bindView_withLst s l h (nibbleViewOf s.cfg addr pos inv own)
  | mbind m h1 h2 => exact execMbind_withLst s l m h1 h2
  | bget h => exact getThrough_withLst s l (checkBitView s h)
  | bset h v => exact setThrough_withLst s l (checkBitView s h) 1 v
  | nget h => exact getThrough_withLst s l (checkNibbleView s h)
  | nset h v => exact setThrough_withLst s l (checkNibbleView s h) 15 v
  | brake m => exact transition_withLst s l m .brake
  | coast m => exact transition_withLst s l m .coast
  | forward m => exact transition_withLst s l m .forward
  | reverse m => exact transition_withLst s l m .reverse
  | mmode m => exact execMmode_withLst s l m
  | lreg p e c => exact absurd rfl (hreg p e c)
  | lact => exact absurd rfl hact
  | ldeact => exact absurd rfl hdeact

end WithLst

/-- Settles O42. That the command leaves LST alone is the case in which LST is given the value it has. -/
theorem otherCommandsDoNotReadListener : Obligations.OtherCommandsDoNotReadListener := by
  intro i s t l hreg hact hdeact hx
  have moves (k : Listener) : exec i (s.withLst k) = .next (t.withLst k) := by
    rw [exec_withLst s k hreg hact hdeact, hx]; rfl
  refine ⟨moves l, ?_⟩
  have unmoved : t.withLst s.lst = t := Host.Outcome.next.inj ((moves s.lst).symm.trans hx)
  exact (congrArg State.lst unmoved).symm

/-! ## Masks -/

/-- Settles O9, kind by kind. -/
theorem maskAndOffsetOfSlot : Obligations.MaskAndOffsetOfSlot := by
  intro v
  refine ⟨fun sel hv => ?_, fun hv => ?_, fun hv => ?_⟩
  · exact ⟨BitVec.eq_of_toNat_eq (by simp [View.mask, View.ones, View.off, hv]), by simp [View.off, hv]⟩
  · simp [View.mask, View.ones, View.off, hv]
  · simp [View.mask, View.ones, View.off, hv]

/-! ## Runs from reset -/

variable {s t : State}

/-- A block with nothing bound meets the invariant, whatever its parameters are and whatever waits. -/
theorem inv_of_unbound (hrd : Memory.wf s.cfg.aw s.rd = true) (hvt : s.vt = []) (hmt : s.mt = []) (hthr : s.thr = none)
    (hlst : s.lst = Listener.initial) (htime : s.time < 2 ^ s.cfg.tw) : s.Inv := by
  have noView (h : Handle) : s.view? h = none := by simp [State.view?, hvt]
  have noMotor (m : MotorId) : s.motor? m = none := by simp [State.motor?, hmt]
  exact {
    rdWf := hrd
    vtWf := by simp [hvt]
    mtWf := by simp [hmt]
    pins := by simp [noMotor]
    pinsApart := by simp [noMotor]
    oneOwner := by simp [noView]
    viewsFit := by simp [noView]
    timeFits := htime
    thrFits := by simp [hthr]
    tagsFit := by simp [hlst] }

/-- Settles O49: right after reset nothing is bound. -/
theorem resetMeetsInvariant : Obligations.ResetMeetsInvariant :=
  inv_of_unbound rfl rfl rfl rfl rfl (Nat.two_pow_pos _)

/-- Every run from a state that meets the invariant keeps it. -/
theorem run_keeps_inv {k : Nat} (hi : s.Inv) (h : core.run k s = .next t) : t.Inv := by
  induction k generalizing s with
  | zero => exact Host.Outcome.next.inj h ▸ hi
  | succ k ih =>
    have continued := (Host.Core.run.eq_2 core s k).symm.trans h
    split at continued
    case h_1 u hu => exact ih (stepKeepsInvariant s u hi hu).1 continued
    case h_2 => cases continued
    case h_3 => cases continued

/-- The parameters of the vector M4j: R4's values, and volatile registers away from the pins. -/
def steadyPinConfig : Config := { Config.initial with intfAddr := 0xF0, intcapAddr := 0xF1, inputPorts := [] }

def ownedBit (addr : Addr) (sel : BitVec 3) (inv : Bool) : View := { kind := .bit sel, addr := addr, inv := inv, own := 1 }

/-- The setup of M4 in spec/95_test_vectors.md up to M4g, without the nibble view: two pins, a second view of the first
one's bit, a view elsewhere, and motor 0 on the pins. -/
def pinSetup : State :=
  { State.reset with
    cfg := steadyPinConfig
    rd := [(0x12, 0x00), (0x13, 0x00)]
    inputs := [.command (encode (.vbit 2 0x12 3 false 1)), .command (encode (.vbit 3 0x12 2 false 1)),
      .command (encode (.vbit 4 0x12 3 true 1)), .command (encode (.vbit 6 0x13 7 false 1)),
      .command (encode (.mbind 0 2 3))] }

/-- The state before M4j. -/
def aliased : State :=
  { pinSetup with
    vt := [(2, ownedBit 0x12 3 false), (3, ownedBit 0x12 2 false), (4, ownedBit 0x12 3 true), (6, ownedBit 0x13 7 false)]
    mt := [(0, { pin1 := 2, pin2 := 3, mode := .brake })]
    inputs := []
    trace := [.resp 0, .resp 0, .resp 0, .resp 0, .read 0x12 0, .write 0x12 0, .read 0x12 0, .write 0x12 0, .resp 0] }

theorem run_pinSetup : core.run 5 pinSetup = .next aliased := rfl

theorem aliased_inv : aliased.Inv :=
  run_keeps_inv (inv_of_unbound (s := pinSetup) rfl rfl rfl rfl rfl (by decide)) run_pinSetup

/-- The pins of motor 0 show brake until M4j (R25). -/
theorem aliased_coherent : aliased.coherent 0 :=
  ⟨⟨2, 3, .brake⟩, ownedBit 0x12 3 false, ownedBit 0x12 2 false, 3, 2, ⟨by decide, rfl⟩, ⟨by decide, rfl, rfl⟩,
    ⟨by decide, rfl, rfl⟩, rfl, rfl⟩

theorem aliased_pinsSteady : aliased.pinsSteady 0 := by
  intro mot h v hm hh hv
  obtain rfl : mot = ⟨2, 3, .brake⟩ := Option.some.inj (hm.symm.trans rfl)
  rcases hh with rfl | rfl
  · obtain rfl : v = ownedBit 0x12 3 false := Option.some.inj (hv.symm.trans rfl)
    rfl
  · obtain rfl : v = ownedBit 0x12 2 false := Option.some.inj (hv.symm.trans rfl)
    rfl

/-- Settles O54: M4j writes the brake pattern through the inverted second view of pin 1, which sets the bit that motor 0 needs
clear. -/
theorem aliasedMbindBreaksCoherence : Obligations.AliasedMbindBreaksCoherence := by
  refine ⟨aliased, _, 0, 1, 4, 6, ⟨2, 3, .brake⟩, ownedBit 0x12 3 true, ownedBit 0x12 3 false, aliased_inv,
    aliased_coherent, aliased_pinsSteady, ⟨by decide, rfl⟩, rfl, rfl, by decide, ⟨rfl, 3, rfl, rfl⟩, by decide,
    exec_of_effect (.mbind (v1 := ownedBit 0x12 3 true) (v2 := ownedBit 0x13 7 false) rfl), ?_⟩
  rw [State.coherent_iff (mot := ⟨2, 3, .brake⟩) (v1 := ownedBit 0x12 3 false) (v2 := ownedBit 0x12 2 false) (b1 := 3)
    (b2 := 2) ⟨by decide, rfl⟩ ⟨by decide, rfl, rfl⟩ ⟨by decide, rfl, rfl⟩]
  exact fun shown => absurd shown.1 (by decide)

end Sys2Proof.Machine

/-! PROOFS. One transaction on the bus (R31, R32, R34). -/

namespace Sys2Proof.Machine

/-- A non-volatile register answers a read itself, and no draw is used (R31, R34). -/
theorem memRead_nonvolatile {s : State} {a : Addr} (hv : isVolatile s.cfg a = false) :
    memRead s a = (s.byte a, s.emit (.read a (s.byte a))) := by
  simp [memRead, State.afterRead, State.busByte, hv]

/-- A volatile register answers a read with the environment's next draw, which is used up (R34). -/
theorem memRead_volatile {s : State} {a : Addr} (hv : isVolatile s.cfg a = true) :
    memRead s a = (s.draw 0, (s.drop 1).emit (.read a (s.draw 0))) := by
  simp [memRead, State.afterRead, State.busByte, State.nextDraw_eq, hv]

theorem State.draw_zero_of_cons {s : State} {d : Byte} {ds : List Byte} (h : s.draws = d :: ds) : s.draw 0 = d := by
  simp [State.draw, h]

theorem State.drop_one_of_cons {s : State} {d : Byte} {ds : List Byte} (h : s.draws = d :: ds) :
    s.drop 1 = { s with draws := ds, drawn := s.drawn + 1 } := by
  simp [State.drop, h]

/-- Settles O47: the write is a store and an event of the trace; the read splits on whether its address is volatile. -/
theorem readsAndWritesOfRegisters : Obligations.ReadsAndWritesOfRegisters := by
  intro s a b
  refine ⟨fun y => s.withByte_byte a y b, rfl, fun hv => memRead_nonvolatile hv, fun d ds hv hd => ?_⟩
  rw [memRead_volatile hv, State.draw_zero_of_cons hd, State.drop_one_of_cons hd]
  rfl

end Sys2Proof.Machine

/-! PROOFS. The opcode map format by format (R51 to R53): what makes a word legal, the two round trips and the worked
encodings, the illegal words, and the response every word gets (R36, R60). -/

namespace Sys2Proof

variable {w : Word} {i : Instr}

/-! ## Fields of a word -/

/-- Two neighbouring fields, the upper one first, are one field. -/
theorem field_append_field (w : Word) {hi lo n m : Nat} (h : hi = lo + m) :
    field w hi n ++ field w lo m = field w lo (n + m) :=
  BitVec.extractLsb'_append_extractLsb'_eq_extractLsb' h

theorem field_whole (w : Word) : field w 0 32 = w := BitVec.extractLsb'_eq_self

/-- A field that lies under the mask of a row is that field of the row's pattern. -/
theorem field_of_masked {w m p : Word} (h : w &&& m = p) {lo len : Nat} (hm : field m lo len = BitVec.allOnes len) :
    field w lo len = field p lo len := by
  unfold field at hm ⊢
  rw [← h, BitVec.extractLsb'_and, hm, BitVec.and_allOnes]

theorem ofBool_flagOf (b : BitVec 1) : BitVec.ofBool (flagOf b) = b := by
  revert b; decide

theorem NibblePos.code_ofCode (b : BitVec 1) : (NibblePos.ofCode b).code = b := by
  revert b; decide

/-- Each of the four values of the field `tgt` is a mode's (R13). -/
theorem Mode.exists_code (b : BitVec 2) : ∃ tgt : Mode, b = tgt.code := by
  have hb : b = Mode.brake.code ∨ b = Mode.coast.code ∨ b = Mode.forward.code ∨ b = Mode.reverse.code := by
    revert b; decide
  rcases hb with h | h | h | h <;> exact ⟨_, h⟩

/-! ## Legal words -/

/-- The formats of R51 and R52: the fields that make a word legal, and the command that its operand fields spell. -/
inductive Legal (w : Word) : Instr → Prop where
  | vbit (op : field w 28 4 = 0x1#4) (z : field w 8 3 = 0#3) (z' : field w 3 1 = 0#1) :
    Legal w (.vbit (field w 20 8) (field w 12 8) (field w 0 3) (flagOf (field w 11 1)) (field w 4 4))
  | vnib (op : field w 28 4 = 0x2#4) (z : field w 8 3 = 0#3) (z' : field w 1 3 = 0#3) :
    Legal w (.vnib (field w 20 8) (field w 12 8) (.ofCode (field w 0 1)) (flagOf (field w 11 1)) (field w 4 4))
  | mbind (op : field w 28 4 = 0x3#4) (z : field w 16 8 = 0#8) :
    Legal w (.mbind (field w 24 4) (field w 8 8) (field w 0 8))
  | bget (op : field w 28 4 = 0x4#4) (z : field w 0 20 = 0#20) : Legal w (.bget (field w 20 8))
  | bset (op : field w 28 4 = 0x5#4) (z : field w 8 12 = 0#12) : Legal w (.bset (field w 20 8) (field w 0 8))
  | nget (op : field w 28 4 = 0x6#4) (z : field w 0 20 = 0#20) : Legal w (.nget (field w 20 8))
  | nset (op : field w 28 4 = 0x7#4) (z : field w 8 12 = 0#12) : Legal w (.nset (field w 20 8) (field w 0 8))
  | transition {tgt : Mode} (op : field w 28 4 = 0x8#4) (z : field w 2 22 = 0#22) (ht : field w 0 2 = tgt.code) :
    Legal w (Instr.mtrans (field w 24 4) tgt)
  | mmode (op : field w 28 4 = 0x9#4) (z : field w 0 24 = 0#24) : Legal w (.mmode (field w 24 4))
  | lreg (op : field w 28 4 = 0xA#4) (z : field w 27 1 = 0#1) (z' : field w 22 2 = 0#2) (z'' : field w 16 4 = 0#4)
      (he : field w 20 2 ≠ 3#2) : Legal w (.lreg (field w 24 3) (field w 20 2) (field w 0 16))
  | lact (op : field w 28 4 = 0xB#4) (z : field w 0 28 = 0#28) : Legal w .lact
  | ldeact (op : field w 28 4 = 0xC#4) (z : field w 0 28 = 0#28) : Legal w .ldeact

/-- A row selects legal words only, and reads what they spell. -/
theorem OpcodeRow.legal_of_selects {r : OpcodeRow} (hr : r ∈ opcodeRows) (hs : r.selects w = true) : Legal w (r.read w) := by
  obtain ⟨hmask, hlegal⟩ := Bool.and_eq_true_iff.1 hs
  have fixed {lo len : Nat} (hm : field r.mask lo len = BitVec.allOnes len) : field w lo len = field r.pattern lo len :=
    field_of_masked (beq_iff_eq.1 hmask) hm
  simp only [opcodeRows, viewRows, motorRows, List.cons_append, List.nil_append, List.mem_cons, List.not_mem_nil,
    or_false] at hr
  rcases hr with rfl | rfl | rfl | rfl | rfl | rfl | rfl | rfl | rfl | rfl | rfl | rfl | rfl | rfl | rfl
  · exact .vbit (fixed rfl) (fixed rfl) (fixed rfl)
  · exact .vnib (fixed rfl) (fixed rfl) (fixed rfl)
  · exact .mbind (fixed rfl) (fixed rfl)
  · exact .bget (fixed rfl) (fixed rfl)
  · exact .bset (fixed rfl) (fixed rfl)
  · exact .nget (fixed rfl) (fixed rfl)
  · exact .nset (fixed rfl) (fixed rfl)
  · exact .transition (tgt := .brake) (fixed rfl) (fixed rfl) (fixed rfl)
  · exact .transition (tgt := .coast) (fixed rfl) (fixed rfl) (fixed rfl)
  · exact .transition (tgt := .forward) (fixed rfl) (fixed rfl) (fixed rfl)
  · exact .transition (tgt := .reverse) (fixed rfl) (fixed rfl) (fixed rfl)
  · exact .mmode (fixed rfl) (fixed rfl)
  · exact .lreg (fixed rfl) (fixed rfl) (fixed rfl) (fixed rfl) (by simpa using hlegal)
  · exact .lact (fixed rfl) (fixed rfl)
  · exact .ldeact (fixed rfl) (fixed rfl)

theorem legal_of_decode (h : decode w = .ok i) : Legal w i := by
  obtain ⟨r, hr, hs, rfl⟩ := row_of_decode h
  exact OpcodeRow.legal_of_selects hr hs

theorem Legal.wellFormed (h : Legal w i) : i.wellFormed = true := by
  cases h with
  | lreg op z z' z'' he => exact bne_iff_ne.2 he
  | @transition tgt => cases tgt <;> rfl
  | _ => rfl

theorem encode_mtrans (m : MotorId) (tgt : Mode) : encode (Instr.mtrans m tgt) = 0x8#4 ++ m ++ 0#22 ++ tgt.code := by
  cases tgt <;> rfl

/-- A legal word is its fields in a row, which is how the command it spells is encoded (R51). -/
theorem Legal.encode_eq (h : Legal w i) : encode i = w := by
  cases h with
  | vbit op z z' =>
    have fields : field w 28 4 ++ field w 20 8 ++ field w 12 8 ++ field w 11 1 ++ field w 8 3 ++ field w 4 4 ++
        field w 3 1 ++ field w 0 3 = w := by simp only [field_append_field]; exact field_whole w
    simpa only [encode, op, z, z', ofBool_flagOf] using fields
  | vnib op z z' =>
    have fields : field w 28 4 ++ field w 20 8 ++ field w 12 8 ++ field w 11 1 ++ field w 8 3 ++ field w 4 4 ++
        field w 1 3 ++ field w 0 1 = w := by simp only [field_append_field]; exact field_whole w
    simpa only [encode, op, z, z', ofBool_flagOf, NibblePos.code_ofCode] using fields
  | mbind op z =>
    have fields : field w 28 4 ++ field w 24 4 ++ field w 16 8 ++ field w 8 8 ++ field w 0 8 = w := by
      simp only [field_append_field]; exact field_whole w
    simpa only [encode, op, z] using fields
  | bget op z | nget op z =>
    have fields : field w 28 4 ++ field w 20 8 ++ field w 0 20 = w := by
      simp only [field_append_field]; exact field_whole w
    simpa only [encode, op, z] using fields
  | bset op z | nset op z =>
    have fields : field w 28 4 ++ field w 20 8 ++ field w 8 12 ++ field w 0 8 = w := by
      simp only [field_append_field]; exact field_whole w
    simpa only [encode, op, z] using fields
  | transition op z ht =>
    have fields : field w 28 4 ++ field w 24 4 ++ field w 2 22 ++ field w 0 2 = w := by
      simp only [field_append_field]; exact field_whole w
    simpa only [encode_mtrans, op, z, ht] using fields
  | mmode op z =>
    have fields : field w 28 4 ++ field w 24 4 ++ field w 0 24 = w := by
      simp only [field_append_field]; exact field_whole w
    simpa only [encode, op, z] using fields
  | lreg op z z' z'' =>
    have fields : field w 28 4 ++ field w 27 1 ++ field w 24 3 ++ field w 22 2 ++ field w 20 2 ++ field w 16 4 ++
        field w 0 16 = w := by simp only [field_append_field]; exact field_whole w
    simpa only [encode, op, z, z', z''] using fields
  | lact op z | ldeact op z =>
    have fields : field w 28 4 ++ field w 0 28 = w := by
      simp only [field_append_field]; exact field_whole w
    simpa only [encode, op, z] using fields

/-! ## Round trips -/

/-- Settles O3: a word that decodes is legal, and a legal word is the word of the command it spells. -/
theorem encodeOfDecode : Obligations.EncodeOfDecode :=
  fun _ _ h => ⟨(legal_of_decode h).wellFormed, (legal_of_decode h).encode_eq⟩

/-- The word of a well-formed command is read back by a row of the opcode map. -/
theorem encodedRow (i : Instr) : Laws.EncodedRow.Statement i := by
  cases i with
  | vbit => exact Laws.EncodedRow.vbit _ _ _ _ _
  | vnib => exact Laws.EncodedRow.vnib _ _ _ _ _
  | mbind => exact Laws.EncodedRow.mbind _ _ _
  | bget => exact Laws.EncodedRow.bget _
  | bset => exact Laws.EncodedRow.bset _ _
  | nget => exact Laws.EncodedRow.nget _
  | nset => exact Laws.EncodedRow.nset _ _
  | brake => exact Laws.EncodedRow.brake _
  | coast => exact Laws.EncodedRow.coast _
  | forward => exact Laws.EncodedRow.forward _
  | reverse => exact Laws.EncodedRow.reverse _
  | mmode => exact Laws.EncodedRow.mmode _
  | lreg => exact Laws.EncodedRow.lreg _ _ _
  | lact => exact Laws.EncodedRow.lact
  | ldeact => exact Laws.EncodedRow.ldeact

/-- Settles O2: the row that reads the command back is the only one that selects its word. -/
theorem decodeOfEncode : Obligations.DecodeOfEncode := by
  intro i hw
  obtain ⟨n, r, hn, hs, hread⟩ := encodedRow i hw
  rw [decode_of_row hn hs, hread]

theorem decode_eq_ok_iff : decode w = .ok i ↔ Legal w i :=
  ⟨legal_of_decode, fun h => h.encode_eq ▸ decodeOfEncode i h.wellFormed⟩

/-- Settles O1: each word is the word of its command. -/
theorem workedEncodingsDecode : Obligations.WorkedEncodingsDecode :=
  ⟨decodeOfEncode (.vbit 2 0x12 3 false 1) rfl, decodeOfEncode (.vnib 5 0x13 .upper true 7) rfl,
    decodeOfEncode (.mbind 0 2 3) rfl, decodeOfEncode (.bget 2) rfl, decodeOfEncode (.bset 2 1) rfl,
    decodeOfEncode (.nget 5) rfl, decodeOfEncode (.nset 5 0xC) rfl, decodeOfEncode (.forward 1) rfl,
    decodeOfEncode (.mmode 0) rfl, decodeOfEncode (.lreg 3 1 0xBEEF) rfl, decodeOfEncode .lact rfl,
    decodeOfEncode .ldeact rfl⟩

/-! ## Illegal words -/

theorem decode_error_iff_not_legal : (∃ e, decode w = .error e) ↔ ¬ ∃ i, Legal w i := by
  simp only [← decode_eq_ok_iff]
  cases decode w <;> simp

/-- Some command is spelled exactly if the fields of the opcode's format are as `Legal` asks (R51, R52). -/
theorem exists_legal_iff : (∃ i, Legal w i) ↔
    (field w 28 4 = 0x1#4 ∧ field w 8 3 = 0 ∧ field w 3 1 = 0) ∨
    (field w 28 4 = 0x2#4 ∧ field w 8 3 = 0 ∧ field w 1 3 = 0) ∨
    (field w 28 4 = 0x3#4 ∧ field w 16 8 = 0) ∨
    ((field w 28 4 = 0x4#4 ∨ field w 28 4 = 0x6#4) ∧ field w 0 20 = 0) ∨
    ((field w 28 4 = 0x5#4 ∨ field w 28 4 = 0x7#4) ∧ field w 8 12 = 0) ∨
    (field w 28 4 = 0x8#4 ∧ field w 2 22 = 0) ∨
    (field w 28 4 = 0x9#4 ∧ field w 0 24 = 0) ∨
    (field w 28 4 = 0xA#4 ∧ field w 27 1 = 0 ∧ field w 22 2 = 0 ∧ field w 16 4 = 0 ∧ field w 20 2 ≠ 3#2) ∨
    ((field w 28 4 = 0xB#4 ∨ field w 28 4 = 0xC#4) ∧ field w 0 28 = 0) := by
  constructor
  · rintro ⟨i, h⟩
    cases h with
    | vbit op z z' | vnib op z z' => simp [op, z, z']
    | lreg op z z' z'' he => simp [op, z, z', z'', he]
    | mbind op z | bget op z | bset op z | nget op z | nset op z | transition op z | mmode op z | lact op z
    | ldeact op z => simp [op, z]
  · rintro (⟨op, z, z'⟩ | ⟨op, z, z'⟩ | ⟨op, z⟩ | ⟨op | op, z⟩ | ⟨op | op, z⟩ | ⟨op, z⟩ | ⟨op, z⟩ | ⟨op, z, z', z'', he⟩ |
      ⟨op | op, z⟩)
    · exact ⟨_, .vbit op z z'⟩
    · exact ⟨_, .vnib op z z'⟩
    · exact ⟨_, .mbind op z⟩
    · exact ⟨_, .bget op z⟩
    · exact ⟨_, .nget op z⟩
    · exact ⟨_, .bset op z⟩
    · exact ⟨_, .nset op z⟩
    · obtain ⟨tgt, ht⟩ := Mode.exists_code (field w 0 2)
      exact ⟨_, .transition op z ht⟩
    · exact ⟨_, .mmode op z⟩
    · exact ⟨_, .lreg op z z' z'' he⟩
    · exact ⟨_, .lact op z⟩
    · exact ⟨_, .ldeact op z⟩

theorem opcode_cases (op : BitVec 4) : op = 0x0#4 ∨ op = 0x1#4 ∨ op = 0x2#4 ∨ op = 0x3#4 ∨ op = 0x4#4 ∨ op = 0x5#4 ∨
    op = 0x6#4 ∨ op = 0x7#4 ∨ op = 0x8#4 ∨ op = 0x9#4 ∨ op = 0xA#4 ∨ op = 0xB#4 ∨ op = 0xC#4 ∨ op = 0xD#4 ∨
    op = 0xE#4 ∨ op = 0xF#4 := by
  revert op; decide

end Sys2Proof

namespace Sys2Proof.Machine

variable {s t : State} {w : Word}

theorem step_illegal {e : Illegal} (hd : decode w = .error e) {rest : List Input} (hs : s.inputs = .command w :: rest) :
    step s = .next { s with inputs := rest, trace := s.trace ++ [.resp 0x0600] } := by
  rw [step_cons hs]
  simp only [acceptInput, runCommand, hd]
  rfl

/-- Settles O4: under each opcode the illegal words are those whose fields are not as its format asks. -/
theorem illegalWordsAnswerIllegalCommand : Obligations.IllegalWordsAnswerIllegalCommand := by
  intro w
  refine ⟨?_, fun ⟨_, hd⟩ _ _ hs => step_illegal hd hs⟩
  rw [decode_error_iff_not_legal, exists_legal_iff]
  simp only [field]
  rcases opcode_cases (w.extractLsb' 28 4) with op | op | op | op | op | op | op | op | op | op | op | op | op | op | op | op
  all_goals simp only [op, BitVec.reduceEq, false_and, true_and, false_or, or_false, or_true, or_self, not_false_eq_true,
    not_and_or, not_not, ne_eq]

/-! ## Responses -/

/-- The largest value a command can answer (R60). -/
def maxValue : Instr → Nat
  | .bget _ => 1
  | .nget _ => 15
  | .mmode _ => 3
  | _ => 0

theorem bitByte_toNat_le (x : Bool) : (bitByte x).toNat ≤ 1 := by
  cases x <;> decide

theorem Mode.code_toNat_le (mode : Mode) : (mode.code.setWidth 8).toNat ≤ 3 := by
  cases mode <;> decide

/-- A nibble read has no bit above bit 3 (R76). -/
theorem View.extract_nibble_toNat_le {v : View} {pos : NibblePos} (h : v.kind = .nibble pos) (b : Byte) :
    (v.extract b).toNat ≤ 15 := by
  refine Nat.le_of_lt_succ (Nat.lt_pow_two_of_testBit (n := 4) _ fun k hk => ?_)
  rw [BitVec.testBit_toNat, View.extract_nibble h]
  simp [Nat.not_lt.2 hk]

/-- A command that has its effect answers OK with a value of its range (R60). -/
theorem Effect.answer {s t : State} {i : Instr} (h : Effect s i t) :
    ∃ v u, t = answered .ok v u ∧ v.toNat ≤ maxValue i := by
  cases h with
  | bget hv =>
    refine ⟨_, _, rfl, ?_⟩
    rw [View.extract_bit hv.2.2]
    exact bitByte_toNat_le _
  | nget hv => exact ⟨_, _, rfl, View.extract_nibble_toNat_le hv.2.2 _⟩
  | mmode => exact ⟨_, _, rfl, Mode.code_toNat_le _⟩
  | _ => exact ⟨_, _, rfl, Nat.zero_le _⟩

/-- A value other than 0 comes from BGET, NGET or MMODE, and is one of theirs (R60). -/
theorem value_range {i : Instr} {v : Byte} (hle : v.toNat ≤ maxValue i) (hne : v ≠ 0) :
    (∃ h, i = .bget h ∧ v.toNat ≤ 1) ∨ (∃ h, i = .nget h ∧ v.toNat ≤ 15) ∨ ∃ m, i = .mmode m ∧ v.toNat ≤ 3 := by
  cases i with
  | bget h => exact .inl ⟨h, rfl, hle⟩
  | nget h => exact .inr (.inl ⟨h, rfl, hle⟩)
  | mmode m => exact .inr (.inr ⟨m, rfl, hle⟩)
  | _ => exact absurd (BitVec.eq_of_toNat_eq (Nat.le_zero.1 hle)) hne

/-- What a command word shows: its bus transactions, then one response, whose value is 0 or that of a command that completed
with OK (R36, R60). -/
theorem runCommand_shown (h : runCommand w s = .next t) :
    ∃ os e v, (∀ o ∈ os, o.onBus) ∧ t.trace = s.trace ++ os ++ [.resp (responseWord e v)] ∧
      (v = 0 ∨ e = .ok ∧ ∃ i, decode w = .ok i ∧ v.toNat ≤ maxValue i) := by
  rcases runCommand_cases h with ⟨_, -, rfl⟩ | ⟨i, hi, hx⟩
  · exact ⟨[], .illegalCommand, 0, by simp, by simp [answered], .inl rfl⟩
  · rcases exec_cases hx with ⟨e, -, rfl⟩ | he
    · exact ⟨[], e, 0, by simp, by simp [answered], .inl rfl⟩
    · obtain ⟨os, v, ht, ho⟩ := he.shown
      obtain ⟨v', u, rfl, hle⟩ := he.answer
      have same : responseWord .ok v' = responseWord .ok v := by
        simpa [answered] using List.append_inj_right' ht rfl
      exact ⟨os, .ok, v', ho, same ▸ ht, .inr ⟨rfl, i, hi, hle⟩⟩

/-- Settles O6: the command's own record, which a volatile change inside the command leaves as it is. -/
theorem everyWordIsAnsweredOnce : Obligations.EveryWordIsAnsweredOnce := by
  intro s t w rest hr h
  obtain ⟨full, run, ht, -⟩ := step_of_runsNext hr h
  obtain ⟨os, e, v, ho, shown, hv⟩ := runCommand_shown run
  obtain ⟨status, value, top⟩ := responseWord_fields e v
  refine ⟨os, responseWord e v, ho, ?_, top, fun hne => ?_, fun hne => ?_⟩
  · rw [ht]; exact shown
  · rw [value]
    rw [status] at hne
    exact hv.resolve_right fun ⟨he, _⟩ => hne (he ▸ rfl)
  · rw [value] at hne ⊢
    obtain ⟨-, i, hi, hle⟩ := hv.resolve_left hne
    simpa [hi] using value_range hle hne

end Sys2Proof.Machine

/-! PROOFS. The view commands (spec/40_views.md): when a bind is refused and what it does (R70, R71, R73), which accesses are
refused (R72), what a get answers and a set writes (R74 to R81), and what a get returns after a set (R82 to R84). -/

namespace Sys2Proof.Machine

variable {s t : State}

/-! ## The bits a view covers -/

theorem View.covers_lt {v : View} {k : Nat} (h : v.covers k) : k < 8 := by
  rcases hv : v.kind with sel | pos
  · simp only [View.covers, hv] at h
    exact h ▸ sel.isLt
  · cases pos <;> simp only [View.covers, hv] at h <;> omega

theorem View.off_le_of_covers {v : View} {k : Nat} (h : v.covers k) : v.off ≤ k := by
  rcases hv : v.kind with sel | pos
  · simp only [View.covers, hv] at h
    simp [View.off, hv, h]
  · cases pos <;> simp only [View.covers, hv] at h <;> simp only [View.off, hv] <;> omega

/-- The bits of the view's value are those it covers, moved down by its offset (R11). -/
theorem View.covers_add_off (v : View) (j : Nat) : v.covers (j + v.off) ↔ v.ones.getLsbD j = true := by
  rcases hv : v.kind with sel | pos
  · simp [View.covers, View.off, hv, View.ones_getLsbD_bit hv]
  · rw [View.ones_getLsbD_nibble hv]
    cases pos <;> simp [View.covers, View.off, hv]
    omega

theorem View.ones_getLsbD_of_covers {v : View} {k : Nat} (h : v.covers k) : v.ones.getLsbD (k - v.off) = true := by
  rwa [← View.covers_add_off, Nat.sub_add_cancel (View.off_le_of_covers h)]

/-- A get shows each covered bit through the view's polarity (R74, R76). -/
theorem View.extract_covered {v : View} (b : Byte) {k : Nat} (h : v.covers k) :
    (v.extract b).getLsbD (k - v.off) = (b.getLsbD k != v.inv) := by
  simp [View.extract_getLsbD, View.ones_getLsbD_of_covers h, Nat.add_sub_of_le (View.off_le_of_covers h)]

/-- A get shows no other bit. -/
theorem View.covers_of_extract {v : View} {b : Byte} {j : Nat} (h : (v.extract b).getLsbD j = true) :
    v.covers (j + v.off) := by
  rw [View.covers_add_off]
  by_contra hc
  rw [View.extract_getLsbD, Bool.eq_false_iff.2 hc] at h
  simp at h

/-- A set writes each covered bit through the view's polarity (R75, R77). -/
theorem View.merge_covered {v : View} (old x : Byte) {k : Nat} (h : v.covers k) :
    (v.merge old x).getLsbD k = (x.getLsbD (k - v.off) != v.inv) := by
  have hk := View.covers_lt h
  simp [View.merge_getLsbD v old x hk, (v.mask_getLsbD hk).2 h, View.off_le_of_covers h, View.ones_getLsbD_of_covers h]

/-- A value that the view can hold has no bit but those of the view. -/
theorem View.covers_of_value {v : View} {x : Byte} (hx : x.toNat ≤ v.ones.toNat) {j : Nat} (h : x.getLsbD j = true) :
    v.covers (j + v.off) := by
  rw [View.covers_add_off]
  rcases hv : v.kind with sel | pos
  · rw [eq_bitByte_of_le_one (v := x) (by simpa [View.ones, hv] using hx), bitByte_getLsbD] at h
    rw [View.ones_getLsbD_bit hv]
    exact (Bool.and_eq_true_iff.1 h).1
  · rw [View.ones_getLsbD_nibble hv, decide_eq_true_eq]
    by_contra hj
    rw [getLsbD_of_le_fifteen (by simpa [View.ones, hv] using hx) (Nat.le_of_not_lt hj)] at h
    cases h

/-- The byte written agrees with the byte read outside the mask (R83). -/
theorem View.merge_and_not_mask (v : View) (old : Byte) {x : Byte} (hx : x.toNat ≤ v.ones.toNat) :
    v.merge old x &&& ~~~v.mask = old &&& ~~~v.mask := by
  refine BitVec.eq_of_getLsbD_eq fun k hk => ?_
  simp only [BitVec.getLsbD_and, BitVec.getLsbD_not]
  by_cases hc : v.covers k
  · simp [(v.mask_getLsbD hk).2 hc]
  · rw [View.merge_outside v old x hx hk hc]

/-- The value set is the value read back from the byte written (R82). -/
theorem View.extract_merge (v : View) (old : Byte) {x : Byte} (hx : x.toNat ≤ v.ones.toNat) :
    v.extract (v.merge old x) = x := by
  refine BitVec.eq_of_getLsbD_eq fun j _ => ?_
  by_cases hc : v.covers (j + v.off)
  · have get := View.extract_covered (v.merge old x) hc
    rw [View.merge_covered old x hc, Nat.add_sub_cancel] at get
    simpa using get
  · rw [Bool.eq_false_iff.2 fun h => hc (View.covers_of_extract h),
      Bool.eq_false_iff.2 fun h => hc (View.covers_of_value hx h)]

/-! ## Responses -/

theorem responseWord_ok (x : Byte) : responseWord .ok x = x.setWidth 16 := by
  refine BitVec.eq_of_getLsbD_eq fun k hk => ?_
  simp only [responseWord, BitVec.getLsbD_append, BitVec.getLsbD_setWidth]
  interval_cases k <;> simp [Status.code]

theorem responseWord_ok_getLsbD (x : Byte) (k : Nat) : (responseWord .ok x).getLsbD k = x.getLsbD k := by
  rw [responseWord_ok, BitVec.getLsbD_setWidth]
  by_cases hk : k < 16
  · simp [hk]
  · simp [hk, BitVec.getLsbD_of_ge x k (by omega)]

theorem responseWord_ok_bitByte (b : Bool) : responseWord .ok (bitByte b) = if b then 0x0001 else 0x0000 := by
  cases b <;> rfl

/-- A command that answers another status has not answered ConfigError (R60). -/
theorem answersOnly_ne_answered {e : Status} (he : Status.configError.code ≠ e.code) {x : Byte} {u : State} :
    s.answersOnly 0x0500 ≠ answered e x u := by
  intro h
  have last : [Obs.resp (responseWord .configError 0)] = [.resp (responseWord e x)] :=
    List.append_inj_right' (congrArg State.trace h) rfl
  have status := congrArg statusOf (Obs.resp.inj (List.singleton_inj.1 last))
  rw [(responseWord_fields ..).1, (responseWord_fields ..).1] at status
  exact he status

/-! ## Binding a slot -/

/-- A handle of the machine names every slot, as NVIEWS is at most 256 (R4, R73). -/
theorem overlaps_iff (hn : s.cfg.nviews ≤ 256) (v : View) : overlaps s v = true ↔
    ∃ g w, g.toNat < s.cfg.nviews ∧ s.view? g = some w ∧ w.sharesBit v ∧ w.own ≠ v.own := by
  simp only [overlaps, List.any_eq_true, List.mem_range, Option.any_eq_true, View.clashes_iff]
  constructor
  · rintro ⟨g, hg, w, hw, clash⟩
    have hgn : (BitVec.ofNat 8 g).toNat = g := Nat.mod_eq_of_lt (by omega)
    exact ⟨BitVec.ofNat 8 g, w, by rwa [hgn], by rwa [State.view?, hgn], clash⟩
  · rintro ⟨g, w, hg, hw, clash⟩
    exact ⟨g.toNat, hg, w, hw, clash⟩

/-- When a bind is refused (R70, R71, R73). -/
theorem bindRefused_iff (hn : s.cfg.nviews ≤ 256) (h : Handle) (v : View) : bindRefused s h v = true ↔
    s.cfg.nviews ≤ h.toNat ∨ s.view? h ≠ none ∨ (s.cfg.overlapCheck = true ∧
      ∃ g w, g.toNat < s.cfg.nviews ∧ s.view? g = some w ∧ w.sharesBit v ∧ w.own ≠ v.own) := by
  simp [bindRefused, State.viewInRange, overlaps_iff hn, Option.isSome_iff_ne_none, or_assoc]

theorem sharesBit_bitViewOf (c : Config) (w : View) (addr : AddrField) (bit : BitVec 3) (inv : Bool) (own : OwnField) :
    w.sharesBit (bitViewOf c addr bit inv own) ↔ w.addr = addr.toNat % 2 ^ c.aw ∧ w.covers bit.toNat := by
  simp [View.sharesBit, bitViewOf, addrOf, lowBits, View.covers]

theorem sharesBit_nibbleViewOf (c : Config) (w : View) (addr : AddrField) (pos : NibblePos) (inv : Bool) (own : OwnField) :
    w.sharesBit (nibbleViewOf c addr pos inv own) ↔
      w.addr = addr.toNat % 2 ^ c.aw ∧ ∃ k, w.covers k ∧ if pos = .lower then k < 4 else 4 ≤ k ∧ k < 8 := by
  cases pos <;> simp [View.sharesBit, nibbleViewOf, addrOf, lowBits, View.covers]

/-- A bind whose conditions hold is not refused (R70, R71, R73). -/
theorem bindRefused_of_free (hn : s.cfg.nviews ≤ 256) {h : Handle} {v : View} (hr : h.toNat < s.cfg.nviews)
    (hu : s.view? h = none)
    (noclash : s.cfg.overlapCheck = true → ∀ g w, g.toNat < s.cfg.nviews → s.view? g = some w → w.sharesBit v →
      w.own = v.own) : bindRefused s h v = false := by
  rw [← Bool.not_eq_true, bindRefused_iff hn]
  rintro (hle | hb | ⟨ho, g, w, hg, hw, hs, hne⟩)
  · omega
  · exact hb hu
  · exact hne (noclash ho g w hg hw hs)

/-- `t` is `s` with slot `h` bound to `v` and the answer OK, and nothing else (R70, R71). -/
def State.bindsOnly (s t : State) (h : Handle) (v : View) : Prop :=
  (∀ g, t.view? g = if g = h then some v else s.view? g) ∧
    t.mt = s.mt ∧ t.thr = s.thr ∧ t.lst = s.lst ∧ t.rd = s.rd ∧ t.trace = s.trace ++ [.resp 0x0000] ∧
    s.sameOutside t ∧ s.usedDraws t 0

theorem bindsOnly_withView (s : State) (h : Handle) (v : View) : s.bindsOnly (answered .ok 0 (s.withView h v)) h v :=
  ⟨fun g => s.withView_view? h g v, rfl, rfl, rfl, rfl, rfl, ⟨rfl, rfl, rfl⟩, rfl, rfl⟩

/-- Settles O10: the premises are those under which `bindRefused` lets the bind go on. -/
theorem vbitBindsSlot : Obligations.VbitBindsSlot := by
  intro s h addr bit inv own adm hr hu noclash
  have ok : bindRefused s h (bitViewOf s.cfg addr bit inv own) = false :=
    bindRefused_of_free adm.2.1 hr hu fun ho g w hg hw hs =>
      have ⟨ha, hc⟩ := (sharesBit_bitViewOf ..).1 hs
      noclash ho g w hg hw ha hc
  exact ⟨_, exec_of_effect (.vbit ok), bindsOnly_withView s h _⟩

/-- Settles O11: as O10, for either half. -/
theorem vnibBindsSlot : Obligations.VnibBindsSlot := by
  intro s h addr pos inv own adm hr hu noclash
  have ok : bindRefused s h (nibbleViewOf s.cfg addr pos inv own) = false :=
    bindRefused_of_free adm.2.1 hr hu fun ho g w hg hw hs =>
      have ⟨ha, hc⟩ := (sharesBit_nibbleViewOf ..).1 hs
      noclash ho g w hg hw ha hc
  exact ⟨_, exec_of_effect (.vnib ok), bindsOnly_withView s h _⟩

theorem bindView_configError_iff (s : State) (h : Handle) (v : View) :
    bindView h v s = .next (s.answersOnly 0x0500) ↔ bindRefused s h v = true := by
  refine ⟨fun e => ?_, fun hr => if_pos hr⟩
  rcases bindView_cases e with ⟨hr, -⟩ | ⟨-, ht⟩
  · exact hr
  · exact absurd ht (answersOnly_ne_answered (by decide))

/-- Settles O12: a bind answers ConfigError exactly if it is refused, and the slot to be bound covers the bit or the half
that the command names. -/
theorem bindRefusedExactly : Obligations.BindRefusedExactly := by
  intro s h addr inv own adm
  refine ⟨fun bit => (bindView_configError_iff ..).trans ?_, fun pos => (bindView_configError_iff ..).trans ?_⟩
  · simp only [bindRefused_iff adm.2.1, sharesBit_bitViewOf, and_assoc]
    rfl
  · simp only [bindRefused_iff adm.2.1, sharesBit_nibbleViewOf, and_assoc, ← exists_and_right, exists_and_left]
    rfl

/-! ## Handles of an access -/

theorem checkBitView_eq_none_iff {h : Handle} : checkBitView s h = none ↔ ¬ ∃ v sel, s.hasBitView h v sel := by
  simp only [Option.eq_none_iff_forall_ne_some, ne_eq, checkBitView_eq_some, not_exists]

theorem checkNibbleView_eq_none_iff {h : Handle} : checkNibbleView s h = none ↔ ¬ ∃ v pos, s.hasNibbleView h v pos := by
  simp only [Option.eq_none_iff_forall_ne_some, ne_eq, checkNibbleView_eq_some, not_exists]

theorem getThrough_configError_iff (c : Option View) (s : State) :
    getThrough c s = .next (s.answersOnly 0x0500) ↔ c = none := by
  refine ⟨fun e => ?_, fun hc => hc ▸ rfl⟩
  rcases getThrough_cases e with ⟨hc, -⟩ | ⟨v, -, ht⟩
  · exact hc
  · exact absurd ht (answersOnly_ne_answered (by decide))

/-- The handle is checked before the value (R139). -/
theorem setThrough_configError_iff (c : Option View) (top x : Byte) (s : State) :
    setThrough c top x s = .next (s.answersOnly 0x0500) ↔ c = none := by
  refine ⟨fun e => ?_, fun hc => hc ▸ rfl⟩
  rcases setThrough_cases e with ⟨hc, -⟩ | ⟨v, -, -, ht⟩ | ⟨v, -, -, ht⟩
  · exact hc
  · exact absurd ht (answersOnly_ne_answered (by decide))
  · exact absurd ht (answersOnly_ne_answered (by decide))

/-- Settles O17: each access answers ConfigError exactly if the check of its handle finds no view. -/
theorem wrongHandleIsConfigError : Obligations.WrongHandleIsConfigError := fun _ _ _ =>
  ⟨(getThrough_configError_iff ..).trans checkBitView_eq_none_iff,
    (setThrough_configError_iff ..).trans checkBitView_eq_none_iff,
    (getThrough_configError_iff ..).trans checkNibbleView_eq_none_iff,
    (setThrough_configError_iff ..).trans checkNibbleView_eq_none_iff⟩

/-! ## A get -/

/-- What a get leaves: one read and the answer, and nothing else changed (R78, R80). -/
theorem answered_afterRead (s : State) (a : Addr) (x : Byte) : answered .ok x (s.afterRead a) =
    { s with
      draws := s.draws.drop (s.drawsAt a)
      drawn := s.drawn + s.drawsAt a
      trace := s.trace ++ [.read a (s.firstRead a), .resp (responseWord .ok x)] } := by
  rw [State.afterRead_eq]
  simp [answered, State.emit, State.drop]

/-- Settles O13: the value extracted through a bit view is its logical bit. -/
theorem bgetAnswersLogicalBit : Obligations.BgetAnswersLogicalBit := by
  intro s h v sel hv
  rw [exec_of_effect (.bget hv), answered_afterRead, View.extract_bit hv.2.2, responseWord_ok_bitByte]

/-- Settles O14: the value extracted through a nibble view, bit by bit, with zeros above it in the response. -/
theorem ngetAnswersLogicalNibble : Obligations.NgetAnswersLogicalNibble := by
  intro s h v pos hv
  refine ⟨responseWord .ok (v.extract (s.firstRead v.addr)), fun k _ => ?_, ?_⟩
  · rw [responseWord_ok_getLsbD, View.extract_nibble hv.2.2]
  · rw [exec_of_effect (.nget hv), answered_afterRead]

/-! ## A set -/

/-- `i` sets bound view `v` through handle `h` to a value the view can hold (R79, R81). -/
def State.setsView (s : State) (h : Handle) (v : View) (x : Byte) (i : Instr) : Prop :=
  (∃ sel, s.hasBitView h v sel ∧ x.toNat ≤ 1 ∧ i = .bset h x) ∨
    ∃ pos, s.hasNibbleView h v pos ∧ x.toNat ≤ 15 ∧ i = .nset h x

theorem State.setsView.value_le {h : Handle} {v : View} {x : Byte} {i : Instr} (hs : s.setsView h v x i) :
    x.toNat ≤ v.ones.toNat := by
  rcases hs with ⟨sel, hv, hx, -⟩ | ⟨pos, hv, hx, -⟩
  · simpa [View.ones, hv.2.2] using hx
  · simpa [View.ones, hv.2.2] using hx

theorem State.setsView.exec_eq {h : Handle} {v : View} {x : Byte} {i : Instr} (hs : s.setsView h v x i) :
    exec i s = .next (answered .ok 0 (viewSet s v x)) := by
  rcases hs with ⟨sel, hv, hx, rfl⟩ | ⟨pos, hv, hx, rfl⟩
  · exact exec_of_effect (.bset hv hx)
  · exact exec_of_effect (.nset hv hx)

/-- `t` is `s` after one read of register `a`, one write of `new` to it and the answer OK, and nothing else (R45). -/
def State.replacesOnly (s t : State) (a : Addr) (new : Byte) : Prop :=
  t.trace = s.trace ++ [.read a (s.firstRead a), .write a new, .resp 0x0000] ∧
    (∀ y, t.byte y = if y = a then new else s.byte y) ∧
    s.sameBlock t ∧ s.sameOutside t ∧ s.usedDraws t (s.drawsAt a)

theorem replacesOnly_viewSet (s : State) (v : View) (x : Byte) :
    s.replacesOnly (answered .ok 0 (viewSet s v x)) v.addr (setByte s v x) := by
  refine ⟨?_, fun y => viewSet_byte s v x y, ?_, ?_, ?_⟩
  · rw [answered, State.emit_trace, viewSet_trace, List.append_assoc]
    rfl
  all_goals simp [State.sameBlock, State.sameOutside, State.usedDraws, answered]

/-- Settles O15: a value of at most 1 is a logical bit, which the byte written has in the view's place. -/
theorem bsetReplacesTheBit : Obligations.BsetReplacesTheBit := by
  intro s h v sel x hv hx
  refine ⟨_, setByte s v x, exec_of_effect (.bset hv hx), ?_, replacesOnly_viewSet s v x⟩
  have replaced := View.merge_bit hv.2.2 (s.firstRead v.addr) (decide (x = 1))
  rwa [← eq_bitByte_of_le_one hx] at replaced

/-- Settles O16: the byte written has the value in the view's half. -/
theorem nsetReplacesTheNibble : Obligations.NsetReplacesTheNibble := by
  intro s h v pos x hv hx
  exact ⟨_, setByte s v x, exec_of_effect (.nset hv hx), View.merge_nibble hv.2.2 _ x hx, replacesOnly_viewSet s v x⟩

/-- A set that answers OK has set the view its handle names to a value the view can hold (R79, R81). -/
theorem setsView_of_ok {h : Handle} {v : View} {x : Byte} {i : Instr} {os : List Obs} (hi : i = .bset h x ∨ i = .nset h x)
    (hv : s.view? h = some v) (e : exec i s = .next t) (ht : t.trace = s.trace ++ os ++ [.resp 0x0000]) :
    s.setsView h v x i := by
  cases effect_of_ok e ht with
  | @bset g w sel y hw hx =>
    obtain ⟨rfl, rfl⟩ : g = h ∧ y = x := by simpa using hi
    obtain rfl := Option.some.inj (hv.symm.trans hw.2.1)
    exact .inl ⟨sel, hw, hx, rfl⟩
  | @nset g w pos y hw hx =>
    obtain ⟨rfl, rfl⟩ : g = h ∧ y = x := by simpa using hi
    obtain rfl := Option.some.inj (hv.symm.trans hw.2.1)
    exact .inr ⟨pos, hw, hx, rfl⟩
  | @drive _ tgt => cases tgt <;> simp [Instr.mtrans] at hi
  | _ => simp at hi

/-- Settles O20: the byte written agrees with the byte read outside the mask, whichever kind the view is of. -/
theorem setPreservesOtherBits : Obligations.SetPreservesOtherBits := by
  intro s t h v x i os hi hv e ht
  have hs := setsView_of_ok hi hv e ht
  obtain rfl := Host.Outcome.next.inj (e.symm.trans hs.exec_eq)
  obtain ⟨shown, bytes, -⟩ := replacesOnly_viewSet s v x
  refine ⟨fun y hy => by rw [bytes, if_neg hy], _, setByte s v x, ?_, by rw [bytes, if_pos rfl],
    v.merge_and_not_mask _ hs.value_le⟩
  exact (shown_inj (ht.symm.trans (shown.trans (List.append_assoc _ [_, _] _).symm))).1

/-! ## A get after a set -/

/-- `i` gets bound view `v` through handle `h` (R78, R80). -/
def State.getsView (s : State) (h : Handle) (v : View) (i : Instr) : Prop :=
  (∃ sel, s.hasBitView h v sel ∧ i = .bget h) ∨ ∃ pos, s.hasNibbleView h v pos ∧ i = .nget h

theorem State.getsView.exec_eq {h : Handle} {v : View} {i : Instr} (hg : s.getsView h v i) :
    exec i s = .next (answered .ok (v.extract (s.firstRead v.addr)) (s.afterRead v.addr)) := by
  rcases hg with ⟨sel, hv, rfl⟩ | ⟨pos, hv, rfl⟩
  · exact exec_of_effect (.bget hv)
  · exact exec_of_effect (.nget hv)

/-- A set rebinds no view. -/
theorem getsView_viewSet {h : Handle} {v w : View} {x : Byte} {i : Instr} :
    (answered .ok 0 (viewSet s w x)).getsView h v i ↔ s.getsView h v i := by
  simp [State.getsView, State.hasBitView, State.hasNibbleView, answered]

/-- On a non-volatile register a get after a set reads the byte that the set wrote (R34, R82, R84). -/
theorem get_after_set {h1 h2 : Handle} {v1 v2 : View} {x : Byte} {set get : Instr} (hs : s.setsView h1 v1 x set)
    (hg : s.getsView h2 v2 get) (ha : v2.addr = v1.addr) (nv : isVolatile s.cfg v1.addr = false) :
    ∃ t u b, exec set s = .next t ∧ exec get t = .next u ∧ u.trace = t.trace ++
      [.read v1.addr b, .resp (responseWord .ok (v2.extract (v1.merge (s.byte v1.addr) x)))] := by
  have reads : (answered .ok 0 (viewSet s v1 x)).firstRead v2.addr = v1.merge (s.byte v1.addr) x := by
    simp [State.firstRead, answered, ha, nv, viewSet_byte, setByte]
  refine ⟨_, _, v1.merge (s.byte v1.addr) x, hs.exec_eq, (getsView_viewSet.2 hg).exec_eq, ?_⟩
  rw [answered_afterRead, reads, ha]

/-- A get of the view just set, on a non-volatile register, returns the value set (R82). -/
theorem get_after_set_same {h : Handle} {v : View} {x : Byte} {set get : Instr} (hs : s.setsView h v x set)
    (hg : s.getsView h v get) (nv : isVolatile s.cfg v.addr = false) :
    ∃ t u b, exec set s = .next t ∧ exec get t = .next u ∧
      u.trace = t.trace ++ [.read v.addr b, .resp (x.setWidth 16)] := by
  have after := get_after_set hs hg rfl nv
  rwa [View.extract_merge v _ hs.value_le, responseWord_ok] at after

/-- Settles O19: a bit view and a nibble view alike read back the value set from the byte written. -/
theorem setThenGetRoundTrips : Obligations.SetThenGetRoundTrips :=
  ⟨fun _ _ _ sel _ hv nv hx => get_after_set_same (.inl ⟨sel, hv, hx, rfl⟩) (.inl ⟨sel, hv, rfl⟩) nv,
    fun _ _ _ pos _ hv nv hx => get_after_set_same (.inr ⟨pos, hv, hx, rfl⟩) (.inr ⟨pos, hv, rfl⟩) nv⟩

/-- Settles O21: the second view reads the byte the first one wrote, of which the first view's bits are the value set and the
others as they were. -/
theorem viewsOfOneBitAgree : Obligations.ViewsOfOneBitAgree := by
  refine ⟨fun s h1 h2 v1 v2 sel x hv1 hv2 ha nv hx => ?_, fun s h1 h2 v1 v2 x set get hs hg ha nv => ?_⟩
  · have after := get_after_set (.inl ⟨sel, hv1, hx, rfl⟩) (.inl ⟨sel, hv2, rfl⟩) ha nv
    have bit := View.merge_bit hv1.2.2 (s.byte v1.addr) (decide (x = 1)) sel.toNat sel.isLt
    rw [← eq_bitByte_of_le_one hx, if_pos rfl] at bit
    rwa [View.extract_bit hv2.2.2, bit, responseWord_ok_bitByte, Bool.bne_assoc] at after
  · obtain ⟨t, u, b, run1, run2, shown⟩ := get_after_set hs hg ha nv
    refine ⟨t, u, b, _, run1, run2, shown, fun k c2 c1 => ?_, fun k c2 c1 => ?_, fun k hk => ?_⟩
    · rw [responseWord_ok_getLsbD, View.extract_covered _ c2, View.merge_covered _ x c1]
    · rw [responseWord_ok_getLsbD, View.extract_covered _ c2,
        View.merge_outside v1 _ x (State.setsView.value_le hs) (View.covers_lt c2) c1]
    · rw [responseWord_ok_getLsbD] at hk
      exact View.covers_of_extract hk

end Sys2Proof.Machine

/-! PROOFS. The motor commands (spec/41_motor.md): what driving two pins leaves, when MBIND, a transition or MMODE is refused, and
that a motor's mode is moved by its own accepted transitions alone. -/

namespace Sys2Proof.Machine

variable {s t : State}

/-! ## The pins of a motor -/

/-- A handle names one view (R10). -/
theorem State.hasBitView.unique {h : Handle} {v w : View} {b c : BitVec 3} (hv : s.hasBitView h v b)
    (hw : s.hasBitView h w c) : v = w ∧ b = c := by
  obtain rfl : v = w := Option.some.inj (hv.2.1.symm.trans hw.2.1)
  exact ⟨rfl, ViewKind.bit.inj (hv.2.2.symm.trans hw.2.2)⟩

theorem State.Inv.pins_not_sharesBit (hi : s.Inv) {m : MotorId} {mot : Motor} {v1 v2 : View} {b1 b2 : BitVec 3}
    (hm : s.motor? m = some mot) (h1 : s.hasBitView mot.pin1 v1 b1) (h2 : s.hasBitView mot.pin2 v2 b2) :
    ¬ v1.sharesBit v2 := by
  obtain ⟨w1, w2, c1, c2, q1, q2, apart⟩ := hi.pins m mot hm
  obtain ⟨rfl, -⟩ := h1.unique q1
  obtain ⟨rfl, -⟩ := h2.unique q2
  exact apart

theorem State.pinsSteady.pins_nonvolatile {m : MotorId} {mot : Motor} {v1 v2 : View} {b1 b2 : BitVec 3}
    (steady : s.pinsSteady m) (hm : s.motor? m = some mot) (h1 : s.hasBitView mot.pin1 v1 b1)
    (h2 : s.hasBitView mot.pin2 v2 b2) : isVolatile s.cfg v1.addr = false ∧ isVolatile s.cfg v2.addr = false :=
  ⟨steady mot _ v1 hm (.inl rfl) h1.2.1, steady mot _ v2 hm (.inr rfl) h2.2.1⟩

theorem sharesBit_iff_same_bit {v1 v2 : View} {b1 b2 : BitVec 3} (h1 : v1.kind = .bit b1) (h2 : v2.kind = .bit b2) :
    v1.sharesBit v2 ↔ v1.addr = v2.addr ∧ b1 = b2 := by
  simp [← View.sameBit_iff h1 h2, View.sameBit, h1, h2]

/-- Setting a bit to what it shows already changes nothing (R99). -/
theorem bitReplaced.eq_of_shown {old new : Byte} {sel : BitVec 3} {inv x : Bool} (hr : bitReplaced old new sel inv x)
    (hx : old.getLsbD sel.toNat = (x != inv)) : new = old := by
  refine BitVec.eq_of_getLsbD_eq fun k hk => ?_
  rw [hr k hk]
  split
  case isTrue e => rw [e, hx]
  case isFalse => rfl

/-! ## Driving the pins -/

/-- `t` is `s` after pin1's register and then pin2's are read and written with the pattern of motor `mot`, which slot `m` holds
from then on, and nothing else (R35, R90, R91). -/
def State.drives (s t : State) (m : MotorId) (mot : Motor) (v1 v2 : View) (b1 b2 : BitVec 3) (w1 w2 : Byte) : Prop :=
  bitReplaced (s.firstRead v1.addr) w1 b1 v1.inv (pinPair s.cfg.pattern mot.mode).1 ∧
    bitReplaced (s.secondRead v1.addr w1 v2.addr) w2 b2 v2.inv (pinPair s.cfg.pattern mot.mode).2 ∧
    t.trace = s.trace ++ [.read v1.addr (s.firstRead v1.addr), .write v1.addr w1,
      .read v2.addr (s.secondRead v1.addr w1 v2.addr), .write v2.addr w2, .resp 0x0000] ∧
    (∀ y, t.byte y = if y = v2.addr then w2 else if y = v1.addr then w1 else s.byte y) ∧
    (∀ k, t.motor? k = if k = m then some mot else s.motor? k) ∧
    t.vt = s.vt ∧ t.thr = s.thr ∧ t.lst = s.lst ∧ s.sameOutside t ∧ s.usedDraws t (s.drawsAt v1.addr + s.drawsAt v2.addr)

theorem drives_setPins (s : State) (m : MotorId) (mot : Motor) {v1 v2 : View} {b1 b2 : BitVec 3} (h1 : v1.kind = .bit b1)
    (h2 : v2.kind = .bit b2) :
    s.drives (answered .ok 0 ((setPins s v1 v2 mot.mode).withMotor m mot)) m mot v1 v2 b1 b2 (pinByte1 s v1 mot.mode)
      (pinByte2 s v1 v2 mot.mode) := by
  refine ⟨?_, ?_, ?_, fun y => setPins_byte s v1 v2 mot.mode y, fun k => ?_, ?_⟩
  · rw [← patternPins_eq]
    exact pinByte1_replaced s mot.mode h1
  · rw [← patternPins_eq]
    exact pinByte2_replaced s v1 mot.mode h2
  · rw [setPins_shown, List.append_assoc]
    rfl
  · simp [answered, State.withMotor_motor?]
  · simp [answered, State.sameOutside, State.usedDraws]

/-! ## MBIND -/

/-- A handle of the machine names every motor slot, as NMOTORS is at most 16 (R4, R90). -/
theorem handleHeld_eq_false_of_free (hn : s.cfg.nmotors ≤ 16) {h : Handle}
    (free : ∀ k mot, s.hasMotor k mot → mot.pin1 ≠ h ∧ mot.pin2 ≠ h) : handleHeld s h = false := by
  rw [← Bool.not_eq_true]
  simp only [handleHeld, List.any_eq_true, List.mem_range, Option.any_eq_true, Bool.or_eq_true, beq_iff_eq]
  rintro ⟨k, hk, mot, hm, held⟩
  have hkn : (BitVec.ofNat 4 k).toNat = k := Nat.mod_eq_of_lt (by omega)
  obtain ⟨n1, n2⟩ := free (BitVec.ofNat 4 k) mot ⟨by rwa [hkn], by rwa [State.motor?, hkn]⟩
  exact held.elim n1 n2

/-- MBIND goes on when its conditions hold: the converse of `checkPins_cases` (R90). -/
theorem checkPins_of_free (hn : s.cfg.nmotors ≤ 16) {m : MotorId} {h1 h2 : Handle} {v1 v2 : View} {b1 b2 : BitVec 3}
    (hm : m.toNat < s.cfg.nmotors) (hu : s.motor? m = none) (h12 : h1 ≠ h2) (hv1 : s.hasBitView h1 v1 b1)
    (hv2 : s.hasBitView h2 v2 b2) (apart : ¬ v1.sharesBit v2)
    (free : ∀ k mot, s.hasMotor k mot → mot.pin1 ≠ h1 ∧ mot.pin1 ≠ h2 ∧ mot.pin2 ≠ h1 ∧ mot.pin2 ≠ h2) :
    checkPins s m h1 h2 = some (v1, v2) := by
  have free1 : handleHeld s h1 = false := handleHeld_eq_false_of_free hn fun k mot hk =>
    have ⟨p1, _, p2, _⟩ := free k mot hk
    ⟨p1, p2⟩
  have free2 : handleHeld s h2 = false := handleHeld_eq_false_of_free hn fun k mot hk =>
    have ⟨_, p1, _, p2⟩ := free k mot hk
    ⟨p1, p2⟩
  have bits : v1.sameBit v2 = false := by rwa [← Bool.not_eq_true, View.sameBit_iff hv1.2.2 hv2.2.2]
  simp [checkPins, State.motorInRange, hm, hu, h12, free1, free2, checkBitView_of hv1, checkBitView_of hv2, bits]

/-- Settles O22: the premises are those under which `checkPins` lets MBIND go on. -/
theorem mbindBuildsMotorInBrake : Obligations.MbindBuildsMotorInBrake := by
  intro s m h1 h2 v1 v2 b1 b2 adm hm hu hv1 hv2 h12 apart free
  have ok := checkPins_of_free adm.2.2.2 hm hu h12 hv1 hv2 apart free
  exact ⟨_, _, _, exec_of_effect (.mbind ok), drives_setPins s m ⟨h1, h2, .brake⟩ hv1.2.2 hv2.2.2⟩

theorem exec_mbind_configError_iff (s : State) (m : MotorId) (h1 h2 : Handle) :
    exec (.mbind m h1 h2) s = .next (s.answersOnly 0x0500) ↔ checkPins s m h1 h2 = none := by
  constructor
  · intro hx
    rcases hc : checkPins s m h1 h2 with _ | ⟨v1, v2⟩
    · rfl
    · exact absurd (Host.Outcome.next.inj (hx.symm.trans (exec_of_effect (.mbind hc)))) (answersOnly_ne_answered (by decide))
  · intro hc
    simp only [exec, execMbind, hc]
    rfl

/-- Settles O23: if no case applies `checkPins` finds the two views, and if it finds them none does. -/
theorem mbindRefusedExactly : Obligations.MbindRefusedExactly := by
  intro s m h1 h2 adm
  rw [exec_mbind_configError_iff]
  constructor
  · intro refused
    by_contra none_applies
    simp only [not_or, not_not, not_le] at none_applies
    obtain ⟨hm, hu, ⟨v1, b1, hv1⟩, ⟨v2, b2, hv2⟩, h12, bits, free⟩ := none_applies
    have apart : ¬ v1.sharesBit v2 := fun shares =>
      have ⟨ha, hb⟩ := (sharesBit_iff_same_bit hv1.2.2 hv2.2.2).1 shares
      bits ⟨v1, v2, b1, b2, hv1, hv2, ha, hb⟩
    have unheld (k : MotorId) (mot : Motor) (hk : s.hasMotor k mot) :
        mot.pin1 ≠ h1 ∧ mot.pin1 ≠ h2 ∧ mot.pin2 ≠ h1 ∧ mot.pin2 ≠ h2 := by
      simp only [ne_eq, ← not_or]
      exact fun held => free ⟨k, mot, hk, held⟩
    cases refused.symm.trans (checkPins_of_free adm.2.2.2 hm hu h12 hv1 hv2 apart unheld)
  · intro applies
    rcases hc : checkPins s m h1 h2 with _ | ⟨v1, v2⟩
    · rfl
    · exfalso
      obtain ⟨hm, hu, h12, free1, free2, b1, b2, hv1, hv2, apart⟩ := checkPins_cases hc
      rcases applies with e | e | e | e | e | ⟨w1, w2, c1, c2, hw1, hw2, same⟩ | ⟨k, mot, hk, held⟩
      · omega
      · exact e hu
      · exact e ⟨v1, b1, hv1⟩
      · exact e ⟨v2, b2, hv2⟩
      · exact h12 e
      · obtain ⟨rfl, -⟩ := hv1.unique hw1
        obtain ⟨rfl, -⟩ := hv2.unique hw2
        exact apart ((sharesBit_iff_same_bit hw1.2.2 hw2.2.2).2 same)
      · obtain ⟨p1h1, p2h1⟩ := handleHeld_eq_false free1 hk
        obtain ⟨p1h2, p2h2⟩ := handleHeld_eq_false free2 hk
        rcases held with e | e | e | e
        exacts [p1h1 e, p1h2 e, p2h1 e, p2h2 e]

/-! ## Motors that are not bound -/

theorem checkMotor_eq_none_iff {m : MotorId} : checkMotor s m = none ↔ ¬ ∃ mot, s.hasMotor m mot := by
  simp only [Option.eq_none_iff_forall_ne_some, ne_eq, checkMotor_eq_some, not_exists]

theorem transition_configError_iff (m : MotorId) (tgt : Mode) (s : State) :
    transition m tgt s = .next (s.answersOnly 0x0500) ↔ checkMotor s m = none := by
  refine ⟨fun e => ?_, fun hm => by simp only [transition, hm]; rfl⟩
  rcases transition_cases e with ⟨hm, -⟩ | ⟨mot, -, ⟨-, ht⟩ | ⟨-, -, ht⟩ | ⟨-, -, v1, v2, b1, b2, -, -, ht⟩⟩
  · exact hm
  all_goals exact absurd ht (answersOnly_ne_answered (by decide))

theorem exec_mmode_of_unbound {m : MotorId} (hm : checkMotor s m = none) :
    exec (.mmode m) s = .next (s.answersOnly 0x0500) := by
  simp only [exec, execMmode, hm]
  rfl

theorem exec_mmode_configError_iff (m : MotorId) (s : State) :
    exec (.mmode m) s = .next (s.answersOnly 0x0500) ↔ checkMotor s m = none := by
  refine ⟨fun e => checkMotor_eq_none_iff.2 fun ⟨mot, hm⟩ => ?_, exec_mmode_of_unbound⟩
  exact absurd (Host.Outcome.next.inj (e.symm.trans (exec_of_effect (.mmode hm)))) (answersOnly_ne_answered (by decide))

/-- Settles O27: the check of the motor comes first in a transition, and is the only one of MMODE. -/
theorem unboundMotorIsConfigError : Obligations.UnboundMotorIsConfigError := fun s m =>
  ⟨fun tgt => by rw [exec_mtrans, transition_configError_iff, checkMotor_eq_none_iff],
    (exec_mmode_configError_iff m s).trans checkMotor_eq_none_iff⟩

/-- Settles O28, mode by mode. -/
theorem mmodeAnswersMode : Obligations.MmodeAnswersMode := by
  intro s m
  refine ⟨fun mot hm => ?_, fun unbound => exec_mmode_of_unbound (checkMotor_eq_none_iff.2 fun ⟨mot, hm⟩ => ?_)⟩
  · rw [exec_of_effect (.mmode hm), answered_eq]
    cases mot.mode <;> rfl
  · rcases unbound with e | e
    · exact absurd hm.1 (Nat.not_lt.2 e)
    · cases e.symm.trans hm.2

/-! ## Transitions -/

/-- Settles O24: the pins are driven from the state in which the time is recorded already. -/
theorem acceptedTransitionDrivesPins : Obligations.AcceptedTransitionDrivesPins := by
  intro s m tgt mot v1 v2 b1 b2 hm hv1 hv2 allowed window
  rw [← forbidden_iff, Bool.not_eq_true] at allowed
  exact ⟨_, _, _, exec_of_effect (.drive hm allowed window hv1 hv2),
    drives_setPins (s.withThr s.time) m { mot with mode := tgt } hv1.2.2 hv2.2.2⟩

/-- Every reset leaves no motor bound (R161). -/
theorem step_mt_of_resets {i : Input} {rest : List Input} (h : step s = .next t) (hs : s.inputs = i :: rest)
    (hr : i.resets = true) : t.mt = [] := by
  rw [step_cons hs] at h
  cases acceptInput_cases h with
  | reset => rfl
  | resetInCommand => rfl
  | resetInDispatch => rfl
  | _ => cases hr

/-- Settles O33: the motor slots change by the effect of a command alone, and of the commands only a transition of the motor
writes the slot of a bound one. -/
theorem modeChangesOnlyByTransition : Obligations.ModeChangesOnlyByTransition := by
  intro s t k mot mot' h hm hm'
  have noReset (i : Input) (rest : List Input) (hs : s.inputs = i :: rest) : i.resets = false := by
    rw [← Bool.not_eq_true]
    intro hr
    simp [State.motor?, step_mt_of_resets h hs hr] at hm'
  have unmoved (e : t.motor? k = s.motor? k) : mot' = mot := Option.some.inj (hm'.symm.trans (e.trans hm))
  rcases step_slotsByCommand h noReset with same | ⟨w, rest, c, full, hw, hd, he, same⟩
  · obtain rfl := unmoved (same.motor? k)
    exact ⟨rfl, rfl, fun moved => absurd rfl moved⟩
  · rcases he.motor?_cases k with e | ⟨e, -⟩ | ⟨-, tgt, rfl⟩
    · obtain rfl := unmoved ((same.motor? k).trans e)
      exact ⟨rfl, rfl, fun moved => absurd rfl moved⟩
    · cases e.symm.trans hm
    · have run := (runCommand_of_decode hd _).trans (exec_of_effect he)
      obtain ⟨full', run', ht, -⟩ := step_of_runsNext hw h
      obtain rfl := Host.Outcome.next.inj (run'.symm.trans run)
      obtain ⟨old, v1, v2, b1, b2, ho, -, -, -, -, rfl⟩ := he.of_mtrans
      obtain rfl : mot = old := Option.some.inj (hm.symm.trans ho.2)
      obtain rfl : mot' = { mot with mode := tgt } := by
        rw [same.motor?] at hm'
        simpa [answered, State.withMotor_motor?] using hm'.symm
      exact ⟨rfl, rfl, fun _ => ⟨w, rest, _, hw, hd,
        (congrArg State.trace ht).trans (setPins_shown ((s.withInputs rest).withThr s.time) v1 v2 tgt k _)⟩⟩

/-- Settles O35: on pins that show the mode the two bits are set to what they are, so both bytes are written back. -/
theorem selfTransitionIsIdempotent : Obligations.SelfTransitionIsIdempotent := by
  intro s m mot _ hm hco steady window
  have ⟨mot', v1, v2, b1, b2, hm', hv1, hv2, _⟩ := hco
  obtain rfl : mot = mot' := Option.some.inj (hm.2.symm.trans hm'.2)
  obtain ⟨shown1, shown2⟩ := (State.coherent_iff hm hv1 hv2).1 hco
  obtain ⟨nv1, nv2⟩ := steady.pins_nonvolatile hm.2 hv1 hv2
  have allowed : ¬ forbiddenPair mot.mode mot.mode := by
    cases mot.mode <;> simp [forbiddenPair]
  obtain ⟨t, w1, w2, run, r1, r2, trace, bytes, motors, -, thr, -⟩ :=
    acceptedTransitionDrivesPins s m mot.mode mot v1 v2 b1 b2 hm hv1 hv2 allowed window
  have read1 : s.firstRead v1.addr = s.byte v1.addr := by simp [State.firstRead, nv1]
  rw [read1] at r1 trace
  obtain rfl := r1.eq_of_shown shown1
  have read2 : s.secondRead v1.addr (s.byte v1.addr) v2.addr = s.byte v2.addr := by
    simp only [State.secondRead, nv2, Bool.false_eq_true, if_false, ite_eq_right_iff]
    exact fun e => e ▸ rfl
  rw [read2] at r2 trace
  obtain rfl := r2.eq_of_shown shown2
  refine ⟨t, _, _, _, _, run, trace, fun y => ?_, fun k => ?_, thr⟩
  · rw [bytes]
    split
    case isTrue e => rw [e]
    case isFalse =>
      split
      case isTrue e => rw [e]
      case isFalse => rfl
  · rw [motors]
    split
    case isTrue e => rw [e, hm.2]
    case isFalse => rfl

/-! Between the two writes (R98) -/

/-- The registers between the two writes of a transition: its first two transactions have been issued (R98). -/
theorem registersAfter_first_set (s : State) (v : View) (mode : Mode) (c : Byte) (y : Addr) :
    registersAfter s.byte [.read v.addr c, .write v.addr (pinByte1 s v mode)] y =
      (viewSet s v (bitByte (patternPins s.cfg.pattern mode).1)).byte y :=
  (viewSet_byte s v _ y).symm

theorem pin1_after_first_set (s : State) (mode : Mode) {v1 : View} {b1 : BitVec 3} (h1 : v1.kind = .bit b1) (c : Byte) :
    (registersAfter s.byte [.read v1.addr c, .write v1.addr (pinByte1 s v1 mode)] v1.addr).getLsbD b1.toNat =
      ((pinPair s.cfg.pattern mode).1 != v1.inv) := by
  have replaced := pinByte1_replaced s mode h1 b1.toNat b1.isLt
  rw [if_pos rfl, patternPins_eq] at replaced
  rw [registersAfter_first_set, viewSet_byte, if_pos rfl]
  exact replaced

theorem pin2_after_first_set (s : State) (mode : Mode) {v1 v2 : View} {b2 : BitVec 3} (h2 : v2.kind = .bit b2)
    (apart : ¬ v1.sharesBit v2) (nv2 : isVolatile s.cfg v2.addr = false) (c : Byte) :
    (registersAfter s.byte [.read v1.addr c, .write v1.addr (pinByte1 s v1 mode)] v2.addr).getLsbD b2.toNat =
      (s.byte v2.addr).getLsbD b2.toNat := by
  rw [registersAfter_first_set]
  exact viewSet_spares s v1 _ (bitByte_le_ones _ v1) h2 apart nv2

/-- Settles O36: the set of pin1 puts in the new bit there and spares pin2's bit, which shows the old mode. -/
theorem pinsBetweenTheTwoWrites : Obligations.PinsBetweenTheTwoWrites := by
  intro s t m tgt mot v1 v2 b1 b2 os hi hm hv1 hv2 hco steady hx ht
  obtain ⟨mot', w1, w2, c1, c2, hm', -, -, hw1, hw2, rfl⟩ := (effect_of_ok hx ht).of_mtrans
  obtain rfl : mot = mot' := Option.some.inj (hm.2.symm.trans hm'.2)
  obtain ⟨rfl, -⟩ := hv1.unique hw1
  obtain ⟨rfl, -⟩ := hv2.unique hw2
  obtain ⟨rfl, -⟩ := shown_inj (ht.symm.trans (setPins_shown (s.withThr s.time) v1 v2 tgt m _))
  have apart := hi.pins_not_sharesBit hm.2 hv1 hv2
  obtain ⟨-, nv2⟩ := steady.pins_nonvolatile hm.2 hv1 hv2
  obtain ⟨-, shown2⟩ := (State.coherent_iff hm hv1 hv2).1 hco
  refine ⟨pin1_after_first_set (s.withThr s.time) tgt hv1.2.2 _,
    (pin2_after_first_set (s.withThr s.time) tgt hv2.2.2 apart nv2 _).trans shown2, ?_, ?_⟩
  · rintro hp hb rfl
    simp [hp, hb, pinPair]
  · rintro hp hb rfl
    simp [hp, hb, pinPair]

end Sys2Proof.Machine

/-! PROOFS. The throttle (spec/42_throttle.md): its comparison, what records a time, the one window for all motors, runs without a
reset (R110 to R116); and the inputs that are no command (R24, R33, R42, R111). -/

namespace Sys2Proof.Machine

variable {s t : State}

/-! ## The comparison -/

theorem windowOpen_eq_true_iff {window now : Nat} {thr : Option Nat} :
    windowOpen window thr now = true ↔ ∀ last, thr = some last → last + window ≤ now := by
  cases thr <;> simp [windowOpen]

/-- Settles O29: the sentinel is never too soon, and a recorded time is compared as `windowOpen` does. -/
theorem throttleComparesAndRecords : Obligations.ThrottleComparesAndRecords := by
  intro s now
  refine ⟨fun elapsed => if_pos (windowOpen_eq_true_iff.2 fun last hl => ?_), fun last hl early => if_neg fun opened => ?_⟩
  · rcases elapsed with sentinel | ⟨recorded, hr, passed⟩
    · cases sentinel.symm.trans hl
    · obtain rfl := Option.some.inj (hr.symm.trans hl)
      exact passed
  · exact Nat.not_le.2 early (windowOpen_eq_true_iff.1 opened last hl)

/-! ## What records -/

/-- Word `w` is a transition that is accepted on the way from `s` to `t`: it answers OK, a whole window after the recorded time,
and the time is recorded (R110, R114). -/
def State.recordsTime (s t : State) (w : Word) : Prop :=
  ∃ m tgt os, decode w = .ok (Instr.mtrans m tgt) ∧ t.trace = s.trace ++ os ++ [.resp 0x0000] ∧ s.windowElapsed ∧
    t.thr = some s.time

/-- No command but a transition touches the throttle (R114). -/
theorem Effect.thr_eq {i : Instr} (he : Effect s i t) (other : ∀ m tgt, i ≠ Instr.mtrans m tgt) : t.thr = s.thr := by
  cases he with
  | drive => exact absurd rfl (other _ _)
  | _ => simp [answered]

theorem runCommand_thr_cases {w : Word} (run : runCommand w s = .next t) : t.thr = s.thr ∨ s.recordsTime t w := by
  rcases runCommand_cases run with ⟨-, -, rfl⟩ | ⟨i, hi, hx⟩
  · exact .inl rfl
  · rcases exec_cases hx with ⟨e, -, rfl⟩ | he
    · exact .inl rfl
    · by_cases transition : ∃ m tgt, i = Instr.mtrans m tgt
      case neg => exact .inl (he.thr_eq fun m tgt e => transition ⟨m, tgt, e⟩)
      case pos =>
        obtain ⟨m, tgt, rfl⟩ := transition
        obtain ⟨mot, v1, v2, b1, b2, -, -, window, -, -, rfl⟩ := he.of_mtrans
        exact .inr ⟨m, tgt, _, hi, setPins_shown (s.withThr s.time) v1 v2 tgt m _, window, by simp [answered]⟩

theorem dispatchIrq_thr (s : State) : (dispatchIrq s).thr = s.thr := by
  rcases ha : s.lst.active with _ | _
  · rw [dispatchIrq_inactive ha]
  · rw [dispatchIrq_active ha]; rfl

/-- Every reset leaves the throttle at its sentinel (R161). -/
theorem Accepted.thr_of_resets {i : Input} (h : Accepted s i t) (hr : i.resets = true) : t.thr = none := by
  cases h with
  | reset => rfl
  | resetInCommand => rfl
  | resetInDispatch => rfl
  | _ => cases hr

/-- An input that is no reset leaves the throttle as it was, or runs an accepted transition (R114). -/
theorem Accepted.thr_cases {i : Input} (h : Accepted s i t) (hr : i.resets = false) :
    t.thr = s.thr ∨ ∃ w, i.word? = some w ∧ s.recordsTime t w := by
  cases h with
  | command run => exact (runCommand_thr_cases run).imp_right fun hw => ⟨_, rfl, hw⟩
  | foreignWriteInCommand _ run => exact (runCommand_thr_cases run).imp_right fun hw => ⟨_, rfl, hw⟩
  | irq => exact .inl (dispatchIrq_thr s)
  | foreignWriteInDispatch => exact .inl (dispatchIrq_thr s)
  | time => exact .inl rfl
  | foreignWrite => exact .inl rfl
  | reset => cases hr
  | resetInCommand => cases hr
  | resetInDispatch => cases hr

/-- Settles O31: the step waits, or takes an input that is a reset or none. -/
theorem onlyAcceptedTransitionsRecord : Obligations.OnlyAcceptedTransitionsRecord := by
  intro s t h
  rcases step_cases h with ⟨hs, rfl⟩ | ⟨i, rest, hs, ha⟩
  · exact ⟨.inl rfl, fun i rest hi => by cases hs.symm.trans hi⟩
  · rcases hr : i.resets with _ | _
    case true => exact ⟨.inr (.inl ⟨i, rest, hs, hr, ha.thr_of_resets hr⟩), fun _ _ _ _ => ha.thr_of_resets hr⟩
    case false =>
      refine ⟨?_, fun j _ hj hreset => ?_⟩
      · rcases ha.thr_cases hr with same | ⟨w, hw, m, tgt, os, hd, shown, window, records⟩
        · exact .inl same
        · exact .inr (.inr ⟨w, rest, m, tgt, os, ⟨i, hs, hw⟩, hd, shown, window, records⟩)
      · obtain ⟨rfl, -⟩ := List.cons.inj (hs.symm.trans hj)
        cases hr.symm.trans hreset

/-! ## Runs without a reset -/

theorem Effect.inputs_eq {i : Instr} (he : Effect s i t) : t.inputs = s.inputs := by
  cases he <;> simp [answered]

theorem runCommand_inputs {w : Word} (run : runCommand w s = .next t) : t.inputs = s.inputs := by
  rcases runCommand_effect run with ⟨e, rfl⟩ | ⟨i, he⟩
  · rfl
  · exact he.inputs_eq

theorem dispatchIrq_inputs (s : State) : (dispatchIrq s).inputs = s.inputs := by
  rcases ha : s.lst.active with _ | _
  · rw [dispatchIrq_inactive ha]
  · rw [dispatchIrq_active ha]; rfl

/-- What answers an input leaves those behind it waiting. -/
theorem Accepted.inputs_eq {i : Input} (h : Accepted s i t) : t.inputs = s.inputs := by
  cases h with
  | command run => exact runCommand_inputs run
  | foreignWriteInCommand _ run => exact (changedAmid_inputs ..).trans (runCommand_inputs run)
  | irq => exact dispatchIrq_inputs s
  | foreignWriteInDispatch => exact dispatchIrq_inputs s
  | _ => rfl

/-- A step takes the first waiting input and no other. -/
theorem step_inputs (h : step s = .next t) : t.inputs = s.inputs.tail := by
  rcases step_cases h with ⟨hs, rfl⟩ | ⟨i, rest, hs, ha⟩
  · simp [hs]
  · rw [hs]; exact ha.inputs_eq

theorem step_cfg (h : step s = .next t) : t.cfg = s.cfg := by
  rcases step_cases h with ⟨-, rfl⟩ | ⟨i, rest, -, ha⟩
  · rfl
  · exact ha.followsBus.1

theorem run_succ {k : Nat} (h : core.run (k + 1) s = .next t) : ∃ u, step s = .next u ∧ core.run k u = .next t := by
  have continued := (Host.Core.run.eq_2 core s k).symm.trans h
  split at continued
  case h_1 u hu => exact ⟨u, hu, continued⟩
  case h_2 => cases continued
  case h_3 => cases continued

/-- One step of a run without a reset: the recorded time stays, or the new one is a whole window after it (R110, R114). -/
theorem step_thr_window_apart (h : step s = .next t) (hr : ∀ i ∈ s.inputs, i.resets = false) {last : Nat}
    (hl : s.thr = some last) :
    t.thr = some last ∨ ∃ now, t.thr = some now ∧ last + s.cfg.windowMs * s.cfg.tickPerMs ≤ now := by
  rcases (onlyAcceptedTransitionsRecord s t h).1 with
    same | ⟨i, rest, hs, hreset, -⟩ | ⟨_, _, _, _, _, -, -, -, window, records⟩
  · exact .inl (same.trans hl)
  · have noReset := hr i (hs ▸ List.mem_cons_self)
    cases noReset.symm.trans hreset
  · exact .inr ⟨s.time, records, window last hl⟩

/-- Settles O32, by induction on the length of the run: the windows between recorded times add up, as no step changes the
window. -/
theorem acceptedTransitionsAreAWindowApart : Obligations.AcceptedTransitionsAreAWindowApart := by
  intro n
  induction n with
  | zero =>
    intro s t last _ hl h
    obtain rfl := Host.Outcome.next.inj h
    exact .inl hl
  | succ n ih =>
    intro s t last hr hl h
    obtain ⟨u, hu, run⟩ := run_succ h
    have hru : ∀ i ∈ u.inputs, i.resets = false := fun i hi => hr i (List.mem_of_mem_tail (step_inputs hu ▸ hi))
    have later {recorded : Nat} (hrec : u.thr = some recorded) : t.thr = some recorded ∨
        ∃ now, t.thr = some now ∧ recorded + s.cfg.windowMs * s.cfg.tickPerMs ≤ now := by
      rw [← step_cfg hu]
      exact ih u t recorded hru hrec run
    rcases step_thr_window_apart hu hr hl with same | ⟨moved, hmoved, apart⟩
    · exact later same
    · rcases later hmoved with kept | ⟨now, hnow, apart'⟩
      · exact .inr ⟨moved, kept, apart⟩
      · exact .inr ⟨now, hnow, by omega⟩

/-! ## One window for all motors -/

theorem windowElapsed_iff_of_recorded {last : Nat} (hl : s.thr = some last) :
    s.windowElapsed ↔ last + s.cfg.windowMs * s.cfg.tickPerMs ≤ s.time := by
  simp [State.windowElapsed, hl]

/-- An allowed transition inside the window is too soon (R110, R134). -/
theorem exec_mtrans_of_early {m : MotorId} {tgt : Mode} {mot : Motor} (hm : s.hasMotor m mot)
    (allowed : ¬ forbiddenPair mot.mode tgt) (early : ¬ s.windowElapsed) :
    exec (Instr.mtrans m tgt) s = .next (s.answersOnly 0x0300) := by
  rw [← forbidden_iff] at allowed
  simp only [exec_mtrans, transition, checkMotor_eq_some.2 hm, allowed, throttle_shut early]
  rfl

/-- An allowed transition of a motor on two bit views is accepted when the window has elapsed (R91). -/
theorem exec_mtrans_accepted {m : MotorId} {tgt : Mode} {mot : Motor} {v1 v2 : View} {b1 b2 : BitVec 3}
    (hm : s.hasMotor m mot) (h1 : s.hasBitView mot.pin1 v1 b1) (h2 : s.hasBitView mot.pin2 v2 b2)
    (allowed : ¬ forbiddenPair mot.mode tgt) (window : s.windowElapsed) :
    ∃ u os, exec (Instr.mtrans m tgt) s = .next u ∧ u.trace = s.trace ++ os ++ [.resp 0x0000] := by
  rw [← forbidden_iff, Bool.not_eq_true] at allowed
  exact ⟨_, _, exec_of_effect (.drive hm allowed window h1 h2), setPins_shown (s.withThr s.time) v1 v2 tgt m _⟩

/-- Settles O30: the accepted transition has recorded the one time that a transition of any motor is compared with. -/
theorem windowSpansAllMotors : Obligations.WindowSpansAllMotors := by
  intro s t m n tgt tgt' os mot now hi hx ht hn allowed
  have he := effect_of_ok hx ht
  have recorded : t.thr = some s.time := by
    obtain ⟨_, v1, v2, b1, b2, -, -, -, -, -, rfl⟩ := he.of_mtrans
    simp [answered]
  have elapsed : (t.withTime now).windowElapsed ↔ s.time + s.cfg.windowMs * s.cfg.tickPerMs ≤ now := by
    rw [← he.cfg_eq]
    exact windowElapsed_iff_of_recorded recorded
  refine ⟨fun early => ?_, fun passed => ?_⟩
  · exact exec_mtrans_of_early (s := t.withTime now) hn allowed (mt elapsed.1 (Nat.not_le.2 early))
  · obtain ⟨v1, v2, b1, b2, h1, h2, -⟩ := (he.keeps_inv hi).pins n mot hn.2
    exact exec_mtrans_accepted (s := t.withTime now) hn h1 h2 allowed (elapsed.2 passed)

/-! ## Inputs that are no command -/

/-- Another agent's write to a non-volatile register is refused wherever it falls (R33, R42). -/
theorem acceptInput_foreign_nonvolatile {i : Input} {a : Addr} (hi : i.foreignAddr? = some a)
    (nv : isVolatile s.cfg (lowBits s.cfg.aw a) = false) : acceptInput i s = otherMaster s := by
  cases i with
  | foreignWrite b x =>
    obtain rfl := Option.some.inj hi
    simp [acceptInput, foreignWrite, nv]
  | foreignWriteInCommand w k b x =>
    obtain rfl := Option.some.inj hi
    simp [acceptInput, foreignWriteInCommand, nv]
  | foreignWriteInDispatch k b x =>
    obtain rfl := Option.some.inj hi
    simp [acceptInput, foreignWriteInDispatch, nv]
  | _ => cases hi

/-- Settles O46, input by input. -/
theorem outsideInputsAct : Obligations.OutsideInputsAct := by
  intro s rest
  refine ⟨fun u hs => step_cons hs, fun a b hs vol => ?_, fun i a hs hi nv => ?_, step_nil⟩
  · refine ⟨(s.withInputs rest).withByte (lowBits s.cfg.aw a) b, (step_cons hs).trans (if_pos vol), ?_⟩
    exact ⟨fun y => State.withByte_byte _ _ y b, ⟨rfl, rfl, rfl, rfl⟩, rfl, rfl, rfl, rfl, rfl, rfl⟩
  · rw [step_cons hs]
    exact acceptInput_foreign_nonvolatile (s := s.withInputs rest) hi nv

end Sys2Proof.Machine

/-! PROOFS. The listener commands (spec/43_listener.md): a registration and its repetition, the active flag (R120 to R122). -/

namespace Sys2Proof.Machine

/-! ## Registrations -/

theorem Edge.ofCode_code (e : Edge) : Edge.ofCode e.code = some e := by cases e <;> rfl

theorem PinRegs.set_of_cb {r : PinRegs} {e : Edge} {tag : CbTag} (h : r.cb e = some tag) : r.set e tag = r := by
  cases e with
  | falling => exact congrArg ({ r with falling := · }) h.symm
  | rising => exact congrArg ({ r with rising := · }) h.symm
  | either => exact congrArg ({ r with either := · }) h.symm

/-- To register the tag that a key already has changes nothing (R120). -/
theorem Listener.register_of_cb {l : Listener} {pin : Pin} {e : Edge} {tag : CbTag} (h : l.cb pin e = some tag) :
    l.register pin e tag = l := by
  rw [Listener.register, PinRegs.set_of_cb h, Vector.set_getElem_self]

theorem Listener.register_idem (l : Listener) (pin : Pin) (e : Edge) (tag : CbTag) :
    (l.register pin e tag).register pin e tag = l.register pin e tag :=
  Listener.register_of_cb ((l.register_cb pin pin e e tag).trans (if_pos ⟨rfl, rfl⟩))

/-! ## The commands -/

theorem exec_lreg_code (s : State) (pin : Pin) (e : Edge) (tag : CbField) :
    exec (.lreg pin e.code tag) s = .next (answered .ok 0 (s.withReg pin e (cbOf s.cfg tag))) :=
  exec_of_effect (.lreg (Edge.ofCode_code e))

/-- Settles O37: LREG answers after `Listener.register`, and the second LREG finds its tag already there. -/
theorem lregRegistersTag : Obligations.LregRegistersTag := by
  intro s pin e tag
  refine ⟨_, _, exec_lreg_code s pin e tag, fun p k => ?_, rfl, rfl, rfl, rfl, rfl, rfl, ⟨rfl, rfl, rfl⟩, ⟨rfl, rfl⟩,
    exec_lreg_code _ pin e tag, ?_⟩
  · exact s.lst.register_cb pin p e k (cbOf s.cfg tag)
  · exact s.lst.register_idem pin e (cbOf s.cfg tag)

/-- Settles O38: both commands answer after `State.withActive`, which leaves the registrations alone. -/
theorem lactAndLdeactSetActive : Obligations.LactAndLdeactSetActive :=
  fun _ => ⟨exec_of_effect .lact, exec_of_effect .ldeact⟩

end Sys2Proof.Machine

/-! PROOFS. Errors (spec/60_exceptions.md sections 1 and 2): what an error leaves, which command raises which, and that nothing
stops the machine from a state that meets the invariant (R130 to R138, R42). -/

namespace Sys2Proof.Machine

variable {s t : State}

/-! ## The status of a response -/

theorem Status.code_inj {e e' : Status} (h : e.code = e'.code) : e = e' := by
  revert h
  cases e <;> cases e' <;> decide

/-- The status in a command's response is OK, or one the command may raise, and then nothing else happened (R130, R131). -/
theorem exec_status {i : Instr} {os : List Obs} {r : RespWord} (h : exec i s = .next t)
    (ht : t.trace = s.trace ++ os ++ [.resp r]) :
    ∃ e, statusOf r = e.code ∧ (e = .ok ∨ MayRaise i e ∧ t = s.answersOnly r ∧ valueOf r = 0) := by
  rcases exec_cases h with ⟨e, he, rfl⟩ | he
  · obtain ⟨-, rfl⟩ := answered_shown ht
    obtain ⟨status, value, -⟩ := responseWord_fields e 0
    exact ⟨e, status, .inr ⟨he, answered_eq e s 0, value⟩⟩
  · obtain ⟨ps, v, shown, -⟩ := he.shown
    obtain rfl := Obs.resp.inj (shown_inj (ht.symm.trans shown)).2
    exact ⟨.ok, (responseWord_fields .ok v).1, .inl rfl⟩

/-- Settles O7: a status other than OK is one the command raised. -/
theorem errorsChangeNothing : Obligations.ErrorsChangeNothing := by
  intro i s t os r h ht hne
  obtain ⟨e, status, rfl | ⟨-, unchanged⟩⟩ := exec_status h ht
  · exact absurd status hne
  · exact unchanged

/-- The status in a response that is all a state shows more than another (R60). -/
theorem statusOf_of_answersOnly_eq {r : RespWord} {e : Status} {x : Byte} {u : State}
    (h : s.answersOnly r = answered e x u) : statusOf r = e.code := by
  have last : [Obs.resp r] = [.resp (responseWord e x)] := List.append_inj_right' (congrArg State.trace h) rfl
  rw [Obs.resp.inj (List.singleton_inj.1 last)]
  exact (responseWord_fields e x).1

/-! ## Which command raises which status -/

theorem mtrans_not_listener (m : MotorId) (tgt : Mode) :
    Instr.mtrans m tgt ≠ .lact ∧ Instr.mtrans m tgt ≠ .ldeact ∧ ∀ p e c, Instr.mtrans m tgt ≠ .lreg p e c := by
  cases tgt <;> simp [Instr.mtrans]

theorem exec_lreg_reserved (s : State) (pin : Pin) (tag : CbField) :
    exec (.lreg pin 3#2 tag) s = .next (answered .illegalCommand 0 s) := rfl

section MayRaise
variable {i : Instr} {e : Status}

theorem MayRaise.code_bound (h : MayRaise i e) : e.code.toNat ≤ 6 ∧ e.code ≠ 4 := by
  cases h <;> decide

theorem MayRaise.set_of_domainError (h : MayRaise i .domainError) : ∃ h v, i = .bset h v ∨ i = .nset h v := by
  cases h with
  | bsetDomain => exact ⟨_, _, .inl rfl⟩
  | nsetDomain => exact ⟨_, _, .inr rfl⟩

theorem MayRaise.direction_of_forbidden (h : MayRaise i .forbiddenTransition) : ∃ m, i = .forward m ∨ i = .reverse m := by
  cases h with
  | forward => exact ⟨_, .inl rfl⟩
  | reverse => exact ⟨_, .inr rfl⟩

theorem MayRaise.transition_of_tooSoon (h : MayRaise i .tooSoon) : ∃ m tgt, i = Instr.mtrans m tgt := by
  cases h with
  | early => exact ⟨_, _, rfl⟩

theorem MayRaise.not_listener_of_configError (h : MayRaise i .configError) :
    i ≠ .lact ∧ i ≠ .ldeact ∧ ∀ p e c, i ≠ .lreg p e c := by
  cases h with
  | motor => exact mtrans_not_listener _ _
  | _ => simp

theorem MayRaise.lreg_of_illegalCommand (h : MayRaise i .illegalCommand) : ∃ p c, i = .lreg p 3 c := by
  cases h with
  | lreg => exact ⟨_, _, rfl⟩

end MayRaise

/-- Settles O8: each status but OK is one that `MayRaise` allows, and the reserved edge is always answered so. -/
theorem statusesByCommand : Obligations.StatusesByCommand := by
  intro i s t os r h ht
  obtain ⟨e, status, answer⟩ := exec_status h ht
  have raised {e' : Status} (hr : statusOf r = e'.code) (hne : e' ≠ .ok) : MayRaise i e' := by
    obtain rfl := Status.code_inj (status.symm.trans hr)
    exact (answer.resolve_left hne).1
  refine ⟨?_, fun hr => (raised (e' := .domainError) hr (by decide)).set_of_domainError,
    fun hr => (raised (e' := .forbiddenTransition) hr (by decide)).direction_of_forbidden,
    fun hr => (raised (e' := .tooSoon) hr (by decide)).transition_of_tooSoon,
    fun hr => (raised (e' := .configError) hr (by decide)).not_listener_of_configError,
    fun hr => (raised (e' := .illegalCommand) hr (by decide)).lreg_of_illegalCommand, ?_⟩
  · rw [status]
    rcases answer with rfl | ⟨he, -⟩
    · decide
    · exact he.code_bound
  · rintro ⟨p, c, rfl⟩
    obtain rfl := Host.Outcome.next.inj (h.symm.trans (exec_lreg_reserved s p c))
    rw [(answered_shown ht).2]
    rfl

/-! ## DomainError -/

theorem setThrough_domainError_iff {c : Option View} {v : View} (hc : c = some v) (top x : Byte) (s : State) :
    setThrough c top x s = .next (s.answersOnly 0x0100) ↔ top.toNat < x.toNat := by
  refine ⟨fun e => ?_, fun hx => ?_⟩
  · rcases setThrough_cases e with ⟨hn, -⟩ | ⟨_, -, hx, -⟩ | ⟨_, -, -, ht⟩
    · cases hn.symm.trans hc
    · exact Nat.not_le.1 hx
    · exact absurd (statusOf_of_answersOnly_eq ht) (by decide)
  · have beyond : top.ult x = true := decide_eq_true hx
    simp only [setThrough, hc, beyond, if_true]
    rfl

/-- Settles O18: both sets compare the value with the largest that their view can hold. -/
theorem outOfRangeValueIsDomainError : Obligations.OutOfRangeValueIsDomainError := fun s _ x =>
  ⟨fun _ _ hv => setThrough_domainError_iff (checkBitView_of hv) 1 x s,
    fun _ _ hv => setThrough_domainError_iff (checkNibbleView_of hv) 15 x s⟩

/-! ## The errors of a transition -/

section Transition
variable {m : MotorId} {tgt : Mode} {mot : Motor} (hm : s.hasMotor m mot)
include hm

/-- A forbidden pair is rejected whatever the time is (R97, R133). -/
theorem exec_mtrans_of_forbidden (hf : forbiddenPair mot.mode tgt) :
    exec (Instr.mtrans m tgt) s = .next (s.answersOnly 0x0200) := by
  rw [← forbidden_iff] at hf
  simp only [exec_mtrans, transition, checkMotor_eq_some.2 hm, hf, if_true]
  rfl

/-- The three answers of a transition of a bound motor, in the order of R139. -/
theorem exec_mtrans_bound_cases (h : exec (Instr.mtrans m tgt) s = .next t) :
    (forbiddenPair mot.mode tgt ∧ t = answered .forbiddenTransition 0 s) ∨
    (¬ s.windowElapsed ∧ t = answered .tooSoon 0 s) ∨
    (∃ u, t = answered .ok 0 u) := by
  rw [exec_mtrans] at h
  rcases transition_cases h with ⟨unbound, -⟩ | ⟨mot', hm', answer⟩
  · cases unbound.symm.trans (checkMotor_eq_some.2 hm)
  · obtain rfl := Option.some.inj (hm.2.symm.trans hm'.2)
    rcases answer with hf | ⟨-, early⟩ | ⟨-, -, v1, v2, b1, b2, -, -, ht⟩
    · exact .inl hf
    · exact .inr (.inl early)
    · exact .inr (.inr ⟨_, ht⟩)

theorem exec_mtrans_forbidden_iff :
    exec (Instr.mtrans m tgt) s = .next (s.answersOnly 0x0200) ↔ forbiddenPair mot.mode tgt := by
  refine ⟨fun h => ?_, exec_mtrans_of_forbidden hm⟩
  rcases exec_mtrans_bound_cases hm h with ⟨hf, -⟩ | ⟨-, ht⟩ | ⟨u, ht⟩
  · exact hf
  · exact absurd (statusOf_of_answersOnly_eq ht) (by decide)
  · exact absurd (statusOf_of_answersOnly_eq ht) (by decide)

theorem exec_mtrans_tooSoon_iff (allowed : ¬ forbiddenPair mot.mode tgt) :
    exec (Instr.mtrans m tgt) s = .next (s.answersOnly 0x0300) ↔ ¬ s.windowElapsed := by
  refine ⟨fun h => ?_, exec_mtrans_of_early hm allowed⟩
  rcases exec_mtrans_bound_cases hm h with ⟨hf, -⟩ | ⟨early, -⟩ | ⟨u, ht⟩
  · exact absurd hf allowed
  · exact early
  · exact absurd (statusOf_of_answersOnly_eq ht) (by decide)

end Transition

/-- Settles O25: neither the time nor the throttle is looked at before the pair. -/
theorem forbiddenExactlyForwardReverse : Obligations.ForbiddenExactlyForwardReverse := fun _ _ _ _ hm =>
  exec_mtrans_forbidden_iff hm

theorem not_windowElapsed_iff :
    ¬ s.windowElapsed ↔ ∃ last, s.thr = some last ∧ s.time < last + s.cfg.windowMs * s.cfg.tickPerMs := by
  simp only [State.windowElapsed, not_forall, Nat.not_le, exists_prop]

/-- Settles O26: after an allowed pair the window alone decides. -/
theorem tooSoonExactlyInsideWindow : Obligations.TooSoonExactlyInsideWindow := fun _ _ _ _ hm allowed =>
  (exec_mtrans_tooSoon_iff hm allowed).trans not_windowElapsed_iff

/-! ## Nothing stops the machine -/

theorem bindView_answers (h : Handle) (v : View) (s : State) : ∃ t, bindView h v s = .next t := by
  unfold bindView
  split
  · exact ⟨_, raise_eq ..⟩
  · exact ⟨_, respond_eq ..⟩

theorem getThrough_answers (c : Option View) (s : State) : ∃ t, getThrough c s = .next t := by
  cases c with
  | none => exact ⟨_, raise_eq ..⟩
  | some v => exact ⟨_, respond_eq ..⟩

theorem setThrough_answers (c : Option View) (top x : Byte) (s : State) : ∃ t, setThrough c top x s = .next t := by
  cases c with
  | none => exact ⟨_, raise_eq ..⟩
  | some v =>
    unfold setThrough
    dsimp only
    split
    · exact ⟨_, raise_eq ..⟩
    · exact ⟨_, respond_eq ..⟩

theorem execMbind_answers (m : MotorId) (h1 h2 : Handle) (s : State) : ∃ t, execMbind m h1 h2 s = .next t := by
  unfold execMbind
  split
  · exact ⟨_, raise_eq ..⟩
  · exact ⟨_, respond_eq ..⟩

theorem execMmode_answers (m : MotorId) (s : State) : ∃ t, execMmode m s = .next t := by
  unfold execMmode
  split
  · exact ⟨_, raise_eq ..⟩
  · exact ⟨_, respond_eq ..⟩

theorem execLreg_answers (pin : Pin) (edge : BitVec 2) (tag : CbField) (s : State) :
    ∃ t, execLreg pin edge tag s = .next t := by
  unfold execLreg
  split
  · exact ⟨_, raise_eq ..⟩
  · exact ⟨_, respond_eq ..⟩

/-- The invariant is needed for an accepted transition only: its motor's pins are bound bit views (R90, R91). -/
theorem State.Inv.transition_answers (hi : s.Inv) (m : MotorId) (tgt : Mode) : ∃ t, transition m tgt s = .next t := by
  rw [← exec_mtrans]
  by_cases bound : ∃ mot, s.hasMotor m mot
  case neg => exact ⟨_, (exec_mtrans m tgt s).trans ((transition_configError_iff m tgt s).2 (checkMotor_eq_none_iff.2 bound))⟩
  case pos =>
    obtain ⟨mot, hm⟩ := bound
    by_cases hf : forbiddenPair mot.mode tgt
    · exact ⟨_, exec_mtrans_of_forbidden hm hf⟩
    · by_cases window : s.windowElapsed
      · obtain ⟨v1, v2, b1, b2, h1, h2, -⟩ := hi.pins m mot hm.2
        obtain ⟨t, os, accepted, -⟩ := exec_mtrans_accepted hm h1 h2 hf window
        exact ⟨t, accepted⟩
      · exact ⟨_, exec_mtrans_of_early hm hf window⟩

/-- No command stops the machine (R131). -/
theorem State.Inv.exec_answers (hi : s.Inv) (i : Instr) : ∃ t, exec i s = .next t := by
  cases i with
  | vbit => exact bindView_answers ..
  | vnib => exact bindView_answers ..
  | mbind => exact execMbind_answers ..
  | bget => exact getThrough_answers ..
  | bset => exact setThrough_answers ..
  | nget => exact getThrough_answers ..
  | nset => exact setThrough_answers ..
  | brake m => exact hi.transition_answers m .brake
  | coast m => exact hi.transition_answers m .coast
  | forward m => exact hi.transition_answers m .forward
  | reverse m => exact hi.transition_answers m .reverse
  | mmode => exact execMmode_answers ..
  | lreg => exact execLreg_answers ..
  | lact => exact ⟨_, exec_of_effect .lact⟩
  | ldeact => exact ⟨_, exec_of_effect .ldeact⟩

theorem State.Inv.runCommand_answers (hi : s.Inv) (w : Word) : ∃ t, runCommand w s = .next t := by
  unfold runCommand
  split
  · exact hi.exec_answers _
  · exact ⟨_, raise_eq ..⟩

/-- An input that can be accepted is: the converse of `acceptInput_cases`. -/
theorem acceptInput_of_accepted {i : Input} (h : Accepted s i t) : acceptInput i s = .next t := by
  cases h with
  | command run => exact run
  | foreignWrite vol => exact if_pos vol
  | resetInCommand run => simp only [acceptInput, resetInCommand, run]
  | foreignWriteInCommand vol run => simp only [acceptInput, foreignWriteInCommand, vol, run, if_true]
  | foreignWriteInDispatch vol => exact if_pos vol
  | _ => rfl

/-- Every input is accepted but another agent's write to a non-volatile register (R42). -/
theorem State.Inv.accepts (hi : s.Inv) {i : Input}
    (vol : ∀ a, i.foreignAddr? = some a → isVolatile s.cfg (lowBits s.cfg.aw a) = true) : ∃ t, Accepted s i t := by
  cases i with
  | command w => exact (hi.runCommand_answers w).imp fun _ run => .command run
  | irq => exact ⟨_, .irq⟩
  | time => exact ⟨_, .time⟩
  | foreignWrite => exact ⟨_, .foreignWrite (vol _ rfl)⟩
  | foreignWriteInCommand w =>
    obtain ⟨full, run⟩ := hi.runCommand_answers w
    exact ⟨_, .foreignWriteInCommand (vol _ rfl) run⟩
  | foreignWriteInDispatch => exact ⟨_, .foreignWriteInDispatch (vol _ rfl)⟩
  | reset => exact ⟨_, .reset⟩
  | resetInCommand w =>
    obtain ⟨full, run⟩ := hi.runCommand_answers w
    exact ⟨_, .resetInCommand run⟩
  | resetInDispatch => exact ⟨_, .resetInDispatch⟩

/-- Settles O51: a step waits, or accepts the first input, which is no other master's write. -/
theorem machineNeverStops : Obligations.MachineNeverStops := by
  intro s hi sole
  rcases hs : s.inputs with _ | ⟨i, rest⟩
  · exact ⟨s, step_nil hs⟩
  · obtain ⟨t, accepted⟩ := (hi.withInputs rest).accepts fun a ha => sole i rest a hs ha
    exact ⟨t, (step_cons hs).trans (acceptInput_of_accepted accepted)⟩

end Sys2Proof.Machine

/-! PROOFS. The interrupt dispatch (spec/60_exceptions.md section 3): the fields of an event word, the words of a dispatch and
their order (R61, R141, R142, R145). -/

namespace Sys2Proof.Machine

variable {s : State}

/-! ## Event words -/

theorem append_eq_append_iff {n m : Nat} {x x' : BitVec n} {y y' : BitVec m} : x ++ y = x' ++ y' ↔ x = x' ∧ y = y' := by
  refine ⟨fun h => ⟨?_, ?_⟩, fun ⟨hx, hy⟩ => hx ▸ hy ▸ rfl⟩
  · simpa only [BitVec.extractLsb'_append_eq_left] using congrArg (BitVec.extractLsb' m n) h
  · simpa only [BitVec.extractLsb'_append_eq_right] using congrArg (BitVec.extractLsb' 0 m) h

/-- A word is an event word exactly if its fields are (R61). -/
theorem eq_eventWord_iff {e : EventWord} {tag : CbTag} {flag : Byte} {pin : Pin} {k : Edge} {dir cap : Bool} :
    e = eventWord tag flag pin k dir cap ↔
      e.extractLsb' 16 16 = BitVec.ofNat 16 tag ∧ e.extractLsb' 8 8 = flag ∧ e.extractLsb' 7 1 = 0#1 ∧
        e.extractLsb' 4 3 = pin ∧ e.extractLsb' 2 2 = k.code ∧ e.extractLsb' 1 1 = BitVec.ofBool dir ∧
        e.extractLsb' 0 1 = BitVec.ofBool cap := by
  have fields : field e 16 16 ++ field e 8 8 ++ field e 7 1 ++ field e 4 3 ++ field e 2 2 ++ field e 1 1 ++ field e 0 1 = e := by
    simp only [field_append_field]
    exact field_whole e
  refine (Eq.congr_left fields).symm.trans (append_eq_append_iff.trans ?_)
  simp only [append_eq_append_iff, and_assoc]
  rfl

/-- The place of an event word in its dispatch: its pin, then its key (R141). -/
def eventPlace (e : EventWord) : Nat := (e.extractLsb' 2 5).toNat

theorem eventPlace_eventWord (tag : CbTag) (flag : Byte) (pin : Pin) (k : Edge) (dir cap : Bool) :
    eventPlace (eventWord tag flag pin k dir cap) = 4 * pin.toNat + k.code.toNat := by
  obtain ⟨-, -, -, hpin, hkey, -⟩ := (eq_eventWord_iff (e := eventWord tag flag pin k dir cap)).1 rfl
  have place : (eventWord tag flag pin k dir cap).extractLsb' 2 5 = pin ++ k.code := by
    rw [← BitVec.extractLsb'_append_extractLsb'_eq_extractLsb' (start₂ := 4) (len₁ := 2) (len₂ := 3) rfl, hpin, hkey]
  rw [eventPlace, place, BitVec.toNat_append, ← Nat.shiftLeft_add_eq_or_of_lt k.code.isLt, Nat.shiftLeft_eq, Nat.mul_comm]

/-! ## The words of a dispatch -/

section Words
variable (l : Listener) (flag cap : Byte)

/-- The event words of one registration key: one if a callback is registered for it (R141). -/
def keyWords (pin : Pin) (k : Edge) (c : Bool) : List EventWord :=
  ((l.cb pin k).map fun tag => eventWord tag flag pin k c c).toList

/-- The event words of one pin, the specific edge before `either`. -/
def pinWords (pin : Pin) : List EventWord :=
  if flag.getLsbD pin.toNat then
    keyWords l flag pin (edgeOf (cap.getLsbD pin.toNat)) (cap.getLsbD pin.toNat)
      ++ keyWords l flag pin .either (cap.getLsbD pin.toNat)
  else []

/-- The event words of one dispatch, pins ascending. -/
def dispatchWords : List EventWord := allPins.flatMap (pinWords l flag cap)

theorem keyEvent_eq_map (pin : Pin) (k : Edge) (c : Bool) : keyEvent l flag pin k c = (keyWords l flag pin k c).map .event := by
  unfold keyEvent keyWords
  cases l.cb pin k <;> rfl

theorem pinEvents_eq_map (pin : Pin) : pinEvents l flag cap pin = (pinWords l flag cap pin).map .event := by
  unfold pinEvents pinWords
  split
  · rw [List.map_append, keyEvent_eq_map, keyEvent_eq_map]
  · rfl

/-- The events of a dispatch are its event words (R141). -/
theorem dispatchEvents_eq_map : dispatchEvents l flag cap = (dispatchWords l flag cap).map .event := by
  rw [dispatchEvents, dispatchWords, List.map_flatMap, funext (pinEvents_eq_map l flag cap)]

end Words

section Order
variable {l : Listener} {flag cap : Byte} {pin : Pin} {e : EventWord}

theorem mem_keyWords {k : Edge} {c : Bool} :
    e ∈ keyWords l flag pin k c ↔ ∃ tag, l.cb pin k = some tag ∧ e = eventWord tag flag pin k c c := by
  simp only [keyWords, Option.mem_toList, Option.map_eq_some_iff, eq_comm (a := e)]

theorem mem_pinWords : e ∈ pinWords l flag cap pin ↔ flag.getLsbD pin.toNat = true ∧
    ∃ k, (k = .either ∨ k = edgeOf (cap.getLsbD pin.toNat)) ∧
      e ∈ keyWords l flag pin k (cap.getLsbD pin.toNat) := by
  unfold pinWords
  split
  case isTrue hf => simp only [List.mem_append, or_and_right, exists_or, exists_eq_left, hf, true_and, or_comm]
  case isFalse hf => exact ⟨nofun, fun h => absurd h.1 hf⟩

theorem mem_allPins (pin : Pin) : pin ∈ allPins := by
  revert pin; decide

/-- Which event words a dispatch shows (R141, R142). -/
theorem mem_dispatchWords : e ∈ dispatchWords l flag cap ↔ ∃ (pin : Pin) (k : Edge) (tag : CbTag),
    flag.getLsbD pin.toNat = true ∧ l.cb pin k = some tag ∧ (k = .either ∨ k = edgeOf (cap.getLsbD pin.toNat)) ∧
      e = eventWord tag flag pin k (cap.getLsbD pin.toNat) (cap.getLsbD pin.toNat) := by
  simp only [dispatchWords, List.mem_flatMap, mem_allPins, true_and, mem_pinWords, mem_keyWords]
  constructor
  · rintro ⟨pin, hf, k, hk, tag, hcb, he⟩
    exact ⟨pin, k, tag, hf, hcb, hk, he⟩
  · rintro ⟨pin, k, tag, hf, hcb, hk, he⟩
    exact ⟨pin, hf, k, hk, tag, hcb, he⟩

theorem eventPlace_of_mem_keyWords {k : Edge} {c : Bool} (h : e ∈ keyWords l flag pin k c) :
    eventPlace e = 4 * pin.toNat + k.code.toNat := by
  obtain ⟨tag, -, rfl⟩ := mem_keyWords.1 h
  exact eventPlace_eventWord ..

theorem eventPlace_of_mem_pinWords (h : e ∈ pinWords l flag cap pin) :
    4 * pin.toNat ≤ eventPlace e ∧ eventPlace e < 4 * pin.toNat + 4 := by
  obtain ⟨-, k, -, hk⟩ := mem_pinWords.1 h
  have place := eventPlace_of_mem_keyWords hk
  have := k.code.isLt
  omega

variable (l flag cap pin)

theorem pairwise_keyWords (R : EventWord → EventWord → Prop) (k : Edge) (c : Bool) :
    (keyWords l flag pin k c).Pairwise R := by
  unfold keyWords
  cases l.cb pin k <;> simp

theorem pairwise_pinWords : (pinWords l flag cap pin).Pairwise fun e f => eventPlace e < eventPlace f := by
  have specificFirst (c : Bool) : (edgeOf c).code.toNat < Edge.either.code.toNat := by cases c <;> decide
  unfold pinWords
  split
  · refine List.pairwise_append.2 ⟨pairwise_keyWords .., pairwise_keyWords .., fun e he f hf => ?_⟩
    rw [eventPlace_of_mem_keyWords he, eventPlace_of_mem_keyWords hf]
    exact Nat.add_lt_add_left (specificFirst _) _
  · exact List.Pairwise.nil

theorem pairwise_allPins : allPins.Pairwise fun p q => p.toNat < q.toNat := by decide

/-- The event words of a dispatch stand in the order of their places (R141). -/
theorem pairwise_dispatchWords : (dispatchWords l flag cap).Pairwise fun e f => eventPlace e < eventPlace f := by
  refine List.pairwise_flatMap.2 ⟨fun pin _ => pairwise_pinWords l flag cap pin, pairwise_allPins.imp fun hpq e he f hf => ?_⟩
  have before := (eventPlace_of_mem_pinWords he).2
  have after := (eventPlace_of_mem_pinWords hf).1
  omega

end Order

/-! ## A step with an interrupt -/

section Irq
variable {rest : List Input} (hs : s.inputs = .irq :: rest)
include hs

theorem step_irq : step s = .next (dispatchIrq (s.withInputs rest)) := step_cons hs

theorem step_irq_inactive (ha : s.lst.active = false) : step s = .next { s with inputs := rest } := by
  rw [step_irq hs, dispatchIrq_inactive (s := s.withInputs rest) ha, State.withInputs_eq]

theorem step_irq_active (ha : s.lst.active = true) :
    step s = .next (((s.withInputs rest).drop 2).emitAll (dispatchShown s)) := by
  rw [step_irq hs, dispatchIrq_active (s := s.withInputs rest) ha]
  rfl

end Irq

/-- Settles O39: an inactive dispatch answers the state it was given. -/
theorem irqIgnoredWhileInactive : Obligations.IrqIgnoredWhileInactive := fun _ _ hs ha => step_irq_inactive hs ha

/-- Settles O40: the events are those of `dispatchWords`. -/
theorem irqEmitsMatchingEvents : Obligations.IrqEmitsMatchingEvents := by
  refine fun s rest hs => ⟨step_irq_inactive hs, fun ha => ⟨dispatchWords s.lst (s.draw 0) (s.draw 1), ?_,
    pairwise_dispatchWords .., fun e => ?_⟩⟩
  · rw [step_irq_active hs ha, dispatchShown, dispatchEvents_eq_map]
    simp only [List.append_assoc]
    rfl
  · simp only [mem_dispatchWords, eq_eventWord_iff]
    rfl

/-- A dispatch whose two reads draw `flag` and `cap` (R141). -/
theorem step_irq_trace {rest : List Input} {ds : List Byte} {flag cap : Byte} (hs : s.inputs = .irq :: rest)
    (ha : s.lst.active = true) (hd : s.draws = flag :: cap :: ds) : ∃ t, step s = .next t ∧ t.trace = s.trace ++
      ([.read s.cfg.intfAddr flag, .read s.cfg.intcapAddr cap] ++ dispatchEvents s.lst flag cap) := by
  have draw0 : s.draw 0 = flag := State.draw_zero_of_cons hd
  have draw1 : s.draw 1 = cap := by simp [State.draw, hd]
  exact ⟨_, step_irq_active hs ha, by simp [dispatchShown, draw0, draw1]⟩

/-- Settles O41, by running the dispatch of the listener of R144. -/
theorem workedDispatch : Obligations.WorkedDispatch := by
  intro s ds hl hs
  have ha : s.lst.active = true := by rw [hl]
  exact ⟨fun hd => (step_irq_trace hs ha hd).imp fun _ ⟨run, shown⟩ => ⟨run, shown.trans (by rw [hl]; rfl)⟩,
    fun hd => (step_irq_trace hs ha hd).imp fun _ ⟨run, shown⟩ => ⟨run, shown.trans (by rw [hl]; rfl)⟩⟩

end Sys2Proof.Machine

/-! PROOFS. RESET (R23, R161, R162): between commands, and in the middle of a command or dispatch, where the first part
of what would have been shown stands. -/

namespace Sys2Proof.Machine

variable {s t : State}

/-! ## RESET between commands -/

/-- Settles O43: the reset tables are empty, and a RESET between commands answers `resetBlock`. -/
theorem resetClearsBlock : Obligations.ResetClearsBlock := by
  refine ⟨⟨fun _ => rfl, fun _ => rfl, rfl, rfl, Listener.initial_cb, rfl⟩, fun s rest hs => ?_⟩
  exact ⟨resetBlock (s.withInputs rest), step_cons hs, fun _ => rfl, fun _ => rfl, rfl, rfl, Listener.initial_cb, rfl, rfl, rfl,
    rfl, rfl, rfl, rfl⟩

/-! ## The throttle after a reset -/

/-- A transition is too soon only inside the window (R110). -/
theorem not_windowElapsed_of_tooSoon {m : MotorId} {tgt : Mode}
    (h : exec (Instr.mtrans m tgt) s = .next (s.answersOnly 0x0300)) : ¬ s.windowElapsed := by
  rw [exec_mtrans] at h
  rcases transition_cases h with ⟨-, ht⟩ | ⟨mot, -, ⟨-, ht⟩ | ⟨-, early, -⟩ | ⟨-, -, v1, v2, b1, b2, -, -, ht⟩⟩
  · exact absurd (statusOf_of_answersOnly_eq ht) (by decide)
  · exact absurd (statusOf_of_answersOnly_eq ht) (by decide)
  · exact early
  · exact absurd (statusOf_of_answersOnly_eq ht) (by decide)

/-- Settles O45: a reset leaves the throttle at its sentinel, which is never too soon. -/
theorem resetForgetsThrottle : Obligations.ResetForgetsThrottle := by
  intro s i rest hs hr t h u m tgt hu tooSoon
  rw [step_cons hs] at h
  have sentinel : u.thr = none := hu.trans ((acceptInput_cases h).thr_of_resets hr)
  exact not_windowElapsed_of_tooSoon tooSoon fun last hl => nomatch sentinel.symm.trans hl

/-! ## What is left after a RESET in the middle -/

theorem abandonAt_trace (k : Nat) (s full : State) : (abandonAt k s full).trace = s.trace ++ issuedAt k s full := rfl

/-- The registers are what the transactions issued so far make of them (R24, R161). -/
theorem abandonAt_byte (k : Nat) (s full : State) (a : Addr) :
    (abandonAt k s full).byte a = registersAfter s.byte (issuedAt k s full) a :=
  byte_foldl_applyTo ..

/-- The volatile reads issued so far have used up their draws (R34). -/
theorem usedDraws_abandonAt (k : Nat) (s full : State) :
    s.usedDraws (abandonAt k s full) ((issuedAt k s full).countP (Obs.isDraw s.cfg)) :=
  ⟨rfl, rfl⟩

/-! ## In the middle of a command -/

/-- A set shows nothing, or its read and then its write (R45, R131). -/
theorem exec_set_shown {h : Handle} {x : Byte} {i : Instr} {os : List Obs} {r : RespWord} (hi : i = .bset h x ∨ i = .nset h x)
    (e : exec i s = .next t) (ht : t.trace = s.trace ++ os ++ [.resp r]) :
    os = [] ∨ ∃ a old new, os = [.read a old, .write a new] := by
  have shown_viewSet {v : View} {y : Byte} (hv : t = answered .ok 0 (viewSet s v y)) :
      os = [.read v.addr (s.firstRead v.addr), .write v.addr (setByte s v y)] := by
    have := (replacesOnly_viewSet s v y).1
    rw [← hv] at this
    exact (shown_inj (ht.symm.trans (this.trans (List.append_assoc _ [_, _] _).symm))).1
  rcases exec_cases e with ⟨status, -, rfl⟩ | he
  · exact .inl (answered_shown ht).1
  · generalize hu : t = u at he
    cases he with
    | bset => exact .inr ⟨_, _, _, shown_viewSet hu⟩
    | nset => exact .inr ⟨_, _, _, shown_viewSet hu⟩
    | @drive _ tgt => cases tgt <;> simp [Instr.mtrans] at hi
    | _ => simp at hi

/-- The first transaction of a set is no write. -/
theorem write_notMem_take_of_set {h : Handle} {x : Byte} {i : Instr} {os : List Obs} {r : RespWord}
    (hi : i = .bset h x ∨ i = .nset h x) (e : exec i s = .next t) (ht : t.trace = s.trace ++ os ++ [.resp r]) {k : Nat}
    (hk : k ≤ 1) (a : Addr) (b : Byte) : .write a b ∉ os.take k := by
  intro hm
  have head : .write a b ∈ os.take 1 := List.take_subset_take_left os hk hm
  rcases exec_set_shown hi e ht with rfl | ⟨c, old, new, rfl⟩
  · simp at head
  · simp at head

/-- Settles O44: what was issued is the first `k` of the command's transactions, and of a set's the first is no write. -/
theorem resetAbandonsCommand : Obligations.ResetAbandonsCommand := by
  intro s full w k rest hs run
  obtain ⟨os, r, ht, ho, -⟩ := runCommand_bytes run
  have issued : issuedAt k (s.withInputs rest) full = os.take k := issuedAt_command k ht ho
  have shown := abandonAt_trace k (s.withInputs rest) full
  have bytes := abandonAt_byte k (s.withInputs rest) full
  rw [issued] at shown bytes
  refine ⟨_, os, r, (step_cons hs).trans (acceptInput_of_accepted (.resetInCommand run)), ht, ho, shown, bytes,
    fun _ => rfl, fun _ => rfl, rfl, rfl, rfl, rfl, rfl, fun ⟨h, x, hd⟩ hk a => ?_⟩
  obtain ⟨i, hi, hd⟩ : ∃ i, (i = .bset h x ∨ i = .nset h x) ∧ decode w = .ok i :=
    hd.elim (fun hd => ⟨_, .inl rfl, hd⟩) fun hd => ⟨_, .inr rfl, hd⟩
  have ran := (runCommand_of_decode hd _).symm.trans run
  rw [bytes, registersAfter_of_no_write (write_notMem_take_of_set hi ran ht hk)]
  rfl

/-! ## In the middle of a dispatch -/

theorem dispatchIrq_trace (s : State) : (dispatchIrq s).trace = s.trace ++ shownBy s (dispatchIrq s) := by
  rw [shownBy_dispatch]
  split
  case isTrue ha => rw [dispatchIrq_active ha]; rfl
  case isFalse ha => rw [dispatchIrq_inactive (Bool.eq_false_of_not_eq_true ha), List.append_nil]

/-- The two reads of a dispatch come first, and they are its only draws (R141). -/
theorem countP_isDraw_take_dispatchShown (k : Nat) (s : State) :
    ((dispatchShown s).take k).countP (Obs.isDraw s.cfg) = min k 2 := by
  have events : ((dispatchEvents s.lst (s.draw 0) (s.draw 1)).take (k - 2)).countP (Obs.isDraw s.cfg) = 0 := by
    refine List.countP_eq_zero.2 fun o ho => ?_
    obtain ⟨w, rfl⟩ := mem_dispatchEvents (List.mem_of_mem_take ho)
    exact Bool.false_ne_true
  rw [dispatchShown, List.take_append, List.countP_append]
  match k with
  | 0 => simp
  | 1 => simp [Obs.isDraw]
  | k + 2 => simpa [Obs.isDraw] using events

theorem countP_isDraw_issuedAt_dispatch (k : Nat) (s : State) :
    (issuedAt k s (dispatchIrq s)).countP (Obs.isDraw s.cfg) = if s.lst.active then min k 2 else 0 := by
  rw [issuedAt, shownBy_dispatch]
  split
  case isTrue => exact countP_isDraw_take_dispatchShown k s
  case isFalse => rw [List.take_nil, List.countP_nil]

/-- Settles O55: what was issued is the first `k` of the reads and events, none of which writes, and the two reads use up a
draw each. -/
theorem resetAbandonsDispatch : Obligations.ResetAbandonsDispatch := by
  intro s k rest hs
  refine ⟨_, dispatchIrq (s.withInputs rest), _, step_cons hs, step_irq rfl, dispatchIrq_trace (s.withInputs rest),
    abandonAt_trace .., fun a => ?_, fun _ => rfl, fun _ => rfl, rfl, rfl, rfl, rfl, rfl, ?_⟩
  · have unwritten := write_notMem_shownBy_dispatch (s.withInputs rest)
    exact (abandonAt_byte ..).trans
      (congrFun (registersAfter_of_no_write (fun a b hm => unwritten a b (List.mem_of_mem_take hm)) _) a)
  · have used := usedDraws_abandonAt k (s.withInputs rest) (dispatchIrq (s.withInputs rest))
    rwa [countP_isDraw_issuedAt_dispatch] at used

end Sys2Proof.Machine
